-- ==== Sys2Proof/Word.lean ====
section
/-! DEFINITION. The two bit vectors the spec computes with: bytes of the buffer memory and 32-bit
registers, addresses and descriptor words (00_scope.md R8). -/

namespace Sys2Proof

/-- One byte of the buffer memory (20_memory.md R80). -/
abbrev Byte := BitVec 8

/-- A 32-bit register, address or descriptor word (00_scope.md R8). -/
abbrev Word := BitVec 32

end Sys2Proof
end

