-- ==== Sys2Proof/Machine/Bytes.lean ====
section
/-! DEFINITION. Byte order: numbers as byte sequences and back (00_scope.md R11, 20_memory.md R85). -/

namespace Sys2Proof

/-- The `w` low bytes of `v`, least significant first (00_scope.md R11, `be = 0`). -/
def leBytes : Nat → Nat → List Byte
  | 0, _ => []
  | w + 1, v => BitVec.ofNat 8 v :: leBytes w (v / 256)

/-- The number a byte sequence stands for, least significant byte first (R11). -/
def leNat : List Byte → Nat
  | [] => 0
  | b :: bs => b.toNat + 256 * leNat bs

/-- The bytes WriteUInt stores, lowest address first: `v mod 2^(8w)` in the chosen byte order (R11). -/
def uintBytes (w : Nat) (be : Bool) (v : Nat) : List Byte :=
  if be then (leBytes w v).reverse else leBytes w v

/-- The number ReadUInt reads from bytes in address order (R11). -/
def uintOfBytes (be : Bool) (bs : List Byte) : Nat :=
  if be then leNat bs.reverse else leNat bs

end Sys2Proof
end

