-- ==== Sys2Proof/Config.lean ====
section
/-! DEFINITION. What an implementation of RLECODEC fixes, and the values the spec leaves free. -/

namespace Sys2Proof.Config

/-- The constant register ID (10_state.md R33). -/
def idValue : Word := 0x524C4531#32

/-- The smallest MEM_BYTES (00_scope.md R7). -/
def memBytesMin : Nat := 4096

/-- The largest MEM_BYTES (00_scope.md R7, 90_conflicts.md C7). -/
def memBytesMax : Nat := 2 ^ 31

/-- The reference value of MEM_BYTES (00_scope.md R7). DESIGN CHOICE, unsafe (log 2): the size that
State.reset takes; no other definition reads it. -/
def memBytesRef : Nat := 65536

/-- What a byte of `M` that the cell list does not name reads as. DESIGN CHOICE, unsafe (log 1): the
spec leaves the contents of `M` after power-on open (70_reset_and_hazards.md R300, parameter M0). -/
def unlistedByte : Byte := 0#8

/-- The bytes an RLE decoder leaves in its destination range when it raises E_CORRUPT, which the spec
calls unspecified (60_exceptions.md R275, 93_implementation_defined.md I4): a FREE VALUE (log 3). The
first argument counts the occasions, the second is the offset in the destination range. -/
opaque unspecByte : Nat → Nat → Byte

end Sys2Proof.Config
end

