-- ==== Sys2Proof/Syntax.lean ====
section
/-! DEFINITION. The descriptors of RLECODEC as syntax: one constructor of `Instr` per row of
spec/opcode_table.json, and the eight words a descriptor is stored as. -/

namespace Sys2Proof

/-- The eight little-endian words of a descriptor (30_encoding.md R110). -/
structure Desc where
  w0 : Word
  w1 : Word
  w2 : Word
  w3 : Word
  w4 : Word
  w5 : Word
  w6 : Word
  w7 : Word
deriving DecidableEq, Repr

/-- The 21 defined opcodes (30_encoding.md R117). -/
inductive Opcode where
  | nop | stop | jump | brf | setf
  | copy | fill
  | rleDec | rleEnc | rleDecp | rleEncp
  | bitconv | reorder | deinterleave | interleave | rowflip | unpacksub | packsub
  | hdrLoad | hdrStore | chunkFind
deriving DecidableEq, Repr

/-- BRF's condition, FLAGS.COND (30_encoding.md R120). -/
inductive Cond where
  | eq | ne | ltu | geu
deriving DecidableEq, Repr

/-- A descriptor. `irq` is W0.IRQ throughout (30_encoding.md R113). Width and channel counts are the
numbers themselves (1..4), not the stored value minus one (R122). A parameter word whose ignored bits
an error reports whole (R272) is kept whole. -/
inductive Instr where
  /-- NOP (40_control_move.md R141). -/
  | nop (irq : Bool)
  /-- STOP (R142). -/
  | stop (irq : Bool)
  /-- JUMP, W1 = target (R143). -/
  | jump (irq : Bool) (target : Word)
  /-- BRF: FLAGS RSEL, COND, A; W1 = target, W5 = imm (R144). -/
  | brf (irq rsel : Bool) (cond : Cond) (a : BitVec 5) (target imm : Word)
  /-- SETF: FLAGS A; W5 = imm (R145). -/
  | setf (irq : Bool) (a : BitVec 5) (imm : Word)
  /-- COPY: W1 = src, W2 = len, W3 = dst (R146). -/
  | copy (irq : Bool) (src len dst : Word)
  /-- FILL: W3 = dst, W4 = len, W5[7:0] = value (R147). -/
  | fill (irq : Bool) (dst len : Word) (value : Byte)
  /-- RLE_DEC: W1 = src, W2 = S, W3 = dst, W4 = L (41_rle.md R175). -/
  | rleDec (irq : Bool) (src slen dst len : Word)
  /-- RLE_ENC: FLAGS FB; W1 = src, W2 = n, W3 = dst, W4 = cap, W5 = MAXRUN/RMIN (R176). -/
  | rleEnc (irq fb : Bool) (src n dst cap p0 : Word)
  /-- RLE_DECP: B = BC+1, FLAGS DBE, PLSB; W1 = src, W2 = S, W3 = dst, W4 = n (R178). -/
  | rleDecp (irq : Bool) (b : Nat) (dbe plsb : Bool) (src slen dst n : Word)
  /-- RLE_ENCP: B = BC+1, FLAGS SBE, PLSB, FB; W1 = src, W2 = n, W3 = dst, W4 = cap, W5 (R179). -/
  | rleEncp (irq : Bool) (b : Nat) (sbe plsb fb : Bool) (src n dst cap p0 : Word)
  /-- BITCONV: Wi = WI+1, Wo = WO+1, FLAGS SBE, DBE, REP, INV; W1 = src, W2 = n, W3 = dst,
  W5 = N/M/S, W6 = SI/SO (43_pack.md R233, R234). -/
  | bitconv (irq : Bool) (wi wo : Nat) (sbe dbe rep inv : Bool) (src n dst p0 p1 : Word)
  /-- REORDER: w = WC+1, c = CC+1; W1 = src, W2 = n, W3 = dst, W5 = map (R235, R236). -/
  | reorder (irq : Bool) (w c : Nat) (src n dst p0 : Word)
  /-- DEINTERLEAVE: w, c; W1 = src, W2 = n, W3 = dst, W5 = PP (R237). -/
  | deinterleave (irq : Bool) (w c : Nat) (src n dst pp : Word)
  /-- INTERLEAVE: w, c; W1 = src, W2 = n, W3 = dst, W5 = PP (R238). -/
  | interleave (irq : Bool) (w c : Nat) (src n dst pp : Word)
  /-- ROWFLIP: W3 = base, W4 = r, W5 = L, W6 = P (R239). -/
  | rowflip (irq : Bool) (base rows len pitch : Word)
  /-- UNPACKSUB: FLAGS BC, LSBF; W1 = src, W2 = n, W3 = dst, W4 = r, W5 = PS, W6 = PD (R241). -/
  | unpacksub (irq : Bool) (bc : BitVec 2) (lsbf : Bool) (src n dst rows ps pd : Word)
  /-- PACKSUB: as UNPACKSUB (R242). -/
  | packsub (irq : Bool) (bc : BitVec 2) (lsbf : Bool) (src n dst rows ps pd : Word)
  /-- HDR_LOAD: W1 = hdr, W2 = hlen, W5 = T, W6 = K (42_header.md R205). -/
  | hdrLoad (irq : Bool) (hdr hlen tbl k : Word)
  /-- HDR_STORE: W3 = hdr, W4 = hlen, W5 = T, W6 = K (R207). -/
  | hdrStore (irq : Bool) (hdr hlen tbl k : Word)
  /-- CHUNK_FIND: FLAGS G, OPT; W1 = region, W2 = rlen, W5 = tag (R209). -/
  | chunkFind (irq : Bool) (g : BitVec 2) (opt : Bool) (region rlen tag : Word)
deriving DecidableEq, Repr

/-- Why the decoder rejects bytes (30_encoding.md R111, R115, R118). Each constructor but the last
carries the control word W0, which ERR_INFO reports. -/
inductive DecodeError where
  /-- OP is not in the opcode map (R118). -/
  | undefinedOp (w0 : Word)
  /-- A reserved bit W0[15:9] is set (R115). -/
  | reservedBits (w0 : Word)
  /-- A FLAGS bit outside FLAGMASK(OP) is set (R115). -/
  | flagBits (w0 : Word)
  /-- Not the 32 bytes of one descriptor (R123); the fetch never gives such bytes. -/
  | wrongLength (n : Nat)
deriving DecidableEq, Repr

end Sys2Proof
end

