-- ==== Sys2Proof/Machine/State.lean ====
section
/-! DEFINITION. The state of one RLECODEC instance (10_state.md R30) as plain data, the reasons a step can
stop, and the state after power-on. -/

namespace Sys2Proof.Machine

/-- The error codes (60_exceptions.md R271); the number of each is `ErrCode.num`. -/
inductive ErrCode where
  | noError | eIllegal | eAlign | eRange | eParam | eOverlap | eCapacity | eCorrupt | eMalformed | eType
deriving DecidableEq, Repr

/-- The STATUS register's fields (10_state.md R37). -/
structure Status where
  /-- 1 while the engine is executing a chain. -/
  busy : Bool
  /-- 1 if the last chain ended at a STOP descriptor. -/
  done : Bool
  /-- 1 if the last chain ended with an error. -/
  err : Bool
  /-- ERR_CODE, the code of the last error. -/
  code : ErrCode
deriving DecidableEq, Repr

/-- The buffer memory `M` (20_memory.md R80): its size MEM_BYTES and the bytes that differ from what an
unlisted byte reads as, addresses strictly rising (`Memory.wf`). -/
structure Memory where
  size : Nat
  cells : List Host.Cell
deriving DecidableEq, Repr

/-- A HOST access or a reset of the platform, the transitions of 70_reset_and_hazards.md R311 that are not
ENGINE steps. Widths are in bytes. -/
inductive HostAct where
  /-- Read the register at an offset (10_state.md R31). -/
  | regRead (off : BitVec 12) (width : Nat)
  /-- Write the register at an offset (10_state.md R31). -/
  | regWrite (off : BitVec 12) (width : Nat) (v : Word)
  /-- Read the memory window (20_memory.md R86). -/
  | memRead (a : Word) (width : Nat)
  /-- Write the memory window (20_memory.md R86). -/
  | memWrite (a : Word) (width : Nat) (v : Word)
  /-- A hardware reset that is not power-on (70_reset_and_hazards.md R301). -/
  | hardReset
  /-- Power-on with the memory contents M0 (70_reset_and_hazards.md R301, 93_implementation_defined.md I3). -/
  | powerOn (m0 : List Host.Cell)
deriving DecidableEq, Repr

/-- Whose turn it is: the interleaving that the spec leaves open (20_memory.md R94, log 4). -/
inductive Turn where
  | engine
  | host (act : HostAct)
deriving DecidableEq, Repr

/-- The machine's state (10_state.md R30); INVENTORY.md lists every field with its rule. -/
structure State where
  /-- The buffer memory `M` (R30 item 1). -/
  mem : Memory
  /-- STATUS (R37). -/
  status : Status
  /-- DESC_PC (R39). -/
  pc : Word
  /-- ERR_PC (R40). -/
  errPc : Word
  /-- ERR_INFO (R41). -/
  errInfo : Word
  /-- IRQ_STATUS[2:0]: DONE, ERR, DESC (R42). -/
  irqStatus : BitVec 3
  /-- IRQ_ENABLE[2:0] (R43). -/
  irqEnable : BitVec 3
  /-- RES0..RES3 (R45). -/
  res : Vector Word 4
  /-- F0..F31 (R46). -/
  f : Vector Word 32
  /-- The MODEL's own: the turns still to be taken, oldest first; none left means the ENGINE's (log 4). -/
  turns : List Turn
  /-- The MODEL's own: the data the last HOST read returned (log 7). -/
  hostData : Word
  /-- The MODEL's own: how often unspecified bytes have been produced (log 3). -/
  freeCount : Nat
deriving DecidableEq, Repr

/-- Why the machine stops. No descriptor raises one: every error of the spec is an error entry, a next
state (60_exceptions.md R274). -/
inductive Fault where
  /-- A HOST memory-window access while BUSY = 1, which would race with the chain. Raised by a HOST turn
  (20_memory.md R90, 70_reset_and_hazards.md R309, R312: the model has no such step). Safe (log 6). -/
  | hostRace
deriving DecidableEq, Repr

/-- Why the model has no step. -/
inductive Refusal where
  /-- An instruction with no meaning yet, raised by an arm of `exec`. Safe; no arm is left. -/
  | notModelled (mnemonic : String)
  /-- A HOST register access that is not 32-bit at a multiple of 4, raised by a HOST turn
  (10_state.md R31, 70_reset_and_hazards.md R312: no rule says what happens). Safe (log 6). -/
  | hostRegisterAccess
  /-- A HOST memory-window access that is not 1, 2 or 4 bytes naturally aligned, raised by a HOST turn
  (20_memory.md R86, 70_reset_and_hazards.md R312: no rule says what happens). Safe (log 6). -/
  | hostMemoryAccess
deriving DecidableEq, Repr

/-- STATUS after reset (70_reset_and_hazards.md R300). -/
def Status.reset : Status := ⟨false, false, false, .noError⟩

/-- The machine right after power-on (70_reset_and_hazards.md R300, R301). DESIGN CHOICE: MEM_BYTES is its
reference value (log 2), `M` lists nothing (log 1), and the model's own fields are empty (logs 3, 4, 7). -/
def State.reset : State where
  mem := ⟨Config.memBytesRef, []⟩
  status := Status.reset
  pc := 0#32
  errPc := 0#32
  errInfo := 0#32
  irqStatus := 0#3
  irqEnable := 0#3
  res := Vector.replicate 4 0#32
  f := Vector.replicate 32 0#32
  turns := []
  hostData := 0#32
  freeCount := 0

end Sys2Proof.Machine
end

