-- ==== Sys2Proof/Machine/Ops.lean ====
section
/-! DEFINITION. The named operations over memory and registers: one byte and byte ranges of `M`, the field
and result registers, error entry (60_exceptions.md R274) and what follows it (START, R35), completion
(30_encoding.md R112, R113) and reset (70_reset_and_hazards.md R300 to R302). -/

namespace Sys2Proof.Machine

/-- The outcome of a step of this machine. -/
abbrev Out := Host.Outcome State Fault Refusal

/-! ### The buffer memory -/

/-- What a cell list reads at an address. -/
def cellsRead : List Host.Cell → Nat → Byte
  | [], _ => Config.unlistedByte
  | (k, v) :: rest, a => if k = a then v else cellsRead rest a

/-- Put one byte into a cell list, keeping the canonical form: a byte that an unlisted address reads as
anyway is not listed. -/
def cellsWrite : List Host.Cell → Nat → Byte → List Host.Cell
  | [], a, v => if v = Config.unlistedByte then [] else [(a, v)]
  | (k, w) :: rest, a, v =>
    if a < k then
      if v = Config.unlistedByte then (k, w) :: rest else (a, v) :: (k, w) :: rest
    else if a = k then
      if v = Config.unlistedByte then rest else (a, v) :: rest
    else (k, w) :: cellsWrite rest a v

/-- One byte of `M` (00_scope.md R11). At and above MEM_BYTES a byte reads 0, as HOST sees it
(20_memory.md R86); the ENGINE reads checked ranges only. -/
def Memory.read (m : Memory) (a : Nat) : Byte :=
  if a < m.size then cellsRead m.cells a else 0#8

/-- Write one byte of `M` (00_scope.md R11). At and above MEM_BYTES a write has no effect (20_memory.md
R86); the ENGINE writes checked ranges only. -/
def Memory.write (m : Memory) (a : Nat) (v : Byte) : Memory :=
  if a < m.size then { m with cells := cellsWrite m.cells a v } else m

/-- MemRead (00_scope.md R11): the bytes at `a, a+1, …, a+n-1`. -/
def Memory.readBytes (m : Memory) (a n : Nat) : List Byte :=
  (List.range n).map fun k => m.read (a + k)

/-- ReadUInt (00_scope.md R11). -/
def Memory.readUInt (m : Memory) (a w : Nat) (be : Bool) : Nat :=
  uintOfBytes be (m.readBytes a w)

/-- Store a list of bytes at their addresses, first to last. -/
def Memory.writeCells (m : Memory) (cs : List Host.Cell) : Memory :=
  cs.foldl (fun m c => m.write c.1 c.2) m

/-- The cells of a byte sequence stored from `a` on (MemWrite, 00_scope.md R11). -/
def cellsAt : Nat → List Byte → List Host.Cell
  | _, [] => []
  | a, b :: bs => (a, b) :: cellsAt (a + 1) bs

/-- Addresses strictly rising, each above `lo`, each below `size`, no byte listed that an unlisted address
reads as. -/
def cellsWf (size : Nat) : Nat → List Host.Cell → Bool
  | _, [] => true
  | lo, (k, v) :: rest => lo ≤ k && k < size && v != Config.unlistedByte && cellsWf size (k + 1) rest

/-- MEM_BYTES is a legal size (00_scope.md R7). -/
def sizeLegal (n : Nat) : Bool :=
  Config.memBytesMin ≤ n && n ≤ Config.memBytesMax && n % 32 == 0

/-- The memory is in its canonical form and its size is legal. -/
def Memory.wf (m : Memory) : Bool := sizeLegal m.size && cellsWf m.size 0 m.cells

/-- RangeOK (20_memory.md R82), on unbounded naturals. -/
def Memory.rangeOK (m : Memory) (a l : Nat) : Bool := a + l ≤ m.size

/-- Store cells into the state's memory. -/
def State.store (s : State) (cs : List Host.Cell) : State := { s with mem := s.mem.writeCells cs }

/-! ### Registers -/

/-- F[i] (10_state.md R46); no register is hardwired. -/
def fieldReg (f : Vector Word 32) (i : BitVec 5) : Word := f[i.toNat]'(i.isLt)

/-- F[i] <- v (10_state.md R46). -/
def setFieldReg (f : Vector Word 32) (i : BitVec 5) (v : Word) : Vector Word 32 :=
  f.set i.toNat v i.isLt

/-- RES[i] (10_state.md R45). -/
def resultReg (r : Vector Word 4) (i : BitVec 2) : Word := r[i.toNat]'(i.isLt)

/-- A data descriptor writes all four result registers, reduced mod 2^32 (10_state.md R45). -/
def State.setRes (s : State) (r0 r1 r2 r3 : Nat) : State :=
  { s with res := #v[BitVec.ofNat 32 r0, BitVec.ofNat 32 r1, BitVec.ofNat 32 r2, BitVec.ofNat 32 r3] }

/-! ### IRQ_STATUS bits (10_state.md R42) -/

/-- IRQ_STATUS.DONE. -/
def irqDone : BitVec 3 := 1#3

/-- IRQ_STATUS.ERR. -/
def irqErr : BitVec 3 := 2#3

/-- IRQ_STATUS.DESC. -/
def irqDesc : BitVec 3 := 4#3

/-- The ENGINE sets bits of IRQ_STATUS and never clears one (60_exceptions.md R280). -/
def State.latch (s : State) (bits : BitVec 3) : State := { s with irqStatus := s.irqStatus ||| bits }

/-! ### Taking an error, and what starts the engine again -/

/-- Error entry (60_exceptions.md R274), in the step that raised the error: the address of the descriptor
and the information are saved, the chain ends, DESC_PC stays, nothing else changes. -/
def State.raise (s : State) (code : ErrCode) (info : Nat) : State :=
  { s with
    errPc := s.pc
    errInfo := BitVec.ofNat 32 info
    status := ⟨false, false, true, code⟩
    irqStatus := s.irqStatus ||| irqErr }

/-- The step that raises an error is a step: error entry is its next state (60_exceptions.md R274). -/
def State.fail (s : State) (code : ErrCode) (info : Nat) : Out := .next (s.raise code info)

/-- CTRL.START (10_state.md R35). There is no return descriptor: after an error this runs the descriptor at
DESC_PC again (60_exceptions.md R277). -/
def State.start (s : State) : State :=
  if s.status.busy then s
  else
    { s with
      status := ⟨true, false, false, .noError⟩
      errPc := 0#32
      errInfo := 0#32 }

/-- Every register at its reset value, `M` unchanged: CTRL.SRESET and a hardware reset that is not power-on
(70_reset_and_hazards.md R300, R301, R302). The model's own fields stay (log 18). -/
def State.resetRegs (s : State) : State :=
  { s with
    status := Status.reset
    pc := 0#32
    errPc := 0#32
    errInfo := 0#32
    irqStatus := 0#3
    irqEnable := 0#3
    res := Vector.replicate 4 0#32
    f := Vector.replicate 32 0#32 }

/-! ### Completing a descriptor -/

/-- DESC_PC <- v. -/
def State.setPc (s : State) (v : Word) : State := { s with pc := v }

/-- DESC_PC <- (a + 32) mod 2^32 (30_encoding.md R112). -/
def State.advance (s : State) : State := { s with pc := s.pc + 32#32 }

/-- Completion: IRQ_STATUS.DESC is set when W0.IRQ = 1 (30_encoding.md R113). -/
def State.complete (s : State) (irq : Bool) : State := s.latch (if irq then irqDesc else 0#3)

/-- A data descriptor completes: RES0..RES3, DESC_PC + 32, IRQ (10_state.md R45, 30_encoding.md R112, R113). -/
def State.finish (s : State) (irq : Bool) (r0 r1 r2 r3 : Nat) : Out :=
  .next (((s.setRes r0 r1 r2 r3).advance).complete irq)

end Sys2Proof.Machine
end

