-- ==== Sys2Proof/Machine/Operands.lean ====
section
/-! DEFINITION. Operands: ranges, hulls and overlap (20_memory.md R82 to R84), the checks every data
descriptor with a source and a destination makes, and the parameter words of the RLE and pack
descriptors. -/

namespace Sys2Proof.Machine

/-- A range of `M` (20_memory.md R82). -/
structure Span where
  start : Nat
  len : Nat
deriving DecidableEq, Repr

/-- Hull(a, n, s, w) of a strided sequence (20_memory.md R83). -/
def hull (a n s w : Nat) : Span := if n = 0 then ⟨a, 0⟩ else ⟨a, (n - 1) * s + w⟩

/-- Two ranges overlap (20_memory.md R84). -/
def overlap (x y : Span) : Bool :=
  0 < x.len && 0 < y.len && x.start < y.start + y.len && y.start < x.start + x.len

/-- The address lies in the range. -/
def Span.has (r : Span) (a : Nat) : Bool := r.start ≤ a && a < r.start + r.len

/-- The range lies inside `M` (20_memory.md R82). -/
def State.spanOK (s : State) (r : Span) : Bool := s.mem.rangeOK r.start r.len

/-- The checks in their common order: source range, destination range, overlap (60_exceptions.md R273);
each failure raises with the start address that R272 names; then the descriptor goes on as `k` says. -/
def State.checked (s : State) (src dst : Span) (k : State → Out) : Out :=
  if !s.spanOK src then s.fail .eRange src.start
  else if !s.spanOK dst then s.fail .eRange dst.start
  else if overlap src dst then s.fail .eOverlap dst.start
  else k s

/-- A word field that means a default when it is 0 (30_encoding.md R122). -/
def orDefault (v dflt : Nat) : Nat := if v = 0 then dflt else v

/-! ### RLE encoder parameters (41_rle.md R173) -/

/-- `(Lmax, R)` from W5; `none` is E_PARAM(W5). -/
def encParams (p0 : Word) : Option (Nat × Nat) :=
  let maxrun := p0.toNat % 256
  let rmin := p0.toNat / 256 % 256
  if 128 < maxrun then none
  else if rmin = 2 ∨ rmin = 3 then some (orDefault maxrun 128, rmin)
  else none

/-! ### BITCONV parameters (43_pack.md R233) -/

/-- The source depth N = W5[5:0]. -/
def convN (p0 : Word) : Nat := p0.toNat % 64

/-- The destination depth M = W5[13:8]. -/
def convM (p0 : Word) : Nat := p0.toNat / 2 ^ 8 % 64

/-- The source shift S = W5[20:16]. -/
def convS (p0 : Word) : Nat := p0.toNat / 2 ^ 16 % 32

/-- The source stride, SI = W6[15:0], 0 meaning Wi. -/
def convSi (p1 : Word) (wi : Nat) : Nat := orDefault (p1.toNat % 2 ^ 16) wi

/-- The destination stride, SO = W6[31:16], 0 meaning Wo. -/
def convSo (p1 : Word) (wo : Nat) : Nat := orDefault (p1.toNat / 2 ^ 16) wo

/-- The depths and the shift fit their containers; otherwise E_TYPE(W5). -/
def convTypeOK (wi wo : Nat) (p0 : Word) : Bool :=
  1 ≤ convN p0 && convN p0 ≤ 32 && 1 ≤ convM p0 && convM p0 ≤ 32 &&
    convS p0 + convN p0 ≤ 8 * wi && convM p0 ≤ 8 * wo

/-! ### REORDER's map (43_pack.md R235) -/

/-- m[k] = W5[2k+1:2k]. -/
def mapEntry (p0 : Word) (k : Nat) : Nat := p0.toNat / 4 ^ k % 4

/-- Every map entry in use names a channel; otherwise E_PARAM(W5). -/
def mapOK (p0 : Word) (c : Nat) : Bool := (List.range c).all fun k => mapEntry p0 k < c

/-! ### Plane pitch (43_pack.md R237, R238) -/

/-- The hull of the planes, gaps between planes included. -/
def planesSpan (a n w c pp : Nat) : Span := if n = 0 then ⟨a, 0⟩ else ⟨a, (c - 1) * pp + n * w⟩

/-! ### Rows of a pitched image (43_pack.md R239, R241, R242) -/

/-- The hull of `r` rows of `len` bytes at a pitch. -/
def rowsSpan (a r pitch len : Nat) : Span := if r = 0 then ⟨a, 0⟩ else ⟨a, (r - 1) * pitch + len⟩

/-- The sub-byte element width `b = 2^BC` (43_pack.md R240). -/
def subBits (bc : BitVec 2) : Nat := 2 ^ bc.toNat

/-- RB, the bytes a packed row needs (43_pack.md R240). -/
def packedRow (n b : Nat) : Nat := (n * b + 7) / 8

/-- The default packed pitch, a row padded to a multiple of 4 bytes (43_pack.md R240). -/
def packedPitch (n b : Nat) : Nat := (n * b + 31) / 32 * 4

/-- The shift of element `j` in its byte (43_pack.md R240). -/
def subShift (b : Nat) (lsbf : Bool) (j : Nat) : Nat :=
  if lsbf then j * b % 8 else 8 - b - j * b % 8

end Sys2Proof.Machine
end

