-- ==== Sys2Proof/Machine/Flags.lean ====
section
/-! DEFINITION. STATUS as a word, the interrupt output, the branch condition, and the document's error
classes. RLECODEC has no condition codes (10_state.md R49). -/

namespace Sys2Proof.Machine

/-- The number of an error code (60_exceptions.md R271). -/
def ErrCode.num : ErrCode → Nat
  | .noError => 0
  | .eIllegal => 1
  | .eAlign => 2
  | .eRange => 3
  | .eParam => 4
  | .eOverlap => 5
  | .eCapacity => 6
  | .eCorrupt => 7
  | .eMalformed => 8
  | .eType => 9

/-- STATUS as HOST reads it: BUSY bit 0, DONE bit 1, ERR bit 2, ERR_CODE bits 15..8, the rest 0
(10_state.md R37). -/
def Status.word (st : Status) : Word :=
  BitVec.ofNat 32 (st.busy.toNat + 2 * st.done.toNat + 4 * st.err.toNat + 256 * st.code.num)

/-- The interrupt output, a level: (IRQ_STATUS & IRQ_ENABLE)[2:0] != 0 (10_state.md R43). -/
def State.irq (s : State) : Bool := s.irqStatus &&& s.irqEnable != 0#3

/-- A HOST write of IRQ_STATUS clears the bits written as 1 (10_state.md R42). -/
def clearWritten (irqs : BitVec 3) (v : Word) : BitVec 3 := irqs &&& ~~~(v.setWidth 3)

/-- BRF's comparison, unsigned (40_control_move.md R144). -/
def condHolds : Cond → Word → Word → Bool
  | .eq, x, y => x == y
  | .ne, x, y => x != y
  | .ltu, x, y => x.ult y
  | .geu, x, y => y.ule x

/-- The document's error classes (60_exceptions.md R276). -/
inductive ErrorClass where
  | malformedHeader | corruptData | inputRange | typeMismatch | sizeQuery | contractViolation
deriving DecidableEq, Repr

/-- Which class of the document's taxonomy a code stands for (60_exceptions.md R276). -/
def ErrCode.docClass : ErrCode → Option ErrorClass
  | .noError => none
  | .eMalformed => some .malformedHeader
  | .eCorrupt => some .corruptData
  | .eRange => some .inputRange
  | .eParam => some .inputRange
  | .eType => some .typeMismatch
  | .eCapacity => some .sizeQuery
  | .eIllegal => some .contractViolation
  | .eAlign => some .contractViolation
  | .eOverlap => some .contractViolation

end Sys2Proof.Machine
end

