-- ==== Sys2Proof/Machine/Control.lean ====
section
/-! DEFINITION. The control descriptors (40_control_move.md R140 to R145): they touch no memory and leave
RES0..RES3. -/

namespace Sys2Proof.Machine

/-- NOP (R141). -/
def execNop (irq : Bool) (s : State) : Out := .next (s.advance.complete irq)

/-- STOP (R142): the normal end of a chain. -/
def execStop (irq : Bool) (s : State) : Out :=
  .next ((({ s.advance with status := { s.status with busy := false, done := true } }).latch irqDone).complete irq)

/-- JUMP (R143). A bad target raises at the next fetch. -/
def execJump (irq : Bool) (target : Word) (s : State) : Out := .next ((s.setPc target).complete irq)

/-- The register BRF compares: RES[A] or F[A] (R144). -/
def branchOperand (s : State) (rsel : Bool) (a : BitVec 5) : Word :=
  if rsel then resultReg s.res (a.setWidth 2) else fieldReg s.f a

/-- BRF (R144). -/
def execBrf (irq rsel : Bool) (cond : Cond) (a : BitVec 5) (target imm : Word) (s : State) : Out :=
  if rsel && 3 < a.toNat then s.fail .eParam a.toNat
  else
    .next ((if condHolds cond (branchOperand s rsel a) imm then s.setPc target else s.advance).complete irq)

/-- SETF (R145). -/
def execSetf (irq : Bool) (a : BitVec 5) (imm : Word) (s : State) : Out :=
  .next ((({ s with f := setFieldReg s.f a imm }).advance).complete irq)

end Sys2Proof.Machine
end

