-- ==== Sys2Proof/Machine/Header.lean ====
section
/-! DEFINITION. Layout tables (42_header.md R200 to R204), header parse and serialize (R205, R207) and the
chunk walk (R208, R209). -/

namespace Sys2Proof.Machine

/-! ### Layout table entries -/

/-- The words of a layout-table entry that are read; E3 is ignored (R200). -/
structure Entry where
  e0 : Word
  /-- E1, check operand A. -/
  a : Word
  /-- E2, check operand B. -/
  b : Word
deriving DecidableEq, Repr

/-- Entry `j` of the table at `tbl`, little-endian words (R200). -/
def entryAt (m : Memory) (tbl j : Nat) : Entry where
  e0 := BitVec.ofNat 32 (m.readUInt (tbl + 16 * j) 4 false)
  a := BitVec.ofNat 32 (m.readUInt (tbl + 16 * j + 4) 4 false)
  b := BitVec.ofNat 32 (m.readUInt (tbl + 16 * j + 8) 4 false)

/-- OFF = E0[15:0] (R201). -/
def Entry.off (e : Entry) : Nat := e.e0.toNat % 2 ^ 16

/-- WC = E0[17:16] (R201). -/
def Entry.wc (e : Entry) : Nat := e.e0.toNat / 2 ^ 16 % 4

/-- The field width: 1, 2 or 4 bytes for WC 0, 1, 2; WC = 3 is refused by `Entry.ok` (R201). -/
def Entry.width (e : Entry) : Nat := 2 ^ e.wc

/-- BE = E0[18] (R201). -/
def Entry.be (e : Entry) : Bool := e.e0.getLsbD 18

/-- SIGNED = E0[19] (R201). -/
def Entry.signed (e : Entry) : Bool := e.e0.getLsbD 19

/-- ZMAP = E0[20] (R201). -/
def Entry.zmap (e : Entry) : Bool := e.e0.getLsbD 20

/-- IDX = E0[25:21] (R201). -/
def Entry.idx (e : Entry) : BitVec 5 := e.e0.extractLsb' 21 5

/-- CHK = E0[28:26] (R201). -/
def Entry.chk (e : Entry) : Nat := e.e0.toNat / 2 ^ 26 % 8

/-- RSV = E0[31:29] (R201). -/
def Entry.rsv (e : Entry) : Nat := e.e0.toNat / 2 ^ 29

/-- EntryOK (R202). -/
def Entry.ok (e : Entry) : Bool :=
  e.rsv == 0 && e.wc != 3 && decide (e.chk ≤ 5) && !(e.signed && e.zmap) && !(e.zmap && e.wc == 2) &&
    (!(e.chk == 4 || e.chk == 5) || decide (e.a.toNat ≤ 31))

/-- LoadValue from the raw field (R203): ZMAP, then sign extension, then the plain value. -/
def Entry.value (e : Entry) (raw : Nat) : Word :=
  if e.zmap && raw == 0 then BitVec.ofNat 32 (2 ^ (8 * e.width))
  else if e.signed then (BitVec.ofNat (8 * e.width) raw).signExtend 32
  else BitVec.ofNat 32 raw

/-- LoadValue(hdr, j) (R203). -/
def loadValue (m : Memory) (hdr : Nat) (e : Entry) : Word :=
  e.value (m.readUInt (hdr + e.off) e.width e.be)

/-- Interp(x): signed or unsigned as the entry says (R203). -/
def interp (signed : Bool) (x : Word) : Int := if signed then x.toInt else (x.toNat : Int)

/-- Check(j, v), with F already written (R204). -/
def Entry.check (e : Entry) (v : Word) (f : Vector Word 32) : Bool :=
  match e.chk with
  | 0 => true
  | 1 => v == e.a
  | 2 => decide (interp e.signed e.a ≤ interp e.signed v ∧ interp e.signed v ≤ interp e.signed e.b)
  | 3 => decide (v.toNat < 64) && (e.b.toNat * 2 ^ 32 + e.a.toNat).testBit v.toNat
  | 4 => decide (interp e.signed v ≤ interp e.signed (fieldReg f (e.a.setWidth 5)))
  | 5 => decide (interp e.signed (fieldReg f (e.a.setWidth 5)) ≤ interp e.signed v)
  | _ => false

/-! ### HDR_LOAD and HDR_STORE -/

/-- Pass 1: the first entry that is invalid (E_PARAM) or whose field ends past the header (`short`), in
order, with its index (R205, R207, 60_exceptions.md R273). -/
def firstBadEntry (m : Memory) (tbl hlen : Nat) (short : ErrCode) : List Nat → Option (ErrCode × Nat)
  | [] => none
  | j :: js =>
    if !(entryAt m tbl j).ok then some (.eParam, j)
    else if hlen < (entryAt m tbl j).off + (entryAt m tbl j).width then some (short, j)
    else firstBadEntry m tbl hlen short js

/-- Pass 2 of HDR_LOAD: load, write F, check, in order; a failing check ends it with its index, and the
writes made so far stay (R205, 60_exceptions.md R275). -/
def loadEntries (m : Memory) (hdr tbl : Nat) : List Nat → Vector Word 32 → Vector Word 32 × Option Nat
  | [], f => (f, none)
  | j :: js, f =>
    let e := entryAt m tbl j
    let v := loadValue m hdr e
    let f' := setFieldReg f e.idx v
    if e.check v f' then loadEntries m hdr tbl js f' else (f', some j)

/-- The field registers after a header has been loaded (R205). -/
def State.setFields (s : State) (f : Vector Word 32) : State := { s with f := f }

/-- HDR_LOAD (R205). -/
def execHdrLoad (irq : Bool) (hdr hlen tbl k : Word) (s : State) : Out :=
  if !s.mem.rangeOK tbl.toNat (16 * k.toNat) then s.fail .eRange tbl.toNat
  else if !s.mem.rangeOK hdr.toNat hlen.toNat then s.fail .eRange hdr.toNat
  else
    match firstBadEntry s.mem tbl.toNat hlen.toNat .eMalformed (List.range k.toNat) with
    | some (code, j) => s.fail code j
    | none =>
      match loadEntries s.mem hdr.toNat tbl.toNat (List.range k.toNat) s.f with
      | (f, some j) => (s.setFields f).fail .eMalformed j
      | (f, none) => (s.setFields f).finish irq k.toNat 0 0 0

/-- The cells HDR_STORE stores, entry by entry; a later entry's bytes win (R207). -/
def headerCells (m : Memory) (f : Vector Word 32) (hdr tbl k : Nat) : List Host.Cell :=
  (List.range k).flatMap fun j =>
    let e := entryAt m tbl j
    cellsAt (hdr + e.off) (uintBytes e.width e.be (fieldReg f e.idx).toNat)

/-- HDR_STORE (R207): the table is its source, the header its destination. -/
def execHdrStore (irq : Bool) (hdr hlen tbl k : Word) (s : State) : Out :=
  s.checked ⟨tbl.toNat, 16 * k.toNat⟩ ⟨hdr.toNat, hlen.toNat⟩ fun s =>
    match firstBadEntry s.mem tbl.toNat hlen.toNat .eParam (List.range k.toNat) with
    | some (code, j) => s.fail code j
    | none => (s.store (headerCells s.mem s.f hdr.toNat tbl.toNat k.toNat)).finish irq k.toNat 0 0 0

/-! ### CHUNK_FIND -/

/-- How a chunk walk ends (R209). -/
inductive ChunkResult where
  | found (payload len next tag : Nat)
  | overrun (chunk : Nat)
  | missing
deriving DecidableEq, Repr

/-- The address of the next chunk: the payload padded to the alignment, clamped to the region's end (R209). -/
def nextChunk (c len al stop : Nat) : Nat := min (c + 8 + (len + al - 1) / al * al) stop

/-- The walk (R209). Each chunk takes at least 8 bytes, so `fuel = rlen / 8` is enough (log 12). -/
def chunkLoop (m : Memory) (al stop want : Nat) : (fuel : Nat) → (c : Nat) → ChunkResult
  | 0, _ => .missing
  | fuel + 1, c =>
    if stop - c < 8 then .missing
    else
      let tag := m.readUInt c 4 true
      let len := m.readUInt (c + 4) 4 true
      if stop - c - 8 < len then .overrun c
      else if want = 0 ∨ tag = want then .found (c + 8) len (nextChunk c len al stop) tag
      else chunkLoop m al stop want fuel (nextChunk c len al stop)

/-- The walk of a region of `rlen` bytes (R209). -/
def chunkFind (m : Memory) (al region rlen want : Nat) : ChunkResult :=
  chunkLoop m al (region + rlen) want (rlen / 8) region

/-- CHUNK_FIND (R208, R209). -/
def execChunkFind (irq : Bool) (g : BitVec 2) (opt : Bool) (region rlen tag : Word) (s : State) : Out :=
  if !s.mem.rangeOK region.toNat rlen.toNat then s.fail .eRange region.toNat
  else
    match chunkFind s.mem (2 ^ g.toNat) region.toNat rlen.toNat tag.toNat with
    | .found payload len next t => s.finish irq payload len next t
    | .overrun c => s.fail .eCorrupt c
    | .missing =>
      if opt then s.finish irq 0 0 (region.toNat + rlen.toNat) 0 else s.fail .eMalformed 0xFFFFFFFF

end Sys2Proof.Machine
end

