-- ==== Sys2Proof/Machine/Move.lean ====
section
/-! DEFINITION. The raw moves (40_control_move.md R146, R147). -/

namespace Sys2Proof.Machine

/-- COPY (R146). -/
def execCopy (irq : Bool) (src len dst : Word) (s : State) : Out :=
  s.checked ⟨src.toNat, len.toNat⟩ ⟨dst.toNat, len.toNat⟩ fun s =>
    (s.store (cellsAt dst.toNat (s.mem.readBytes src.toNat len.toNat))).finish irq len.toNat 0 0 0

/-- FILL (R147). -/
def execFill (irq : Bool) (dst len : Word) (value : Byte) (s : State) : Out :=
  if !s.mem.rangeOK dst.toNat len.toNat then s.fail .eRange dst.toNat
  else (s.store (cellsAt dst.toNat (List.replicate len.toNat value))).finish irq len.toNat 0 0 0

end Sys2Proof.Machine
end

