-- ==== Sys2Proof/WellFormed.lean ====
section
/-! DEFINITION. Which terms of `Instr` an encoding exists for: the byte widths and channel counts lie
in 1..4, the range a 2-bit field stored minus one can hold (00_scope.md R8, 30_encoding.md R122). -/

namespace Sys2Proof

/-- A count that a 2-bit field stored minus one can hold (30_encoding.md R122). -/
def countOK (w : Nat) : Bool := 1 ≤ w && w ≤ 4

/-- Every width and channel count of the descriptor is one its FLAGS can hold. -/
def Instr.wf : Instr → Bool
  | .nop .. => true
  | .stop .. => true
  | .jump .. => true
  | .brf .. => true
  | .setf .. => true
  | .copy .. => true
  | .fill .. => true
  | .rleDec .. => true
  | .rleEnc .. => true
  | .rleDecp _ b .. => countOK b
  | .rleEncp _ b .. => countOK b
  | .bitconv _ wi wo .. => countOK wi && countOK wo
  | .reorder _ w c .. => countOK w && countOK c
  | .deinterleave _ w c .. => countOK w && countOK c
  | .interleave _ w c .. => countOK w && countOK c
  | .rowflip .. => true
  | .unpacksub .. => true
  | .packsub .. => true
  | .hdrLoad .. => true
  | .hdrStore .. => true
  | .chunkFind .. => true

end Sys2Proof
end

