-- ==== Sys2Proof/Decode.lean ====
section
/-! DEFINITION. Decoding a descriptor (30_encoding.md R110 to R120) and, after it, the encoder written
from the same tables. Words and bits an opcode does not use are ignored (R116, log 11). -/

namespace Sys2Proof

/-! ### The opcode map and the flag masks -/

/-- The OP value of an opcode (30_encoding.md R117). -/
def Opcode.code : Opcode → BitVec 8
  | .nop => 0x00#8
  | .stop => 0x01#8
  | .jump => 0x02#8
  | .brf => 0x03#8
  | .setf => 0x04#8
  | .copy => 0x08#8
  | .fill => 0x09#8
  | .rleDec => 0x10#8
  | .rleEnc => 0x11#8
  | .rleDecp => 0x12#8
  | .rleEncp => 0x13#8
  | .bitconv => 0x20#8
  | .reorder => 0x21#8
  | .deinterleave => 0x22#8
  | .interleave => 0x23#8
  | .rowflip => 0x24#8
  | .unpacksub => 0x25#8
  | .packsub => 0x26#8
  | .hdrLoad => 0x30#8
  | .hdrStore => 0x31#8
  | .chunkFind => 0x32#8

/-- The opcode an OP value names; `none` for every value outside the opcode map (R117, R118). -/
def opcodeOf (op : BitVec 8) : Option Opcode :=
  match op.toNat with
  | 0x00 => some .nop
  | 0x01 => some .stop
  | 0x02 => some .jump
  | 0x03 => some .brf
  | 0x04 => some .setf
  | 0x08 => some .copy
  | 0x09 => some .fill
  | 0x10 => some .rleDec
  | 0x11 => some .rleEnc
  | 0x12 => some .rleDecp
  | 0x13 => some .rleEncp
  | 0x20 => some .bitconv
  | 0x21 => some .reorder
  | 0x22 => some .deinterleave
  | 0x23 => some .interleave
  | 0x24 => some .rowflip
  | 0x25 => some .unpacksub
  | 0x26 => some .packsub
  | 0x30 => some .hdrLoad
  | 0x31 => some .hdrStore
  | 0x32 => some .chunkFind
  | _ => none

/-- FLAGMASK(OP), the FLAGS bits the opcode defines (R120). -/
def Opcode.flagMask : Opcode → BitVec 16
  | .brf => 0x00FF#16
  | .setf => 0x001F#16
  | .rleEnc => 0x0010#16
  | .rleDecp => 0x000F#16
  | .rleEncp => 0x001F#16
  | .bitconv => 0x00FF#16
  | .reorder => 0x000F#16
  | .deinterleave => 0x000F#16
  | .interleave => 0x000F#16
  | .unpacksub => 0x0007#16
  | .packsub => 0x0007#16
  | .chunkFind => 0x0007#16
  | .nop => 0#16
  | .stop => 0#16
  | .jump => 0#16
  | .copy => 0#16
  | .fill => 0#16
  | .rleDec => 0#16
  | .rowflip => 0#16
  | .hdrLoad => 0#16
  | .hdrStore => 0#16

/-! ### Fields of the control word (R110) -/

/-- W0[7:0], the OP field. -/
def Desc.op (d : Desc) : BitVec 8 := d.w0.extractLsb' 0 8

/-- W0[8], the IRQ field. -/
def Desc.irq (d : Desc) : Bool := d.w0.getLsbD 8

/-- W0[15:9], the RSV field. -/
def Desc.rsv (d : Desc) : BitVec 7 := d.w0.extractLsb' 9 7

/-- W0[31:16], the FLAGS field. -/
def Desc.flags (d : Desc) : BitVec 16 := d.w0.extractLsb' 16 16

/-- A count stored minus one in two FLAGS bits from bit `lo` (R122). -/
def flagCount (fl : BitVec 16) (lo : Nat) : Nat := (fl.extractLsb' lo 2).toNat + 1

/-- FLAGS.COND (R120): 0 EQ, 1 NE, 2 LTU, 3 GEU. -/
def condOf (b : BitVec 2) : Cond :=
  match b.toNat with
  | 0 => .eq
  | 1 => .ne
  | 2 => .ltu
  | _ => .geu

/-- The operands of a descriptor whose opcode is known: FLAGS as R120, words as R119. -/
def operandsOf (d : Desc) : Opcode → Instr
  | .nop => .nop d.irq
  | .stop => .stop d.irq
  | .jump => .jump d.irq d.w1
  | .brf =>
    .brf d.irq (d.flags.getLsbD 5) (condOf (d.flags.extractLsb' 6 2)) (d.flags.extractLsb' 0 5) d.w1 d.w5
  | .setf => .setf d.irq (d.flags.extractLsb' 0 5) d.w5
  | .copy => .copy d.irq d.w1 d.w2 d.w3
  | .fill => .fill d.irq d.w3 d.w4 (d.w5.extractLsb' 0 8)
  | .rleDec => .rleDec d.irq d.w1 d.w2 d.w3 d.w4
  | .rleEnc => .rleEnc d.irq (d.flags.getLsbD 4) d.w1 d.w2 d.w3 d.w4 d.w5
  | .rleDecp =>
    .rleDecp d.irq (flagCount d.flags 0) (d.flags.getLsbD 2) (d.flags.getLsbD 3) d.w1 d.w2 d.w3 d.w4
  | .rleEncp =>
    .rleEncp d.irq (flagCount d.flags 0) (d.flags.getLsbD 2) (d.flags.getLsbD 3) (d.flags.getLsbD 4)
      d.w1 d.w2 d.w3 d.w4 d.w5
  | .bitconv =>
    .bitconv d.irq (flagCount d.flags 0) (flagCount d.flags 2) (d.flags.getLsbD 4) (d.flags.getLsbD 5)
      (d.flags.getLsbD 6) (d.flags.getLsbD 7) d.w1 d.w2 d.w3 d.w5 d.w6
  | .reorder => .reorder d.irq (flagCount d.flags 0) (flagCount d.flags 2) d.w1 d.w2 d.w3 d.w5
  | .deinterleave => .deinterleave d.irq (flagCount d.flags 0) (flagCount d.flags 2) d.w1 d.w2 d.w3 d.w5
  | .interleave => .interleave d.irq (flagCount d.flags 0) (flagCount d.flags 2) d.w1 d.w2 d.w3 d.w5
  | .rowflip => .rowflip d.irq d.w3 d.w4 d.w5 d.w6
  | .unpacksub => .unpacksub d.irq (d.flags.extractLsb' 0 2) (d.flags.getLsbD 2) d.w1 d.w2 d.w3 d.w4 d.w5 d.w6
  | .packsub => .packsub d.irq (d.flags.extractLsb' 0 2) (d.flags.getLsbD 2) d.w1 d.w2 d.w3 d.w4 d.w5 d.w6
  | .hdrLoad => .hdrLoad d.irq d.w1 d.w2 d.w5 d.w6
  | .hdrStore => .hdrStore d.irq d.w3 d.w4 d.w5 d.w6
  | .chunkFind => .chunkFind d.irq (d.flags.extractLsb' 0 2) (d.flags.getLsbD 2) d.w1 d.w2 d.w5

/-! ### The decoder -/

/-- Decode the eight words: undefined OP, then reserved bits, then FLAGS bits (R111, R273 item 2). -/
def decode (d : Desc) : Except DecodeError Instr :=
  match opcodeOf d.op with
  | none => .error (.undefinedOp d.w0)
  | some op =>
    if d.rsv ≠ 0#7 then .error (.reservedBits d.w0)
    else if d.flags &&& ~~~op.flagMask ≠ 0#16 then .error (.flagBits d.w0)
    else .ok (operandsOf d op)

/-- The word of four bytes at an offset, least significant byte first (R110). -/
def wordAt (bs : List Byte) (off : Nat) : Word := BitVec.ofNat 32 (leNat ((bs.drop off).take 4))

/-- The eight words of 32 bytes (R110). -/
def descOfBytes (bs : List Byte) : Desc where
  w0 := wordAt bs 0
  w1 := wordAt bs 4
  w2 := wordAt bs 8
  w3 := wordAt bs 12
  w4 := wordAt bs 16
  w5 := wordAt bs 20
  w6 := wordAt bs 24
  w7 := wordAt bs 28

/-- Decode any byte sequence; only 32 bytes are a descriptor (R123). -/
def decodeBytes (bs : List Byte) : Except DecodeError Instr :=
  if bs.length = 32 then decode (descOfBytes bs) else .error (.wrongLength bs.length)

/-- What ERR_INFO records for a rejected descriptor: W0 (60_exceptions.md R272). -/
def DecodeError.info : DecodeError → Nat
  | .undefinedOp w0 => w0.toNat
  | .reservedBits w0 => w0.toNat
  | .flagBits w0 => w0.toNat
  | .wrongLength _ => 0

/-- The bytes of an instruction numbered as spec/opcode_table.json numbers bits: W0 first, each word
little-endian, every bit at or above `nbits` zero. -/
def tableBytes (nbits w : Nat) : List Byte := leBytes 32 (w % 2 ^ nbits)

/-- The instruction the decoder reads from a word of the opcode table. -/
def decodeTableWord (nbits w : Nat) : Option Instr :=
  match decodeBytes (tableBytes nbits w) with
  | .ok i => some i
  | .error _ => none

/-! ### The encoder (R110, R119, R120, R122) -/

/-- The control word: OP, IRQ, RSV = 0, FLAGS (R110). -/
def encodeW0 (op : Opcode) (irq : Bool) (fl : BitVec 16) : Word :=
  fl ++ (0#7 ++ (BitVec.ofBool irq ++ op.code))

/-- A count stored minus one in two bits (R122). -/
def countBits (w : Nat) : BitVec 2 := BitVec.ofNat 2 (w - 1)

/-- FLAGS.COND (R120). -/
def Cond.bits : Cond → BitVec 2
  | .eq => 0#2
  | .ne => 1#2
  | .ltu => 2#2
  | .geu => 3#2

/-- BRF's FLAGS: A in 4..0, RSEL in 5, COND in 7..6. -/
def flagsBrf (rsel : Bool) (cond : Cond) (a : BitVec 5) : BitVec 16 :=
  0#8 ++ (cond.bits ++ (BitVec.ofBool rsel ++ a))

/-- SETF's FLAGS: A in 4..0. -/
def flagsSetf (a : BitVec 5) : BitVec 16 := 0#11 ++ a

/-- RLE_ENC's FLAGS: FB in 4. -/
def flagsRleEnc (fb : Bool) : BitVec 16 := 0#11 ++ (BitVec.ofBool fb ++ 0#4)

/-- RLE_DECP's and RLE_ENCP's FLAGS: BC in 1..0, DBE or SBE in 2, PLSB in 3, FB in 4. -/
def flagsPlanes (b : Nat) (be plsb fb : Bool) : BitVec 16 :=
  0#11 ++ (BitVec.ofBool fb ++ (BitVec.ofBool plsb ++ (BitVec.ofBool be ++ countBits b)))

/-- BITCONV's FLAGS: WI in 1..0, WO in 3..2, SBE 4, DBE 5, REP 6, INV 7. -/
def flagsBitconv (wi wo : Nat) (sbe dbe rep inv : Bool) : BitVec 16 :=
  0#8 ++ (BitVec.ofBool inv ++ (BitVec.ofBool rep ++ (BitVec.ofBool dbe ++ (BitVec.ofBool sbe ++
    (countBits wo ++ countBits wi)))))

/-- REORDER's, DEINTERLEAVE's and INTERLEAVE's FLAGS: WC in 1..0, CC in 3..2. -/
def flagsChannels (w c : Nat) : BitVec 16 := 0#12 ++ (countBits c ++ countBits w)

/-- FLAGS of UNPACKSUB, PACKSUB (BC, LSBF) and CHUNK_FIND (G, OPT): two bits in 1..0 and one in 2. -/
def flagsTwoOne (x : BitVec 2) (y : Bool) : BitVec 16 := 0#13 ++ (BitVec.ofBool y ++ x)

/-- The eight words of a well-formed descriptor; unused words and bits are written 0. -/
def encode : Instr → Desc
  | .nop irq => ⟨encodeW0 .nop irq 0#16, 0, 0, 0, 0, 0, 0, 0⟩
  | .stop irq => ⟨encodeW0 .stop irq 0#16, 0, 0, 0, 0, 0, 0, 0⟩
  | .jump irq target => ⟨encodeW0 .jump irq 0#16, target, 0, 0, 0, 0, 0, 0⟩
  | .brf irq rsel cond a target imm => ⟨encodeW0 .brf irq (flagsBrf rsel cond a), target, 0, 0, 0, imm, 0, 0⟩
  | .setf irq a imm => ⟨encodeW0 .setf irq (flagsSetf a), 0, 0, 0, 0, imm, 0, 0⟩
  | .copy irq src len dst => ⟨encodeW0 .copy irq 0#16, src, len, dst, 0, 0, 0, 0⟩
  | .fill irq dst len value => ⟨encodeW0 .fill irq 0#16, 0, 0, dst, len, value.setWidth 32, 0, 0⟩
  | .rleDec irq src slen dst len => ⟨encodeW0 .rleDec irq 0#16, src, slen, dst, len, 0, 0, 0⟩
  | .rleEnc irq fb src n dst cap p0 => ⟨encodeW0 .rleEnc irq (flagsRleEnc fb), src, n, dst, cap, p0, 0, 0⟩
  | .rleDecp irq b dbe plsb src slen dst n =>
    ⟨encodeW0 .rleDecp irq (flagsPlanes b dbe plsb false), src, slen, dst, n, 0, 0, 0⟩
  | .rleEncp irq b sbe plsb fb src n dst cap p0 =>
    ⟨encodeW0 .rleEncp irq (flagsPlanes b sbe plsb fb), src, n, dst, cap, p0, 0, 0⟩
  | .bitconv irq wi wo sbe dbe rep inv src n dst p0 p1 =>
    ⟨encodeW0 .bitconv irq (flagsBitconv wi wo sbe dbe rep inv), src, n, dst, 0, p0, p1, 0⟩
  | .reorder irq w c src n dst p0 => ⟨encodeW0 .reorder irq (flagsChannels w c), src, n, dst, 0, p0, 0, 0⟩
  | .deinterleave irq w c src n dst pp =>
    ⟨encodeW0 .deinterleave irq (flagsChannels w c), src, n, dst, 0, pp, 0, 0⟩
  | .interleave irq w c src n dst pp => ⟨encodeW0 .interleave irq (flagsChannels w c), src, n, dst, 0, pp, 0, 0⟩
  | .rowflip irq base rows len pitch => ⟨encodeW0 .rowflip irq 0#16, 0, 0, base, rows, len, pitch, 0⟩
  | .unpacksub irq bc lsbf src n dst rows ps pd =>
    ⟨encodeW0 .unpacksub irq (flagsTwoOne bc lsbf), src, n, dst, rows, ps, pd, 0⟩
  | .packsub irq bc lsbf src n dst rows ps pd =>
    ⟨encodeW0 .packsub irq (flagsTwoOne bc lsbf), src, n, dst, rows, ps, pd, 0⟩
  | .hdrLoad irq hdr hlen tbl k => ⟨encodeW0 .hdrLoad irq 0#16, hdr, hlen, 0, 0, tbl, k, 0⟩
  | .hdrStore irq hdr hlen tbl k => ⟨encodeW0 .hdrStore irq 0#16, 0, 0, hdr, hlen, tbl, k, 0⟩
  | .chunkFind irq g opt region rlen tag =>
    ⟨encodeW0 .chunkFind irq (flagsTwoOne g opt), region, rlen, 0, 0, tag, 0, 0⟩

/-- The 32 bytes of eight words, W0 first, each little-endian (R110). -/
def bytesOfDesc (d : Desc) : List Byte :=
  leBytes 4 d.w0.toNat ++ leBytes 4 d.w1.toNat ++ leBytes 4 d.w2.toNat ++ leBytes 4 d.w3.toNat ++
  leBytes 4 d.w4.toNat ++ leBytes 4 d.w5.toNat ++ leBytes 4 d.w6.toNat ++ leBytes 4 d.w7.toNat

/-- The 32 bytes a well-formed descriptor is stored as. -/
def encodeBytes (i : Instr) : List Byte := bytesOfDesc (encode i)

end Sys2Proof
end

