-- ==== Sys2Proof/Machine/Pack.lean ====
section
/-! DEFINITION. Bit-depth conversion, channel reorder, planar conversion, row flipping and sub-byte packing
(43_pack.md R230 to R242). Sources are read from the memory before the descriptor (R308, log 10). -/

namespace Sys2Proof.Machine

/-! ### Bit-depth conversion -/

/-- Round(v, N, M): `v * (2^M-1) / (2^N-1)` to the nearest integer, halves up (R231). -/
def convRound (v n m : Nat) : Nat :=
  (2 * v * (2 ^ m - 1) + (2 ^ n - 1)) / (2 * (2 ^ n - 1))

/-- The loop of Rep (R232). The shift falls by N at least 1 each turn from M - N, so `fuel = M` is enough
(log 12). -/
def repLoop (v n : Nat) : (fuel : Nat) → (shift : Int) → (out : Nat) → Nat
  | 0, shift, out => out ||| v / 2 ^ (-shift).toNat
  | fuel + 1, shift, out =>
    if 0 < shift then repLoop v n fuel (shift - n) (out ||| v * 2 ^ shift.toNat)
    else out ||| v / 2 ^ (-shift).toNat

/-- Rep(v, N, M): bit replication (R232). -/
def convRep (v n m : Nat) : Nat := repLoop v n m ((m : Int) - n) 0 % 2 ^ m

/-- The M-bit value BITCONV makes of a source container (R234). -/
def convValue (rep inv : Bool) (n m sh container : Nat) : Nat :=
  let v := container / 2 ^ sh % 2 ^ n
  let o := if rep then convRep v n m else convRound v n m
  if inv then 2 ^ m - 1 - o else o

/-- The cells BITCONV stores (R234). -/
def convCells (mem : Memory) (wi wo : Nat) (sbe dbe rep inv : Bool) (src n dst : Nat) (p0 p1 : Word) :
    List Host.Cell :=
  (List.range n).flatMap fun i =>
    cellsAt (dst + i * convSo p1 wo)
      (uintBytes wo dbe
        (convValue rep inv (convN p0) (convM p0) (convS p0) (mem.readUInt (src + i * convSi p1 wi) wi sbe)))

/-- BITCONV (R233, R234). -/
def execBitconv (irq : Bool) (wi wo : Nat) (sbe dbe rep inv : Bool) (src n dst p0 p1 : Word) (s : State) : Out :=
  if !convTypeOK wi wo p0 then s.fail .eType p0.toNat
  else if convSi p1 wi < wi || convSo p1 wo < wo then s.fail .eParam p1.toNat
  else
    s.checked (hull src.toNat n.toNat (convSi p1 wi) wi) (hull dst.toNat n.toNat (convSo p1 wo) wo) fun s =>
      (s.store (convCells s.mem wi wo sbe dbe rep inv src.toNat n.toNat dst.toNat p0 p1)).finish irq n.toNat 0 0 0

/-! ### Channel reorder and planar conversion -/

/-- The cells of one element of `w` bytes moved from `src` to `dst`. -/
def moveElement (mem : Memory) (src dst w : Nat) : List Host.Cell := cellsAt dst (mem.readBytes src w)

/-- The cells REORDER stores: output channel `k` takes input channel `m[k]` (R236). -/
def reorderCells (mem : Memory) (w c src n dst : Nat) (p0 : Word) : List Host.Cell :=
  (List.range n).flatMap fun i =>
    (List.range c).flatMap fun k =>
      moveElement mem (src + i * c * w + mapEntry p0 k * w) (dst + i * c * w + k * w) w

/-- REORDER (R235, R236): `src = dst` is the one overlap it allows. -/
def execReorder (irq : Bool) (w c : Nat) (src n dst p0 : Word) (s : State) : Out :=
  if !mapOK p0 c then s.fail .eParam p0.toNat
  else if !s.spanOK ⟨src.toNat, n.toNat * c * w⟩ then s.fail .eRange src.toNat
  else if !s.spanOK ⟨dst.toNat, n.toNat * c * w⟩ then s.fail .eRange dst.toNat
  else if src != dst && overlap ⟨src.toNat, n.toNat * c * w⟩ ⟨dst.toNat, n.toNat * c * w⟩ then
    s.fail .eOverlap dst.toNat
  else (s.store (reorderCells s.mem w c src.toNat n.toNat dst.toNat p0)).finish irq n.toNat 0 0 0

/-- The cells DEINTERLEAVE stores, plane by plane (R237). -/
def planarCells (mem : Memory) (w c src n dst pp : Nat) : List Host.Cell :=
  (List.range c).flatMap fun k =>
    (List.range n).flatMap fun i => moveElement mem (src + (i * c + k) * w) (dst + k * pp + i * w) w

/-- DEINTERLEAVE (R237). -/
def execDeinterleave (irq : Bool) (w c : Nat) (src n dst pp : Word) (s : State) : Out :=
  let pitch := orDefault pp.toNat (n.toNat * w)
  if pitch < n.toNat * w then s.fail .eParam pp.toNat
  else
    s.checked ⟨src.toNat, n.toNat * c * w⟩ (planesSpan dst.toNat n.toNat w c pitch) fun s =>
      (s.store (planarCells s.mem w c src.toNat n.toNat dst.toNat pitch)).finish irq n.toNat pitch 0 0

/-- The cells INTERLEAVE stores, pixel by pixel (R238). -/
def interleavedCells (mem : Memory) (w c src n dst pp : Nat) : List Host.Cell :=
  (List.range n).flatMap fun i =>
    (List.range c).flatMap fun k => moveElement mem (src + k * pp + i * w) (dst + (i * c + k) * w) w

/-- INTERLEAVE (R238). -/
def execInterleave (irq : Bool) (w c : Nat) (src n dst pp : Word) (s : State) : Out :=
  let pitch := orDefault pp.toNat (n.toNat * w)
  if pitch < n.toNat * w then s.fail .eParam pp.toNat
  else
    s.checked (planesSpan src.toNat n.toNat w c pitch) ⟨dst.toNat, n.toNat * c * w⟩ fun s =>
      (s.store (interleavedCells s.mem w c src.toNat n.toNat dst.toNat pitch)).finish irq n.toNat pitch 0 0

/-! ### Row flipping -/

/-- The cells ROWFLIP stores: rows `y` and `r-1-y` exchanged (R239). -/
def flipCells (mem : Memory) (base r len pitch : Nat) : List Host.Cell :=
  (List.range (r / 2)).flatMap fun y =>
    cellsAt (base + y * pitch) (mem.readBytes (base + (r - 1 - y) * pitch) len) ++
      cellsAt (base + (r - 1 - y) * pitch) (mem.readBytes (base + y * pitch) len)

/-- ROWFLIP (R239): one range, in place. -/
def execRowflip (irq : Bool) (base rows len pitch : Word) (s : State) : Out :=
  let p := orDefault pitch.toNat len.toNat
  if p < len.toNat then s.fail .eParam pitch.toNat
  else if !s.spanOK (rowsSpan base.toNat rows.toNat p len.toNat) then s.fail .eRange base.toNat
  else
    (s.store (flipCells s.mem base.toNat rows.toNat len.toNat p)).finish irq (rows.toNat / 2) 0 0 0

/-! ### Sub-byte packing -/

/-- The control word of a sub-byte descriptor, which E_PARAM reports for BC = 3 (R240, log 19). -/
def subWord (op : Opcode) (irq : Bool) (bc : BitVec 2) (lsbf : Bool) : Word :=
  encodeW0 op irq (flagsTwoOne bc lsbf)

/-- Element `j` of the packed row at `row`, as one byte (R240, R241). -/
def unpackElement (mem : Memory) (row b : Nat) (lsbf : Bool) (j : Nat) : Byte :=
  BitVec.ofNat 8 ((mem.read (row + j * b / 8)).toNat / 2 ^ subShift b lsbf j % 2 ^ b)

/-- The cells UNPACKSUB stores (R241). -/
def unpackCells (mem : Memory) (b : Nat) (lsbf : Bool) (src n dst r ps pd : Nat) : List Host.Cell :=
  (List.range r).flatMap fun y =>
    cellsAt (dst + y * pd) ((List.range n).map (unpackElement mem (src + y * ps) b lsbf))

/-- UNPACKSUB (R241). -/
def execUnpacksub (irq : Bool) (bc : BitVec 2) (lsbf : Bool) (src n dst rows ps pd : Word) (s : State) : Out :=
  let b := subBits bc
  let sp := orDefault ps.toNat (packedPitch n.toNat b)
  let dp := orDefault pd.toNat n.toNat
  if bc = 3#2 then s.fail .eParam (subWord .unpacksub irq bc lsbf).toNat
  else if sp < packedRow n.toNat b then s.fail .eParam ps.toNat
  else if dp < n.toNat then s.fail .eParam pd.toNat
  else
    s.checked (rowsSpan src.toNat rows.toNat sp (packedRow n.toNat b)) (rowsSpan dst.toNat rows.toNat dp n.toNat) fun s =>
      (s.store (unpackCells s.mem b lsbf src.toNat n.toNat dst.toNat rows.toNat sp dp)).finish irq
        (rows.toNat * n.toNat) sp dp 0

/-- Byte `t` of a packed row: the elements `j` with `j*b div 8 = t`, which are `t*(8/b) .. t*(8/b) + 8/b - 1`,
each shifted to its place (R240, R242). -/
def packByte (mem : Memory) (row n b : Nat) (lsbf : Bool) (t : Nat) : Byte :=
  BitVec.ofNat 8
    (((List.range (8 / b)).map fun q =>
      let j := t * (8 / b) + q
      if j < n then (mem.read (row + j)).toNat % 2 ^ b * 2 ^ subShift b lsbf j else 0).sum)

/-- The cells PACKSUB stores: whole rows of `pd` bytes, padding 0 (R242). -/
def packCells (mem : Memory) (b : Nat) (lsbf : Bool) (src n dst r ps pd : Nat) : List Host.Cell :=
  (List.range r).flatMap fun y =>
    cellsAt (dst + y * pd) ((List.range pd).map (packByte mem (src + y * ps) n b lsbf))

/-- PACKSUB (R242). -/
def execPacksub (irq : Bool) (bc : BitVec 2) (lsbf : Bool) (src n dst rows ps pd : Word) (s : State) : Out :=
  let b := subBits bc
  let sp := orDefault ps.toNat n.toNat
  let dp := orDefault pd.toNat (packedPitch n.toNat b)
  if bc = 3#2 then s.fail .eParam (subWord .packsub irq bc lsbf).toNat
  else if sp < n.toNat then s.fail .eParam ps.toNat
  else if dp < packedRow n.toNat b then s.fail .eParam pd.toNat
  else
    s.checked (rowsSpan src.toNat rows.toNat sp n.toNat) ⟨dst.toNat, rows.toNat * dp⟩ fun s =>
      (s.store (packCells s.mem b lsbf src.toNat n.toNat dst.toNat rows.toNat sp dp)).finish irq
        (rows.toNat * n.toNat) sp dp 0

end Sys2Proof.Machine
end

