-- ==== Sys2Proof/Machine/Rle.lean ====
section
/-! DEFINITION. RLE packets, the decoder Dec and the encoder Enc (41_rle.md R170 to R174), plane slicing
(R177) and the four RLE descriptors (R175, R176, R178, R179). -/

namespace Sys2Proof.Machine

/-! ### Packets (R170) -/

/-- A packet: literal bytes, or one byte repeated. -/
inductive Packet where
  | verbatim (bs : List Byte)
  | repeated (n : Nat) (b : Byte)
deriving DecidableEq, Repr

/-- How many output bytes a packet describes. -/
def Packet.run : Packet → Nat
  | .verbatim bs => bs.length
  | .repeated n _ => n

/-- A packet as bytes: the count byte holds the repeat flag and the run length minus 1 (R170). -/
def Packet.bytes : Packet → List Byte
  | .verbatim bs => BitVec.ofNat 8 (bs.length - 1) :: bs
  | .repeated n b => [BitVec.ofNat 8 (0x80 + (n - 1)), b]

/-- A packet sequence as the byte stream it is stored as. -/
def packetBytes (ps : List Packet) : List Byte := ps.flatMap Packet.bytes

/-! ### The decoder (R171) -/

/-- What Dec returns. -/
inductive DecResult where
  | ok (out : List Byte) (consumed packets : Nat)
  | fail (q : Nat)
deriving DecidableEq, Repr

/-- The loop of Dec. `inp` is the input not yet consumed, `need` the bytes still to produce (L - o), `p` the
offset of `inp`; each packet gives at least one byte, so `fuel = need` is enough (log 12). -/
def decLoop : (fuel : Nat) → (inp : List Byte) → (need p np : Nat) → (out : List Byte) → DecResult
  | _, _, 0, p, np, out => .ok out p np
  | 0, _, _ + 1, p, _, _ => .fail p
  | _ + 1, [], _ + 1, p, _, _ => .fail p
  | fuel + 1, c :: rest, need + 1, p, np, out =>
    let k := c.toNat % 128 + 1
    if need + 1 < k then .fail p
    else if c.toNat / 128 = 1 then
      match rest with
      | [] => .fail p
      | b :: rest' => decLoop fuel rest' (need + 1 - k) (p + 2) (np + 1) (out ++ List.replicate k b)
    else if (rest.take k).length < k then .fail p
    else decLoop fuel (rest.drop k) (need + 1 - k) (p + 1 + k) (np + 1) (out ++ rest.take k)

/-- Dec on the S input bytes, producing exactly L bytes (R171). -/
def dec (inp : List Byte) (l : Nat) : DecResult := decLoop l inp l 0 0 []

/-! ### The encoder (R172) -/

/-- The length of the run of `b` at the head of the list, counting at most `lim`. -/
def leading (b : Byte) : (lim : Nat) → List Byte → Nat
  | 0, _ => 0
  | _, [] => 0
  | lim + 1, x :: xs => if x = b then leading b lim xs + 1 else 0

/-- The pending literals as a verbatim packet, if there are any. -/
def flushLit (lit : List Byte) : List Packet := if lit = [] then [] else [.verbatim lit]

/-- The loop of Enc: `lit` holds the pending literals. Each turn takes at least one byte, so the input's
length is fuel enough (log 12). -/
def encLoop (lmax r : Nat) : (fuel : Nat) → List Byte → (lit : List Byte) → List Packet
  | 0, _, lit => flushLit lit
  | _ + 1, [], lit => flushLit lit
  | fuel + 1, b :: rest, lit =>
    let run := leading b (lmax - 1) rest + 1
    if r ≤ run then
      flushLit lit ++ .repeated run b :: encLoop lmax r fuel (rest.drop (run - 1)) []
    else if (lit ++ [b]).length = lmax then
      .verbatim (lit ++ [b]) :: encLoop lmax r fuel rest []
    else encLoop lmax r fuel rest (lit ++ [b])

/-- Enc(s, Lmax, R) as a packet sequence (R172). -/
def enc (bs : List Byte) (lmax r : Nat) : List Packet := encLoop lmax r bs.length bs []

/-! ### Plane slicing (R177) -/

/-- pos(t, be): where in a sample of B bytes the byte of significance `t` lies. -/
def samplePos (b : Nat) (be : Bool) (t : Nat) : Nat := if be then b - 1 - t else t

/-- sig(j): the significance of plane `j`. -/
def planeSig (b : Nat) (plsb : Bool) (j : Nat) : Nat := if plsb then j else b - 1 - j

/-- Plane `j` of the n samples at `src`. -/
def planeBytes (m : Memory) (src n b : Nat) (be plsb : Bool) (j : Nat) : List Byte :=
  (List.range n).map fun i => m.read (src + i * b + samplePos b be (planeSig b plsb j))

/-- What the plane decoder returns. -/
inductive PlanesResult where
  | ok (planes : List (List Byte)) (consumed packets : Nat)
  | fail (q : Nat)
deriving DecidableEq, Repr

/-- Decode `b` planes of `n` bytes one after the other; `p` and `np` count what came before (R178). -/
def decPlanes (n : Nat) : (b : Nat) → (inp : List Byte) → (p np : Nat) → PlanesResult
  | 0, _, p, np => .ok [] p np
  | b + 1, inp, p, np =>
    match dec inp n with
    | .fail q => .fail (p + q)
    | .ok plane c k =>
      match decPlanes n b (inp.drop c) (p + c) (np + k) with
      | .fail q => .fail q
      | .ok planes p' np' => .ok (plane :: planes) p' np'

/-- The cells of `n` samples re-interleaved from their planes (R178). -/
def sampleCells (dst n b : Nat) (be plsb : Bool) (planes : List (List Byte)) : List Host.Cell :=
  (List.range n).flatMap fun i =>
    (List.range b).map fun j =>
      (dst + i * b + samplePos b be (planeSig b plsb j), (planes.getD j []).getD i 0#8)

/-! ### The descriptors -/

/-- The destination bytes after E_CORRUPT, which the spec leaves unspecified (60_exceptions.md R275): free
values, a new set on every occasion (log 3). -/
def State.clobber (s : State) (dst len : Nat) : State :=
  { s.store (cellsAt dst ((List.range len).map (Config.unspecByte s.freeCount))) with
    freeCount := s.freeCount + 1 }

/-- RLE_DEC (R175). -/
def execRleDec (irq : Bool) (src slen dst len : Word) (s : State) : Out :=
  s.checked ⟨src.toNat, slen.toNat⟩ ⟨dst.toNat, len.toNat⟩ fun s =>
    match dec (s.mem.readBytes src.toNat slen.toNat) len.toNat with
    | .fail q => (s.clobber dst.toNat len.toNat).fail .eCorrupt q
    | .ok out p np => (s.store (cellsAt dst.toNat out)).finish irq p len.toNat np 0

/-- Store `out` if it fits the capacity; E_CAPACITY reports the required length (R176). -/
def storeFit (irq : Bool) (dst cap : Nat) (out : List Byte) (raw e packets : Nat) (s : State) : Out :=
  if cap < out.length then s.fail .eCapacity out.length
  else (s.store (cellsAt dst out)).finish irq out.length raw e packets

/-- The common end of both encoders: the raw fallback (R174), the capacity check and the store (R176, R179). -/
def storeEncoded (irq fb : Bool) (dst cap : Nat) (source : List Byte) (ps : List Packet) (s : State) : Out :=
  if fb && source.length ≤ (packetBytes ps).length then
    storeFit irq dst cap source 1 (packetBytes ps).length ps.length s
  else
    storeFit irq dst cap (packetBytes ps) 0 (packetBytes ps).length ps.length s

/-- RLE_ENC (R176). -/
def execRleEnc (irq fb : Bool) (src n dst cap p0 : Word) (s : State) : Out :=
  match encParams p0 with
  | none => s.fail .eParam p0.toNat
  | some (lmax, r) =>
    s.checked ⟨src.toNat, n.toNat⟩ ⟨dst.toNat, cap.toNat⟩ fun s =>
      storeEncoded irq fb dst.toNat cap.toNat (s.mem.readBytes src.toNat n.toNat)
        (enc (s.mem.readBytes src.toNat n.toNat) lmax r) s

/-- RLE_DECP (R178). -/
def execRleDecp (irq : Bool) (b : Nat) (dbe plsb : Bool) (src slen dst n : Word) (s : State) : Out :=
  s.checked ⟨src.toNat, slen.toNat⟩ ⟨dst.toNat, n.toNat * b⟩ fun s =>
    match decPlanes n.toNat b (s.mem.readBytes src.toNat slen.toNat) 0 0 with
    | .fail q => (s.clobber dst.toNat (n.toNat * b)).fail .eCorrupt q
    | .ok planes p np =>
      (s.store (sampleCells dst.toNat n.toNat b dbe plsb planes)).finish irq p (n.toNat * b) np 0

/-- The packets of all planes, plane 0 first (R177, R179). -/
def encPlanes (m : Memory) (src n b : Nat) (be plsb : Bool) (lmax r : Nat) : List Packet :=
  (List.range b).flatMap fun j => enc (planeBytes m src n b be plsb j) lmax r

/-- RLE_ENCP (R179). -/
def execRleEncp (irq : Bool) (b : Nat) (sbe plsb fb : Bool) (src n dst cap p0 : Word) (s : State) : Out :=
  match encParams p0 with
  | none => s.fail .eParam p0.toNat
  | some (lmax, r) =>
    s.checked ⟨src.toNat, n.toNat * b⟩ ⟨dst.toNat, cap.toNat⟩ fun s =>
      storeEncoded irq fb dst.toNat cap.toNat (s.mem.readBytes src.toNat (n.toNat * b))
        (encPlanes s.mem src.toNat n.toNat b sbe plsb lmax r) s

end Sys2Proof.Machine
end

