-- ==== Sys2Proof/Machine/Dispatch.lean ====
section
/-! DEFINITION. One arm per descriptor: its meaning, one direct call. -/

namespace Sys2Proof.Machine

def exec (i : Instr) (s : State) : Host.Outcome State Fault Refusal :=
  match i with
  | .nop irq => Sys2Proof.Machine.execNop irq s
  | .stop irq => Sys2Proof.Machine.execStop irq s
  | .jump irq target => Sys2Proof.Machine.execJump irq target s
  | .brf irq rsel cond a target imm => Sys2Proof.Machine.execBrf irq rsel cond a target imm s
  | .setf irq a imm => Sys2Proof.Machine.execSetf irq a imm s
  | .copy irq src len dst => Sys2Proof.Machine.execCopy irq src len dst s
  | .fill irq dst len value => Sys2Proof.Machine.execFill irq dst len value s
  | .rleDec irq src slen dst len => Sys2Proof.Machine.execRleDec irq src slen dst len s
  | .rleEnc irq fb src n dst cap p0 => Sys2Proof.Machine.execRleEnc irq fb src n dst cap p0 s
  | .rleDecp irq b dbe plsb src slen dst n => Sys2Proof.Machine.execRleDecp irq b dbe plsb src slen dst n s
  | .rleEncp irq b sbe plsb fb src n dst cap p0 => Sys2Proof.Machine.execRleEncp irq b sbe plsb fb src n dst cap p0 s
  | .bitconv irq wi wo sbe dbe rep inv src n dst p0 p1 => Sys2Proof.Machine.execBitconv irq wi wo sbe dbe rep inv src n dst p0 p1 s
  | .reorder irq w c src n dst p0 => Sys2Proof.Machine.execReorder irq w c src n dst p0 s
  | .deinterleave irq w c src n dst pp => Sys2Proof.Machine.execDeinterleave irq w c src n dst pp s
  | .interleave irq w c src n dst pp => Sys2Proof.Machine.execInterleave irq w c src n dst pp s
  | .rowflip irq base rows len pitch => Sys2Proof.Machine.execRowflip irq base rows len pitch s
  | .unpacksub irq bc lsbf src n dst rows ps pd => Sys2Proof.Machine.execUnpacksub irq bc lsbf src n dst rows ps pd s
  | .packsub irq bc lsbf src n dst rows ps pd => Sys2Proof.Machine.execPacksub irq bc lsbf src n dst rows ps pd s
  | .hdrLoad irq hdr hlen tbl k => Sys2Proof.Machine.execHdrLoad irq hdr hlen tbl k s
  | .hdrStore irq hdr hlen tbl k => Sys2Proof.Machine.execHdrStore irq hdr hlen tbl k s
  | .chunkFind irq g opt region rlen tag => Sys2Proof.Machine.execChunkFind irq g opt region rlen tag s

end Sys2Proof.Machine
end

