-- ==== Sys2Proof/Machine/HostPort.lean ====
section
/-! DEFINITION. HOST's side: the register map (10_state.md R31, R32), the memory window (20_memory.md R86)
and the resets (70_reset_and_hazards.md R301), each one atomic turn (R311). -/

namespace Sys2Proof.Machine

/-! ### Registers -/

/-- The offset lies in the window of F0..F31, `0x100 + 4*i` (10_state.md R32). -/
def fieldOffset (off : Nat) : Bool := 0x100 ≤ off && off < 0x180

/-- The field register at an offset of that window. -/
def fieldIndex (off : Nat) : BitVec 5 := BitVec.ofNat 5 ((off - 0x100) / 4)

/-- What HOST reads at a register offset (10_state.md R32); an unlisted offset reads 0 (R31). -/
def hostRegValue (s : State) (off : Nat) : Word :=
  match off with
  | 0x000 => Config.idValue
  | 0x004 => 0#32
  | 0x008 => s.status.word
  | 0x00C => s.pc
  | 0x010 => s.errPc
  | 0x014 => s.errInfo
  | 0x018 => s.irqStatus.setWidth 32
  | 0x01C => s.irqEnable.setWidth 32
  | 0x020 => resultReg s.res 0#2
  | 0x024 => resultReg s.res 1#2
  | 0x028 => resultReg s.res 2#2
  | 0x02C => resultReg s.res 3#2
  | 0x030 => BitVec.ofNat 32 s.mem.size
  | off => if fieldOffset off then fieldReg s.f (fieldIndex off) else 0#32

/-- A HOST write of CTRL: SRESET wins over START (10_state.md R34, R35, R36). -/
def hostCtrl (s : State) (v : Word) : State :=
  if v.getLsbD 1 then s.resetRegs else if v.getLsbD 0 then s.start else s

/-- A write that has no effect while BUSY = 1 (10_state.md R47). -/
def whenIdle (s t : State) : State := if s.status.busy then s else t

/-- What a HOST write of a register does (10_state.md R32, R34, R39, R42, R43, R46); a read-only or
unlisted offset ignores it (R31, R32). -/
def hostRegStore (s : State) (off : Nat) (v : Word) : State :=
  match off with
  | 0x004 => hostCtrl s v
  | 0x00C => whenIdle s { s with pc := v }
  | 0x018 => { s with irqStatus := clearWritten s.irqStatus v }
  | 0x01C => { s with irqEnable := v.setWidth 3 }
  | off => if fieldOffset off then whenIdle s { s with f := setFieldReg s.f (fieldIndex off) v } else s

/-- A register access is admitted: 32 bits at a multiple of 4 (10_state.md R31). -/
def regAccessOK (off : BitVec 12) (width : Nat) : Bool := width == 4 && off.toNat % 4 == 0

/-! ### The memory window -/

/-- A window access is admitted: 1, 2 or 4 bytes, naturally aligned (20_memory.md R86). -/
def memAccessOK (a : Word) (width : Nat) : Bool :=
  (width == 1 || width == 2 || width == 4) && a.toNat % width == 0

/-- HOST's little-endian read; bytes at and above MEM_BYTES read 0 (20_memory.md R86). -/
def hostMemValue (s : State) (a : Word) (width : Nat) : Word :=
  BitVec.ofNat 32 (s.mem.readUInt a.toNat width false)

/-- HOST's little-endian write; bytes at and above MEM_BYTES ignore it (20_memory.md R86). -/
def hostMemStore (s : State) (a : Word) (width : Nat) (v : Word) : State :=
  s.store (cellsAt a.toNat (uintBytes width false v.toNat))

/-- A window access that a duty of 70_reset_and_hazards.md R312 forbids gives no next state (log 6). -/
def admitWindow (s : State) (a : Word) (width : Nat) (t : State) : Out :=
  if !memAccessOK a width then .refused .hostMemoryAccess
  else if s.status.busy then .fault .hostRace
  else .next t

/-! ### Resets -/

/-- The memory M0 of a power-on as a memory of the same size in canonical form (log 14). -/
def powerOnMemory (m : Memory) (m0 : List Host.Cell) : Memory := (Memory.mk m.size []).writeCells m0

/-- Power-on: registers reset, `M` takes the contents M0 (70_reset_and_hazards.md R301, R303). -/
def State.powerOn (s : State) (m0 : List Host.Cell) : State :=
  { s.resetRegs with mem := powerOnMemory s.mem m0 }

/-! ### One HOST turn -/

/-- A HOST transition (70_reset_and_hazards.md R311); the data of a read goes to `hostData` (log 7). -/
def hostTurn (s : State) : HostAct → Out
  | .regRead off width =>
    if regAccessOK off width then .next { s with hostData := hostRegValue s off.toNat }
    else .refused .hostRegisterAccess
  | .regWrite off width v =>
    if regAccessOK off width then .next (hostRegStore s off.toNat v) else .refused .hostRegisterAccess
  | .memRead a width => admitWindow s a width { s with hostData := hostMemValue s a width }
  | .memWrite a width v => admitWindow s a width (hostMemStore s a width v)
  | .hardReset => .next s.resetRegs
  | .powerOn m0 => .next (s.powerOn m0)

end Sys2Proof.Machine
end

