-- ==== Sys2Proof/Machine/Fetch.lean ====
section
/-! DEFINITION. Fetching and decoding the descriptor at DESC_PC (30_encoding.md R111), and putting one
there. -/

namespace Sys2Proof.Machine

/-- A descriptor can be fetched at DESC_PC: 32-aligned and inside `M` (30_encoding.md R111). -/
def State.fetchOK (s : State) : Bool := s.pc.toNat % 32 == 0 && s.mem.rangeOK s.pc.toNat 32

/-- The 32 bytes at DESC_PC, read at the moment of the fetch (20_memory.md R97). -/
def State.fetchBytes (s : State) : List Byte := s.mem.readBytes s.pc.toNat 32

/-- Fetch and decode: E_ALIGN, E_RANGE, then E_ILLEGAL with W0, or the instruction (30_encoding.md R111). -/
def State.fetchDecode (s : State) : Except (ErrCode × Nat) Instr :=
  if s.pc.toNat % 32 ≠ 0 then .error (.eAlign, s.pc.toNat)
  else if !s.mem.rangeOK s.pc.toNat 32 then .error (.eRange, s.pc.toNat)
  else
    match decodeBytes s.fetchBytes with
    | .error e => .error (.eIllegal, e.info)
    | .ok i => .ok i

/-- DESC_PC where a fetch can succeed: itself if it can, else 0 (log 8). -/
def State.aimFetch (s : State) : State := if s.fetchOK then s else s.setPc 0#32

/-- The next turn is the ENGINE's (log 8). -/
def engineFirst : List Turn → List Turn
  | [] => []
  | .engine :: rest => .engine :: rest
  | t :: rest => .engine :: t :: rest

/-- What HOST does to run one descriptor (70_reset_and_hazards.md R305): store it where the next fetch reads,
and START if the engine is idle; the next turn is the ENGINE's (log 8). -/
def State.placeDescriptor (s : State) (bs : List Byte) : State :=
  let t := s.aimFetch
  { (t.store (cellsAt t.pc.toNat bs)).start with turns := engineFirst s.turns }

end Sys2Proof.Machine
end

