-- ==== Sys2Proof/Machine/Step.lean ====
section
/-! DEFINITION. One step of the machine: one turn (70_reset_and_hazards.md R311). -/

namespace Sys2Proof.Machine

/-- An ENGINE step is fetch, decode and the whole execution of one descriptor, its error entry included
(70_reset_and_hazards.md R311). While BUSY = 0 the ENGINE has none and the machine holds its state (10_state.md
R38, 60_exceptions.md R287, log 5). -/
def engineTurn (s : State) : Host.Outcome State Fault Refusal :=
  if s.status.busy then
    match s.fetchDecode with
    | .error (code, info) => s.fail code info
    | .ok i => exec i s
  else .next s

/-- One turn: the oldest of `turns`, the ENGINE's when none is left (log 4). -/
def step (s : State) : Host.Outcome State Fault Refusal :=
  match s.turns with
  | [] => engineTurn s
  | .engine :: rest => engineTurn { s with turns := rest }
  | .host act :: rest => hostTurn { s with turns := rest } act

/-- `s` with an instruction of the opcode table placed, and started, where the next step fetches (log 8). -/
def State.withFetchWord (s : State) (nbits w : Nat) : State := s.placeDescriptor (tableBytes nbits w)

end Sys2Proof.Machine
end

