-- ==== Sys2Proof/Safety.lean ====
section
/-! DEFINITION. What counts as a safe machine: the invariant every step keeps, the HOST duties, and the words
the statements are made in (what a completed descriptor leaves, which bytes it may change, which ranges and
parameters a descriptor is checked for). -/

namespace Sys2Proof.Machine

/-! ### The invariant -/

/-- STATUS is one the rules allow: DONE and ERR exclude each other, BUSY excludes both, and there is an error
code exactly when ERR = 1 (10_state.md R37). -/
def Status.legal (st : Status) : Bool :=
  !(st.done && st.err) && !(st.busy && (st.done || st.err)) && (st.err == (st.code != .noError))

/-- The invariant: memory in canonical form with a legal size, STATUS legal, and ERR_PC and ERR_INFO 0 unless
ERR = 1 (START clears them, 10_state.md R35; error entry alone writes them, R40, R41). -/
def State.inv (s : State) : Bool :=
  s.mem.wf && s.status.legal && (s.status.err || (s.errPc == 0#32 && s.errInfo == 0#32))

/-! ### HOST duties -/

/-- A HOST access keeps the duties of 70_reset_and_hazards.md R312. -/
def HostAct.keepsDuty (s : State) : HostAct → Bool
  | .regRead off width => regAccessOK off width
  | .regWrite off width _ => regAccessOK off width
  | .memRead a width => memAccessOK a width && !s.status.busy
  | .memWrite a width _ => memAccessOK a width && !s.status.busy
  | .hardReset => true
  | .powerOn _ => true

/-- The next turn is the ENGINE's or a HOST turn that keeps its duties. -/
def State.nextTurnOK (s : State) : Bool :=
  match s.turns with
  | .host act :: _ => act.keepsDuty s
  | _ => true

/-- The next turn is the ENGINE's. -/
def State.engineNext (s : State) : Bool :=
  match s.turns with
  | .host _ :: _ => false
  | _ => true

/-- The state with its next turn taken off. -/
def State.turnTaken (s : State) : State := { s with turns := s.turns.tail }

/-! ### What a step leaves -/

/-- `m'` differs from `m` at most in the bytes of a range. -/
def sameOutside (m m' : Memory) (r : Span) : Prop :=
  m'.size = m.size ∧ ∀ a, r.has a = false → m'.read a = m.read a

/-- `m'` differs from `m` at most in the bytes `p` holds of. -/
def sameExcept (m m' : Memory) (p : Nat → Prop) : Prop :=
  m'.size = m.size ∧ ∀ a, ¬ p a → m'.read a = m.read a

/-- IRQ_STATUS after a descriptor completes (30_encoding.md R113). -/
def State.irqAfter (s : State) (irq : Bool) : BitVec 3 :=
  if irq then s.irqStatus ||| irqDesc else s.irqStatus

/-- `t` is `s` after a data descriptor: RES0..RES3, DESC_PC + 32, DESC interrupt if asked for, and nothing else
but the memory (10_state.md R45, 30_encoding.md R112, R113). -/
def completed (s t : State) (irq : Bool) (r0 r1 r2 r3 : Nat) : Prop :=
  t = { s with
    mem := t.mem
    res := #v[BitVec.ofNat 32 r0, BitVec.ofNat 32 r1, BitVec.ofNat 32 r2, BitVec.ofNat 32 r3]
    pc := s.pc + 32#32
    irqStatus := s.irqAfter irq }

/-- `t` is `s` after error entry, but for the memory and the field registers (60_exceptions.md R274). -/
def errored (s t : State) (code : ErrCode) (info : Nat) : Prop :=
  t = { s with
    mem := t.mem
    f := t.f
    freeCount := t.freeCount
    errPc := s.pc
    errInfo := BitVec.ofNat 32 info
    status := ⟨false, false, true, code⟩
    irqStatus := s.irqStatus ||| irqErr }

/-! ### The checks of a descriptor -/

/-- The parameter check a descriptor fails, with what ERR_INFO reports (60_exceptions.md R272, R273): E_TYPE or
E_PARAM before any range is looked at. HDR_LOAD and HDR_STORE have none: they check ranges first. -/
def paramError : Instr → Option (ErrCode × Nat)
  | .brf _ rsel _ a _ _ => if rsel && 3 < a.toNat then some (.eParam, a.toNat) else none
  | .rleEnc _ _ _ _ _ _ p0 => if encParams p0 = none then some (.eParam, p0.toNat) else none
  | .rleEncp _ _ _ _ _ _ _ _ _ p0 => if encParams p0 = none then some (.eParam, p0.toNat) else none
  | .bitconv _ wi wo _ _ _ _ _ _ _ p0 p1 =>
    if !convTypeOK wi wo p0 then some (.eType, p0.toNat)
    else if convSi p1 wi < wi || convSo p1 wo < wo then some (.eParam, p1.toNat)
    else none
  | .reorder _ _ c _ _ _ p0 => if !mapOK p0 c then some (.eParam, p0.toNat) else none
  | .deinterleave _ w _ _ n _ pp =>
    if orDefault pp.toNat (n.toNat * w) < n.toNat * w then some (.eParam, pp.toNat) else none
  | .interleave _ w _ _ n _ pp =>
    if orDefault pp.toNat (n.toNat * w) < n.toNat * w then some (.eParam, pp.toNat) else none
  | .rowflip _ _ _ len pitch =>
    if orDefault pitch.toNat len.toNat < len.toNat then some (.eParam, pitch.toNat) else none
  | .unpacksub irq bc lsbf _ n _ _ ps pd =>
    if bc = 3#2 then some (.eParam, (subWord .unpacksub irq bc lsbf).toNat)
    else if orDefault ps.toNat (packedPitch n.toNat (subBits bc)) < packedRow n.toNat (subBits bc) then
      some (.eParam, ps.toNat)
    else if orDefault pd.toNat n.toNat < n.toNat then some (.eParam, pd.toNat)
    else none
  | .packsub irq bc lsbf _ n _ _ ps pd =>
    if bc = 3#2 then some (.eParam, (subWord .packsub irq bc lsbf).toNat)
    else if orDefault ps.toNat n.toNat < n.toNat then some (.eParam, ps.toNat)
    else if orDefault pd.toNat (packedPitch n.toNat (subBits bc)) < packedRow n.toNat (subBits bc) then
      some (.eParam, pd.toNat)
    else none
  | .nop .. => none
  | .stop .. => none
  | .jump .. => none
  | .setf .. => none
  | .copy .. => none
  | .fill .. => none
  | .rleDec .. => none
  | .rleDecp .. => none
  | .hdrLoad .. => none
  | .hdrStore .. => none
  | .chunkFind .. => none

/-- The source and the destination range of a descriptor that has both, in the order they are checked
(20_memory.md R82 to R84, 43_pack.md R230). -/
def checkedRanges : Instr → Option (Span × Span)
  | .copy _ src len dst => some (⟨src.toNat, len.toNat⟩, ⟨dst.toNat, len.toNat⟩)
  | .rleDec _ src slen dst len => some (⟨src.toNat, slen.toNat⟩, ⟨dst.toNat, len.toNat⟩)
  | .rleEnc _ _ src n dst cap _ => some (⟨src.toNat, n.toNat⟩, ⟨dst.toNat, cap.toNat⟩)
  | .rleDecp _ b _ _ src slen dst n => some (⟨src.toNat, slen.toNat⟩, ⟨dst.toNat, n.toNat * b⟩)
  | .rleEncp _ b _ _ _ src n dst cap _ => some (⟨src.toNat, n.toNat * b⟩, ⟨dst.toNat, cap.toNat⟩)
  | .bitconv _ wi wo _ _ _ _ src n dst _ p1 =>
    some (hull src.toNat n.toNat (convSi p1 wi) wi, hull dst.toNat n.toNat (convSo p1 wo) wo)
  | .reorder _ w c src n dst _ => some (⟨src.toNat, n.toNat * c * w⟩, ⟨dst.toNat, n.toNat * c * w⟩)
  | .deinterleave _ w c src n dst pp =>
    some (⟨src.toNat, n.toNat * c * w⟩,
      planesSpan dst.toNat n.toNat w c (orDefault pp.toNat (n.toNat * w)))
  | .interleave _ w c src n dst pp =>
    some (planesSpan src.toNat n.toNat w c (orDefault pp.toNat (n.toNat * w)),
      ⟨dst.toNat, n.toNat * c * w⟩)
  | .unpacksub _ bc _ src n dst rows ps pd =>
    some (rowsSpan src.toNat rows.toNat (orDefault ps.toNat (packedPitch n.toNat (subBits bc)))
        (packedRow n.toNat (subBits bc)),
      rowsSpan dst.toNat rows.toNat (orDefault pd.toNat n.toNat) n.toNat)
  | .packsub _ bc _ src n dst rows ps pd =>
    some (rowsSpan src.toNat rows.toNat (orDefault ps.toNat n.toNat) n.toNat,
      ⟨dst.toNat, rows.toNat * orDefault pd.toNat (packedPitch n.toNat (subBits bc))⟩)
  | .hdrStore _ hdr hlen tbl k => some (⟨tbl.toNat, 16 * k.toNat⟩, ⟨hdr.toNat, hlen.toNat⟩)
  | .nop .. => none
  | .stop .. => none
  | .jump .. => none
  | .brf .. => none
  | .setf .. => none
  | .fill .. => none
  | .rowflip .. => none
  | .hdrLoad .. => none
  | .chunkFind .. => none

/-- REORDER in place, the one descriptor whose source and destination may be the same range (20_memory.md R84,
43_pack.md R236). -/
def runsInPlace : Instr → Bool
  | .reorder _ _ _ src _ dst _ => src == dst
  | _ => false

/-- The descriptor passes its parameter, range and overlap checks. -/
def checksPass (i : Instr) (s : State) : Bool :=
  (paramError i).isNone &&
    match checkedRanges i with
    | none => true
    | some (src, dst) => s.spanOK src && s.spanOK dst && (runsInPlace i || !overlap src dst)

/-! ### Packet streams (41_rle.md R170, R171, R177, R178) -/

/-- The run length of a packet is one the count byte can hold, 1..128 (41_rle.md R170). -/
def Packet.legal (p : Packet) : Bool := 1 ≤ p.run && p.run ≤ 128

/-- The output bytes a packet describes (R170). -/
def Packet.expand : Packet → List Byte
  | .verbatim bs => bs
  | .repeated n b => List.replicate n b

/-- The output bytes of a packet sequence, in order. -/
def expandAll (ps : List Packet) : List Byte := ps.flatMap Packet.expand

/-- The input begins with legal packets that give exactly `l` bytes: what Dec accepts (R171). -/
def decodesTo (inp : List Byte) (l : Nat) (ps : List Packet) : Prop :=
  (∀ p ∈ ps, p.legal = true) ∧ packetBytes ps <+: inp ∧ (expandAll ps).length = l

/-- The input begins with legal packets that give fewer than `l` bytes, and no legal packet that fits
follows them: the input ends there, or the next count byte's run passes `l` ("running past"), or its packet
passes the end of the input (R171). -/
def breaksAfter (inp : List Byte) (l : Nat) (ps : List Packet) : Prop :=
  (∀ p ∈ ps, p.legal = true) ∧ packetBytes ps <+: inp ∧ (expandAll ps).length < l ∧
    match inp[(packetBytes ps).length]? with
    | none => True
    | some c =>
      l < (expandAll ps).length + (c.toNat % 128 + 1) ∨
        (128 ≤ c.toNat ∧ inp.length < (packetBytes ps).length + 2) ∨
        (c.toNat < 128 ∧ inp.length < (packetBytes ps).length + 1 + (c.toNat % 128 + 1))

/-- The input begins with the streams of the planes, one packet sequence per plane of `n` bytes (R177, R178). -/
def planesDecode (inp : List Byte) (n : Nat) (pss : List (List Packet)) : Prop :=
  (∀ ps ∈ pss, (∀ p ∈ ps, p.legal = true) ∧ (expandAll ps).length = n) ∧ packetBytes pss.flatten <+: inp

/-! ### Field registers after some entries of a header (42_header.md R205) -/

/-- Entry `j` has an encoding HDR_LOAD and HDR_STORE accept and its field lies inside the header (R202, R205). -/
def entryFits (m : Memory) (tbl hlen j : Nat) : Bool :=
  (entryAt m tbl j).ok && decide ((entryAt m tbl j).off + (entryAt m tbl j).width ≤ hlen)

/-- F after the first `j` entries have been loaded. -/
def fieldsAfter (m : Memory) (hdr tbl : Nat) (f : Vector Word 32) : Nat → Vector Word 32
  | 0 => f
  | j + 1 =>
    setFieldReg (fieldsAfter m hdr tbl f j) (entryAt m tbl j).idx (loadValue m hdr (entryAt m tbl j))

/-- The check of entry `j`, made after its own write of F (R204). -/
def entryPasses (m : Memory) (hdr tbl : Nat) (f : Vector Word 32) (j : Nat) : Bool :=
  (entryAt m tbl j).check (loadValue m hdr (entryAt m tbl j)) (fieldsAfter m hdr tbl f (j + 1))

/-! ### Chunks (42_header.md R208, R209) -/

/-- The tag of the chunk at an address. -/
def chunkTag (m : Memory) (c : Nat) : Nat := m.readUInt c 4 true

/-- The payload length of the chunk at an address. -/
def chunkLen (m : Memory) (c : Nat) : Nat := m.readUInt (c + 4) 4 true

/-- The address of chunk `i` of a region, the padding of the last one clamped to the region's end. -/
def chunkAddr (m : Memory) (al region stop : Nat) : Nat → Nat
  | 0 => region
  | i + 1 =>
    nextChunk (chunkAddr m al region stop i) (chunkLen m (chunkAddr m al region stop i)) al stop

/-- A whole chunk, header and payload, lies at `c`. -/
def chunkFits (m : Memory) (stop c : Nat) : Prop := 8 ≤ stop - c ∧ chunkLen m c ≤ stop - c - 8

/-- The walk passes over chunks `0 .. i-1`: each is whole and none is wanted (tag 0 wants any). -/
def chunksSkipped (m : Memory) (al region stop want i : Nat) : Prop :=
  ∀ j < i, chunkFits m stop (chunkAddr m al region stop j) ∧ want ≠ 0 ∧
    chunkTag m (chunkAddr m al region stop j) ≠ want

end Sys2Proof.Machine

namespace Sys2Proof

/-! ### Kinds of descriptors -/

/-- The control descriptors, opcodes 0x00..0x04 (40_control_move.md R140). -/
def Instr.isControl : Instr → Bool
  | .nop .. => true
  | .stop .. => true
  | .jump .. => true
  | .brf .. => true
  | .setf .. => true
  | .copy .. => false
  | .fill .. => false
  | .rleDec .. => false
  | .rleEnc .. => false
  | .rleDecp .. => false
  | .rleEncp .. => false
  | .bitconv .. => false
  | .reorder .. => false
  | .deinterleave .. => false
  | .interleave .. => false
  | .rowflip .. => false
  | .unpacksub .. => false
  | .packsub .. => false
  | .hdrLoad .. => false
  | .hdrStore .. => false
  | .chunkFind .. => false

/-- W0.IRQ of a descriptor (30_encoding.md R113). -/
def Instr.irqBit : Instr → Bool
  | .nop irq => irq
  | .stop irq => irq
  | .jump irq .. => irq
  | .brf irq .. => irq
  | .setf irq .. => irq
  | .copy irq .. => irq
  | .fill irq .. => irq
  | .rleDec irq .. => irq
  | .rleEnc irq .. => irq
  | .rleDecp irq .. => irq
  | .rleEncp irq .. => irq
  | .bitconv irq .. => irq
  | .reorder irq .. => irq
  | .deinterleave irq .. => irq
  | .interleave irq .. => irq
  | .rowflip irq .. => irq
  | .unpacksub irq .. => irq
  | .packsub irq .. => irq
  | .hdrLoad irq .. => irq
  | .hdrStore irq .. => irq
  | .chunkFind irq .. => irq

/-- The same descriptor with W0.IRQ cleared (30_encoding.md R114). -/
def Instr.noIrq : Instr → Instr
  | .nop _ => .nop false
  | .stop _ => .stop false
  | .jump _ target => .jump false target
  | .brf _ rsel cond a target imm => .brf false rsel cond a target imm
  | .setf _ a imm => .setf false a imm
  | .copy _ src len dst => .copy false src len dst
  | .fill _ dst len value => .fill false dst len value
  | .rleDec _ src slen dst len => .rleDec false src slen dst len
  | .rleEnc _ fb src n dst cap p0 => .rleEnc false fb src n dst cap p0
  | .rleDecp _ b dbe plsb src slen dst n => .rleDecp false b dbe plsb src slen dst n
  | .rleEncp _ b sbe plsb fb src n dst cap p0 => .rleEncp false b sbe plsb fb src n dst cap p0
  | .bitconv _ wi wo sbe dbe rep inv src n dst p0 p1 => .bitconv false wi wo sbe dbe rep inv src n dst p0 p1
  | .reorder _ w c src n dst p0 => .reorder false w c src n dst p0
  | .deinterleave _ w c src n dst pp => .deinterleave false w c src n dst pp
  | .interleave _ w c src n dst pp => .interleave false w c src n dst pp
  | .rowflip _ base rows len pitch => .rowflip false base rows len pitch
  | .unpacksub _ bc lsbf src n dst rows ps pd => .unpacksub false bc lsbf src n dst rows ps pd
  | .packsub _ bc lsbf src n dst rows ps pd => .packsub false bc lsbf src n dst rows ps pd
  | .hdrLoad _ hdr hlen tbl k => .hdrLoad false hdr hlen tbl k
  | .hdrStore _ hdr hlen tbl k => .hdrStore false hdr hlen tbl k
  | .chunkFind _ g opt region rlen tag => .chunkFind false g opt region rlen tag

/-! ### Words a descriptor uses (30_encoding.md R119) -/

/-- Word `k` of a descriptor. -/
def Desc.word (d : Desc) : Nat → Word
  | 0 => d.w0
  | 1 => d.w1
  | 2 => d.w2
  | 3 => d.w3
  | 4 => d.w4
  | 5 => d.w5
  | 6 => d.w6
  | _ => d.w7

/-- The words among W1..W7 that an opcode uses, the rows of R119. -/
def Opcode.usedWords : Opcode → List Nat
  | .nop => []
  | .stop => []
  | .jump => [1]
  | .brf => [1, 5]
  | .setf => [5]
  | .copy => [1, 2, 3]
  | .fill => [3, 4, 5]
  | .rleDec => [1, 2, 3, 4]
  | .rleEnc => [1, 2, 3, 4, 5]
  | .rleDecp => [1, 2, 3, 4]
  | .rleEncp => [1, 2, 3, 4, 5]
  | .bitconv => [1, 2, 3, 5, 6]
  | .reorder => [1, 2, 3, 5]
  | .deinterleave => [1, 2, 3, 5]
  | .interleave => [1, 2, 3, 5]
  | .rowflip => [3, 4, 5, 6]
  | .unpacksub => [1, 2, 3, 4, 5, 6]
  | .packsub => [1, 2, 3, 4, 5, 6]
  | .hdrLoad => [1, 2, 5, 6]
  | .hdrStore => [3, 4, 5, 6]
  | .chunkFind => [1, 2, 5]

end Sys2Proof
end

