-- ==== Sys2Proof/Certificates/Slice0/Obligations.lean ====
section
/-! DEFINITION. The statements for the provers: what the rules of spec/ say of the encoding, of each
descriptor, of errors, of HOST's side and of the whole machine. A statement about every state takes as a
premise only what a run keeps (`State.inv`, itself a statement below) or the memory's part of it. -/

open Sys2Proof Sys2Proof.Machine

/-! ## Encoding -/

/-- 30_encoding.md R110, R119, R120, R122: no bit of an encoding is dropped. -/
def Obligations.DecodeInvertsEncode : Prop :=
  ∀ i : Instr, i.wf = true → decodeBytes (encodeBytes i) = .ok i

/-- 30_encoding.md R126, each worked encoding in both directions. -/
def Obligations.WorkedEncodings : Prop :=
  (∀ w1 w2 w3 w4 w5 w6 w7 : Word, decode ⟨0x00000001#32, w1, w2, w3, w4, w5, w6, w7⟩ = .ok (.stop false)) ∧
  encode (.rleEnc false true 0x1000#32 192#32 0x2000#32 0x400#32 0x200#32) =
    ⟨0x00100011#32, 0x1000#32, 192#32, 0x2000#32, 0x400#32, 0x00000200#32, 0#32, 0#32⟩ ∧
  decode ⟨0x00100011#32, 0x1000#32, 192#32, 0x2000#32, 0x400#32, 0x00000200#32, 0#32, 0#32⟩ =
    .ok (.rleEnc false true 0x1000#32 192#32 0x2000#32 0x400#32 0x200#32) ∧
  encParams 0x00000200#32 = some (128, 2) ∧
  (∀ src n dst : Word,
    encode (.bitconv false 2 1 false false true false src n dst 0x000A0805#32 0#32) =
      ⟨0x00410020#32, src, n, dst, 0#32, 0x000A0805#32, 0#32, 0#32⟩ ∧
    decode ⟨0x00410020#32, src, n, dst, 0#32, 0x000A0805#32, 0#32, 0#32⟩ =
      .ok (.bitconv false 2 1 false false true false src n dst 0x000A0805#32 0#32)) ∧
  convN 0x000A0805#32 = 5 ∧ convM 0x000A0805#32 = 8 ∧ convS 0x000A0805#32 = 10 ∧
  (∀ t : Word,
    encode (.brf false true .ne 0#5 t 0#32) = ⟨0x00600003#32, t, 0#32, 0#32, 0#32, 0#32, 0#32, 0#32⟩ ∧
    decode ⟨0x00600003#32, t, 0#32, 0#32, 0#32, 0#32, 0#32, 0#32⟩ = .ok (.brf false true .ne 0#5 t 0#32)) ∧
  uintBytes 4 false 0x00100011 = [0x11#8, 0x00#8, 0x10#8, 0x00#8]

/-- 30_encoding.md R117, R118: the OP value of each opcode, which OP values are undefined, and the all-zero
descriptor. -/
def Obligations.UndefinedOpcodesRejected : Prop :=
  (opcodeOf 0x00#8 = some .nop ∧ opcodeOf 0x01#8 = some .stop ∧ opcodeOf 0x02#8 = some .jump ∧
    opcodeOf 0x03#8 = some .brf ∧ opcodeOf 0x04#8 = some .setf ∧ opcodeOf 0x08#8 = some .copy ∧
    opcodeOf 0x09#8 = some .fill ∧ opcodeOf 0x10#8 = some .rleDec ∧ opcodeOf 0x11#8 = some .rleEnc ∧
    opcodeOf 0x12#8 = some .rleDecp ∧ opcodeOf 0x13#8 = some .rleEncp ∧ opcodeOf 0x20#8 = some .bitconv ∧
    opcodeOf 0x21#8 = some .reorder ∧ opcodeOf 0x22#8 = some .deinterleave ∧
    opcodeOf 0x23#8 = some .interleave ∧ opcodeOf 0x24#8 = some .rowflip ∧
    opcodeOf 0x25#8 = some .unpacksub ∧ opcodeOf 0x26#8 = some .packsub ∧ opcodeOf 0x30#8 = some .hdrLoad ∧
    opcodeOf 0x31#8 = some .hdrStore ∧ opcodeOf 0x32#8 = some .chunkFind) ∧
  (∀ d : Desc,
    let op := d.w0.toNat % 256
    (decode d = .error (.undefinedOp d.w0)) ↔
      (0x05 ≤ op ∧ op ≤ 0x07) ∨ (0x0A ≤ op ∧ op ≤ 0x0F) ∨ (0x14 ≤ op ∧ op ≤ 0x1F) ∨
        (0x27 ≤ op ∧ op ≤ 0x2F) ∨ 0x33 ≤ op) ∧
  (∀ d : Desc, d.w0 = 0#32 → decode d = .ok (.nop false)) ∧
  decodeBytes (List.replicate 32 0#8) = .ok (.nop false)

/-- 30_encoding.md R116, R119: words an opcode does not use, and FILL's W5[31:8], may hold anything. -/
def Obligations.UnusedWordsIgnored : Prop :=
  ∀ (d d' : Desc) (op : Opcode), opcodeOf d.op = some op → d'.w0 = d.w0 →
    (∀ k ∈ op.usedWords, k = 5 ∧ op = .fill ∨ d'.word k = d.word k) →
    (op = .fill → d'.w5.toNat % 256 = d.w5.toNat % 256) →
    decode d' = decode d

/-! ## Fetch and step -/

/-- 70_reset_and_hazards.md R311: the ENGINE's turn is the fetched descriptor's execution. -/
def Obligations.StepRunsTheDescriptor : Prop :=
  ∀ (s : State) (i : Instr), s.engineNext = true → s.status.busy = true → s.pc.toNat % 32 = 0 →
    s.pc.toNat + 32 ≤ s.mem.size → decodeBytes (s.mem.readBytes s.pc.toNat 32) = .ok i → i.wf = true →
    step s = exec i s.turnTaken

/-- 30_encoding.md R111, check by check and in its order, on the numbers the rule reads, with FLAGMASK(OP), the bits
R120 lists, in numbers; and which word (R119) and which bits of W0 (R113, R120, R122) each operand of each opcode is,
in the order the statements on the descriptors name them. -/
def Obligations.FetchAndDecodeOrder : Prop :=
  (Opcode.brf.flagMask = 0x00FF#16 ∧ Opcode.setf.flagMask = 0x001F#16 ∧ Opcode.rleEnc.flagMask = 0x0010#16 ∧
    Opcode.rleDecp.flagMask = 0x000F#16 ∧ Opcode.rleEncp.flagMask = 0x001F#16 ∧
    Opcode.bitconv.flagMask = 0x00FF#16 ∧ Opcode.reorder.flagMask = 0x000F#16 ∧
    Opcode.deinterleave.flagMask = 0x000F#16 ∧ Opcode.interleave.flagMask = 0x000F#16 ∧
    Opcode.unpacksub.flagMask = 0x0007#16 ∧ Opcode.packsub.flagMask = 0x0007#16 ∧
    Opcode.chunkFind.flagMask = 0x0007#16 ∧
    ∀ op ∈ [Opcode.nop, .stop, .jump, .copy, .fill, .rleDec, .rowflip, .hdrLoad, .hdrStore],
      op.flagMask = 0#16) ∧
  (∀ (d : Desc) (op : Opcode), (operandsOf d op).wf = true) ∧
  (∀ w0 w1 w2 w3 w4 w5 w6 w7 : Word,
    let ops := operandsOf ⟨w0, w1, w2, w3, w4, w5, w6, w7⟩
    let irq := decide (w0.toNat / 2 ^ 8 % 2 = 1)
    let bit := fun k : Nat => decide (w0.toNat / 2 ^ (16 + k) % 2 = 1)
    let two := fun k : Nat => w0.toNat / 2 ^ (16 + k) % 4
    let two0 := BitVec.ofNat 2 (two 0)
    let a := BitVec.ofNat 5 (w0.toNat / 2 ^ 16 % 32)
    let cond := if two 6 = 0 then Cond.eq else if two 6 = 1 then .ne else if two 6 = 2 then .ltu else .geu
    ops .nop = .nop irq ∧ ops .stop = .stop irq ∧ ops .jump = .jump irq w1 ∧
    ops .brf = .brf irq (bit 5) cond a w1 w5 ∧ ops .setf = .setf irq a w5 ∧
    ops .copy = .copy irq w1 w2 w3 ∧ ops .fill = .fill irq w3 w4 (BitVec.ofNat 8 (w5.toNat % 256)) ∧
    ops .rleDec = .rleDec irq w1 w2 w3 w4 ∧ ops .rleEnc = .rleEnc irq (bit 4) w1 w2 w3 w4 w5 ∧
    ops .rleDecp = .rleDecp irq (two 0 + 1) (bit 2) (bit 3) w1 w2 w3 w4 ∧
    ops .rleEncp = .rleEncp irq (two 0 + 1) (bit 2) (bit 3) (bit 4) w1 w2 w3 w4 w5 ∧
    ops .bitconv =
      .bitconv irq (two 0 + 1) (two 2 + 1) (bit 4) (bit 5) (bit 6) (bit 7) w1 w2 w3 w5 w6 ∧
    ops .reorder = .reorder irq (two 0 + 1) (two 2 + 1) w1 w2 w3 w5 ∧
    ops .deinterleave = .deinterleave irq (two 0 + 1) (two 2 + 1) w1 w2 w3 w5 ∧
    ops .interleave = .interleave irq (two 0 + 1) (two 2 + 1) w1 w2 w3 w5 ∧
    ops .rowflip = .rowflip irq w3 w4 w5 w6 ∧
    ops .unpacksub = .unpacksub irq two0 (bit 2) w1 w2 w3 w4 w5 w6 ∧
    ops .packsub = .packsub irq two0 (bit 2) w1 w2 w3 w4 w5 w6 ∧
    ops .hdrLoad = .hdrLoad irq w1 w2 w5 w6 ∧ ops .hdrStore = .hdrStore irq w3 w4 w5 w6 ∧
    ops .chunkFind = .chunkFind irq two0 (bit 2) w1 w2 w5) ∧
  ∀ s : State, s.engineNext = true → s.status.busy = true →
    let a := s.pc.toNat
    let t := s.turnTaken
    let w := fun k : Nat => s.mem.readUInt (a + 4 * k) 4 false
    (a % 32 ≠ 0 → step s = .next (t.raise .eAlign a)) ∧
    (a % 32 = 0 → s.mem.size < a + 32 → step s = .next (t.raise .eRange a)) ∧
    (a % 32 = 0 → a + 32 ≤ s.mem.size →
      (opcodeOf (BitVec.ofNat 8 (w 0 % 2 ^ 8)) = none → step s = .next (t.raise .eIllegal (w 0))) ∧
      ∀ op : Opcode, opcodeOf (BitVec.ofNat 8 (w 0 % 2 ^ 8)) = some op →
        (w 0 / 2 ^ 9 % 2 ^ 7 ≠ 0 → step s = .next (t.raise .eIllegal (w 0))) ∧
        (w 0 / 2 ^ 9 % 2 ^ 7 = 0 → w 0 / 2 ^ 16 &&& (~~~op.flagMask).toNat ≠ 0 →
          step s = .next (t.raise .eIllegal (w 0))) ∧
        (w 0 / 2 ^ 9 % 2 ^ 7 = 0 → w 0 / 2 ^ 16 &&& (~~~op.flagMask).toNat = 0 →
          step s = exec (operandsOf
            ⟨BitVec.ofNat 32 (w 0), BitVec.ofNat 32 (w 1), BitVec.ofNat 32 (w 2), BitVec.ofNat 32 (w 3),
              BitVec.ofNat 32 (w 4), BitVec.ofNat 32 (w 5), BitVec.ofNat 32 (w 6), BitVec.ofNat 32 (w 7)⟩ op) t))

/-- 60_exceptions.md R287, 10_state.md R38: an idle machine holds all state. That an idle ENGINE turn is a step
which changes nothing, and not the absence of one, is the model's choice (log 5). -/
def Obligations.IdleEngineHoldsState : Prop :=
  ∀ s : State, s.engineNext = true → s.status.busy = false → step s = .next s.turnTaken

/-- 20_memory.md R93, R97, 70_reset_and_hazards.md R307: a COPY that writes the next descriptor is followed by the
descriptor it wrote, and a COPY over its own 32 bytes completes as the COPY it was. -/
def Obligations.ChainRunsDescriptorsAsWritten : Prop :=
  ∀ (s : State) (irq : Bool) (src : Word) (i : Instr), s.inv = true → s.turns = [] → s.status.busy = true →
    s.pc.toNat % 32 = 0 → s.pc.toNat + 64 ≤ s.mem.size → src.toNat + 32 ≤ s.mem.size →
    i.wf = true → s.mem.readBytes src.toNat 32 = encodeBytes i →
    (decodeBytes (s.mem.readBytes s.pc.toNat 32) = .ok (.copy irq src 32#32 (s.pc + 32#32)) →
      overlap ⟨src.toNat, 32⟩ ⟨s.pc.toNat + 32, 32⟩ = false →
      ∃ t, step s = .next t ∧ t.pc = s.pc + 32#32 ∧ step t = exec i t) ∧
    (decodeBytes (s.mem.readBytes s.pc.toNat 32) = .ok (.copy irq src 32#32 s.pc) →
      overlap ⟨src.toNat, 32⟩ ⟨s.pc.toNat, 32⟩ = false →
      ∃ t, step s = .next t ∧ completed s t irq 32 0 0 0 ∧
        decodeBytes (t.mem.readBytes s.pc.toNat 32) = .ok i)

/-! ## Control descriptors -/

/-- 40_control_move.md R141, R142. -/
def Obligations.NopAndStopComplete : Prop :=
  ∀ (s : State) (irq : Bool),
    exec (.nop irq) s = .next { s with pc := s.pc + 32#32, irqStatus := s.irqAfter irq } ∧
    exec (.stop irq) s = .next
      { s with
        pc := s.pc + 32#32
        status := { s.status with busy := false, done := true }
        irqStatus := s.irqStatus ||| irqDone ||| (if irq then irqDesc else 0#3) }

/-- 40_control_move.md R143, with what its corner cases say of a bad target. -/
def Obligations.JumpSetsDescPc : Prop :=
  ∀ (s : State) (irq : Bool) (target : Word), ∃ t : State,
    exec (.jump irq target) s = .next t ∧ t = { s with pc := target, irqStatus := s.irqAfter irq } ∧
    (s.status.busy = true → s.engineNext = true →
      (target.toNat % 32 ≠ 0 → step t = .next (t.turnTaken.raise .eAlign target.toNat)) ∧
      (target.toNat % 32 = 0 → s.mem.size < target.toNat + 32 →
        step t = .next (t.turnTaken.raise .eRange target.toNat)) ∧
      (t.turnTaken.raise .eAlign target.toNat).errPc = target ∧
      (t.turnTaken.raise .eRange target.toNat).errPc = target)

/-- 40_control_move.md R144: the compared register, the four unsigned conditions, both outcomes, and the bad index. -/
def Obligations.BrfBranches : Prop :=
  ∀ (s : State) (irq rsel : Bool) (cond : Cond) (a : BitVec 5) (target imm : Word),
    (rsel = false ∨ a.toNat ≤ 3 →
      let x := (if rsel then resultReg s.res (a.setWidth 2) else fieldReg s.f a).toNat
      let y := imm.toNat
      let taken : Prop := (cond = .eq ∧ x = y) ∨ (cond = .ne ∧ x ≠ y) ∨ (cond = .ltu ∧ x < y) ∨ (cond = .geu ∧ y ≤ x)
      (taken → exec (.brf irq rsel cond a target imm) s =
        .next { s with pc := target, irqStatus := s.irqAfter irq }) ∧
      (¬ taken → exec (.brf irq rsel cond a target imm) s =
        .next { s with pc := s.pc + 32#32, irqStatus := s.irqAfter irq })) ∧
    (rsel = true → 3 < a.toNat →
      exec (.brf irq rsel cond a target imm) s = .next (s.raise .eParam a.toNat))

/-- 40_control_move.md R145, 10_state.md R46: F[A] takes the immediate, and no other register does. -/
def Obligations.SetfWritesOneField : Prop :=
  ∀ (s : State) (irq : Bool) (a : BitVec 5) (imm : Word), ∃ t : State,
    exec (.setf irq a imm) s = .next t ∧
    t = { s with f := t.f, pc := s.pc + 32#32, irqStatus := s.irqAfter irq } ∧
    fieldReg t.f a = imm ∧ ∀ b : BitVec 5, b ≠ a → fieldReg t.f b = fieldReg s.f b

/-! ## Raw moves -/

/-- 40_control_move.md R146. -/
def Obligations.CopyMovesBytes : Prop :=
  ∀ (s : State) (irq : Bool) (src len dst : Word), s.mem.wf = true →
    s.spanOK ⟨src.toNat, len.toNat⟩ = true → s.spanOK ⟨dst.toNat, len.toNat⟩ = true →
    overlap ⟨src.toNat, len.toNat⟩ ⟨dst.toNat, len.toNat⟩ = false →
    ∃ t, exec (.copy irq src len dst) s = .next t ∧ completed s t irq len.toNat 0 0 0 ∧
      t.mem.readBytes dst.toNat len.toNat = s.mem.readBytes src.toNat len.toNat ∧
      sameOutside s.mem t.mem ⟨dst.toNat, len.toNat⟩

/-- 40_control_move.md R147, its range error included. -/
def Obligations.FillStoresOneValue : Prop :=
  ∀ (s : State) (irq : Bool) (dst len : Word) (value : Byte), s.mem.wf = true →
    (s.spanOK ⟨dst.toNat, len.toNat⟩ = true →
      ∃ t, exec (.fill irq dst len value) s = .next t ∧ completed s t irq len.toNat 0 0 0 ∧
        (∀ k < len.toNat, t.mem.read (dst.toNat + k) = value) ∧
        sameOutside s.mem t.mem ⟨dst.toNat, len.toNat⟩) ∧
    (s.spanOK ⟨dst.toNat, len.toNat⟩ = false →
      exec (.fill irq dst len value) s = .next (s.raise .eRange dst.toNat))

/-! ## RLE: the functions -/

/-- 41_rle.md R170, R171: a packet's bytes, in numbers; Dec accepts exactly the inputs that begin with legal packets
giving L bytes, and fails at the offset of the packet that does not fit. -/
def Obligations.DecAcceptsPacketStreams : Prop :=
  (packetBytes [] = [] ∧ ∀ ps : List Packet,
    (∀ bs : List Byte, 1 ≤ bs.length → bs.length ≤ 128 →
      ∃ c : Byte, c.toNat = bs.length - 1 ∧ packetBytes (.verbatim bs :: ps) = c :: bs ++ packetBytes ps) ∧
    ∀ (n : Nat) (b : Byte), 1 ≤ n → n ≤ 128 →
      ∃ c : Byte, c.toNat = 128 + (n - 1) ∧ packetBytes (.repeated n b :: ps) = c :: b :: packetBytes ps) ∧
  ∀ (inp : List Byte) (l : Nat),
    (∀ (out : List Byte) (p np : Nat), dec inp l = .ok out p np ↔
      ∃ ps, decodesTo inp l ps ∧ out = expandAll ps ∧ p = (packetBytes ps).length ∧ np = ps.length) ∧
    (∀ q : Nat, dec inp l = .fail q ↔ ∃ ps, breaksAfter inp l ps ∧ q = (packetBytes ps).length)

/-- 41_rle.md R180 (a), (d): decoding what the encoder made, whatever bytes follow it, gives the source back. -/
def Obligations.DecInvertsEnc : Prop :=
  (∀ (bs tail : List Byte) (lmax r : Nat), 1 ≤ lmax → lmax ≤ 128 → (r = 2 ∨ r = 3) →
    dec (packetBytes (enc bs lmax r) ++ tail) bs.length =
      .ok bs (packetBytes (enc bs lmax r)).length (enc bs lmax r).length) ∧
  (∀ lmax r : Nat, enc [] lmax r = []) ∧ ∀ inp : List Byte, dec inp 0 = .ok [] 0 0

/-- 41_rle.md R180 (b), (c), (e), (f), and R172's greedy choices: a run at the head that is long enough becomes one repeat
packet of as many bytes as Lmax allows; bytes at which no such run begins become one verbatim packet, which ends at
Lmax bytes, at the end of the source, or where such a run begins. -/
def Obligations.EncPacketAndLengthBounds : Prop :=
  ∀ (bs : List Byte) (lmax r : Nat), 1 ≤ lmax → lmax ≤ 128 → (r = 2 ∨ r = 3) →
    (∀ p ∈ enc bs lmax r, 1 ≤ p.run ∧ p.run ≤ lmax ∧ ∀ n b, p = .repeated n b → r ≤ n) ∧
    (bs.IsChain (· ≠ ·) → ∀ p ∈ enc bs lmax r, ∃ lit, p = .verbatim lit) ∧
    (packetBytes (enc bs lmax r)).length ≤ 2 * bs.length ∧
    (r = 3 → (packetBytes (enc bs lmax r)).length ≤ bs.length + (bs.length + lmax - 1) / lmax) ∧
    (∀ (b : Byte) (k : Nat), r ≤ k → k ≤ lmax → (k = lmax ∨ bs.head? ≠ some b) →
      enc (List.replicate k b ++ bs) lmax r = .repeated k b :: enc bs lmax r) ∧
    ∀ lit : List Byte, 1 ≤ lit.length → lit.length ≤ lmax →
      (∀ i < lit.length, lmax < r ∨ ∀ b, ¬ List.replicate r b <+: (lit ++ bs).drop i) →
      (lit.length = lmax ∨ bs = [] ∨ (r ≤ lmax ∧ ∃ b, List.replicate r b <+: bs)) →
      enc (lit ++ bs) lmax r = .verbatim lit :: enc bs lmax r

/-! ## RLE: the descriptors -/

/-- 41_rle.md R175, when the source holds the stream. -/
def Obligations.RleDecDecodes : Prop :=
  ∀ (s : State) (irq : Bool) (src slen dst len : Word) (ps : List Packet), s.mem.wf = true →
    checksPass (.rleDec irq src slen dst len) s = true →
    decodesTo (s.mem.readBytes src.toNat slen.toNat) len.toNat ps →
    ∃ t, exec (.rleDec irq src slen dst len) s = .next t ∧
      completed s t irq (packetBytes ps).length len.toNat ps.length 0 ∧
      t.mem.readBytes dst.toNat len.toNat = expandAll ps ∧
      sameOutside s.mem t.mem ⟨dst.toNat, len.toNat⟩

/-- 41_rle.md R178, when the source holds the planes' streams. -/
def Obligations.RleDecpDecodes : Prop :=
  ∀ (s : State) (irq : Bool) (b : Nat) (dbe plsb : Bool) (src slen dst n : Word) (pss : List (List Packet)),
    s.mem.wf = true → countOK b = true → checksPass (.rleDecp irq b dbe plsb src slen dst n) s = true →
    pss.length = b → planesDecode (s.mem.readBytes src.toNat slen.toNat) n.toNat pss →
    let sig := fun j : Nat => if plsb then j else b - 1 - j
    ∃ t, exec (.rleDecp irq b dbe plsb src slen dst n) s = .next t ∧
      completed s t irq (packetBytes pss.flatten).length (n.toNat * b) pss.flatten.length 0 ∧
      (∀ i < n.toNat, ∀ j < b,
        (pss.map expandAll)[j]?.bind (·[i]?) =
          some (t.mem.read (dst.toNat + i * b + (if dbe then b - 1 - sig j else sig j)))) ∧
      sameOutside s.mem t.mem ⟨dst.toNat, n.toNat * b⟩

/-- 41_rle.md R175, R178, 60_exceptions.md R272, R275: a stream that breaks raises E_CORRUPT at its offset, in whichever
plane, and no byte outside the destination range changes. -/
def Obligations.BrokenStreamsRaiseCorrupt : Prop :=
  (∀ (s : State) (irq : Bool) (src slen dst len : Word) (ps : List Packet),
    checksPass (.rleDec irq src slen dst len) s = true →
    breaksAfter (s.mem.readBytes src.toNat slen.toNat) len.toNat ps →
    ∃ t, exec (.rleDec irq src slen dst len) s = .next t ∧ errored s t .eCorrupt (packetBytes ps).length ∧
      t.f = s.f ∧ sameOutside s.mem t.mem ⟨dst.toNat, len.toNat⟩) ∧
  (∀ (s : State) (irq : Bool) (b : Nat) (dbe plsb : Bool) (src slen dst n : Word) (pss : List (List Packet))
      (ps : List Packet),
    checksPass (.rleDecp irq b dbe plsb src slen dst n) s = true → pss.length < b →
    planesDecode (s.mem.readBytes src.toNat slen.toNat) n.toNat pss →
    breaksAfter ((s.mem.readBytes src.toNat slen.toNat).drop (packetBytes pss.flatten).length) n.toNat ps →
    ∃ t, exec (.rleDecp irq b dbe plsb src slen dst n) s = .next t ∧
      errored s t .eCorrupt ((packetBytes pss.flatten).length + (packetBytes ps).length) ∧
      t.f = s.f ∧ sameOutside s.mem t.mem ⟨dst.toNat, n.toNat * b⟩)

/-- 41_rle.md R174, R176: what RLE_ENC stores, raw fallback included, and E_CAPACITY with nothing stored. -/
def Obligations.RleEncEncodes : Prop :=
  ∀ (s : State) (irq fb : Bool) (src n dst cap p0 : Word) (lmax r : Nat), s.mem.wf = true →
    encParams p0 = some (lmax, r) → checksPass (.rleEnc irq fb src n dst cap p0) s = true →
    let source := s.mem.readBytes src.toNat n.toNat
    let e := enc source lmax r
    let raw := fb = true ∧ n.toNat ≤ (packetBytes e).length
    let out := if raw then source else packetBytes e
    (out.length ≤ cap.toNat →
      ∃ t, exec (.rleEnc irq fb src n dst cap p0) s = .next t ∧
        completed s t irq out.length (if raw then 1 else 0) (packetBytes e).length e.length ∧
        t.mem.readBytes dst.toNat out.length = out ∧ sameOutside s.mem t.mem ⟨dst.toNat, out.length⟩) ∧
    (cap.toNat < out.length →
      exec (.rleEnc irq fb src n dst cap p0) s = .next (s.raise .eCapacity out.length))

/-- 41_rle.md R174, R177, R179: RLE_ENCP codes the planes one after the other; the raw form is the source bytes in their
own order. -/
def Obligations.RleEncpEncodesPlanes : Prop :=
  ∀ (s : State) (irq : Bool) (b : Nat) (sbe plsb fb : Bool) (src n dst cap p0 : Word) (lmax r : Nat),
    s.mem.wf = true → countOK b = true → encParams p0 = some (lmax, r) →
    checksPass (.rleEncp irq b sbe plsb fb src n dst cap p0) s = true →
    let source := s.mem.readBytes src.toNat (n.toNat * b)
    let plane := fun j : Nat => (List.range n.toNat).map fun i =>
      s.mem.read (src.toNat + i * b + (if sbe then b - 1 - (if plsb then j else b - 1 - j)
        else (if plsb then j else b - 1 - j)))
    let e := ((List.range b).map fun j => enc (plane j) lmax r).flatten
    let raw := fb = true ∧ n.toNat * b ≤ (packetBytes e).length
    let out := if raw then source else packetBytes e
    (out.length ≤ cap.toNat →
      ∃ t, exec (.rleEncp irq b sbe plsb fb src n dst cap p0) s = .next t ∧
        completed s t irq out.length (if raw then 1 else 0) (packetBytes e).length e.length ∧
        t.mem.readBytes dst.toNat out.length = out ∧ sameOutside s.mem t.mem ⟨dst.toNat, out.length⟩) ∧
    (cap.toNat < out.length →
      exec (.rleEncp irq b sbe plsb fb src n dst cap p0) s = .next (s.raise .eCapacity out.length))

/-- 41_rle.md R173, R180 (a), on the machine: RLE_ENC and then RLE_DEC of what it stored restores the source bytes. -/
def Obligations.RleDecRestoresWhatRleEncStored : Prop :=
  ∀ (s : State) (irq irq' : Bool) (src n dst cap p0 out : Word) (lmax r : Nat), s.inv = true →
    encParams p0 = some (lmax, r) → checksPass (.rleEnc irq false src n dst cap p0) s = true →
    (packetBytes (enc (s.mem.readBytes src.toNat n.toNat) lmax r)).length ≤ cap.toNat →
    s.spanOK ⟨out.toNat, n.toNat⟩ = true → overlap ⟨dst.toNat, cap.toNat⟩ ⟨out.toNat, n.toNat⟩ = false →
    ∃ t u, exec (.rleEnc irq false src n dst cap p0) s = .next t ∧
      exec (.rleDec irq' dst (resultReg t.res 0#2) out n) t = .next u ∧
      completed t u irq' (resultReg t.res 0#2).toNat n.toNat (resultReg t.res 3#2).toNat 0 ∧
      u.mem.readBytes out.toNat n.toNat = s.mem.readBytes src.toNat n.toNat

/-- 41_rle.md R177 to R179, on the machine: the planes decode back to the samples they were made of. -/
def Obligations.RleDecpRestoresWhatRleEncpStored : Prop :=
  ∀ (s : State) (irq irq' : Bool) (b : Nat) (be plsb : Bool) (src n dst cap p0 out : Word) (lmax r : Nat),
    s.inv = true → countOK b = true → encParams p0 = some (lmax, r) →
    checksPass (.rleEncp irq b be plsb false src n dst cap p0) s = true →
    (packetBytes (encPlanes s.mem src.toNat n.toNat b be plsb lmax r)).length ≤ cap.toNat →
    s.spanOK ⟨out.toNat, n.toNat * b⟩ = true →
    overlap ⟨dst.toNat, cap.toNat⟩ ⟨out.toNat, n.toNat * b⟩ = false →
    ∃ t u, exec (.rleEncp irq b be plsb false src n dst cap p0) s = .next t ∧
      exec (.rleDecp irq' b be plsb dst (resultReg t.res 0#2) out n) t = .next u ∧
      completed t u irq' (resultReg t.res 0#2).toNat (n.toNat * b) (resultReg t.res 3#2).toNat 0 ∧
      u.mem.readBytes out.toNat (n.toNat * b) = s.mem.readBytes src.toNat (n.toNat * b)

/-! ## Bit-depth conversion -/

/-- 43_pack.md R231, its formula's meaning and its properties (a) to (f). -/
def Obligations.RoundIsNearestLevel : Prop :=
  ∀ v n m : Nat, 1 ≤ n → n ≤ 32 → 1 ≤ m → m ≤ 32 → v < 2 ^ n →
    (2 * convRound v n m * (2 ^ n - 1) ≤ 2 * v * (2 ^ m - 1) + (2 ^ n - 1) ∧
      2 * v * (2 ^ m - 1) + (2 ^ n - 1) < 2 * (convRound v n m + 1) * (2 ^ n - 1)) ∧
    convRound 0 n m = 0 ∧ convRound (2 ^ n - 1) n m = 2 ^ m - 1 ∧ convRound v n n = v ∧
    (∀ u ≤ v, convRound u n m ≤ convRound v n m) ∧ convRound v n m < 2 ^ m ∧
    (n = 8 → m = 1 → (convRound v n m = 1 ↔ 128 ≤ v))

/-- 43_pack.md R232: bit by bit from the top, Rep repeats the bits of v from the top; hence its properties. -/
def Obligations.RepReplicatesBits : Prop :=
  ∀ v n m : Nat, 1 ≤ n → n ≤ 32 → 1 ≤ m → m ≤ 32 → v < 2 ^ n →
    convRep v n m < 2 ^ m ∧
    (∀ i < m, (convRep v n m).testBit (m - 1 - i) = v.testBit (n - 1 - i % n)) ∧
    convRep 0 n m = 0 ∧ convRep (2 ^ n - 1) n m = 2 ^ m - 1 ∧ convRep v n n = v ∧
    (m < n → convRep v n m = v / 2 ^ (n - m))

/-- 43_pack.md R233, R234. -/
def Obligations.BitconvConverts : Prop :=
  ∀ (s : State) (irq : Bool) (wi wo : Nat) (sbe dbe rep inv : Bool) (src n dst p0 p1 : Word), s.mem.wf = true →
    countOK wi = true → countOK wo = true →
    checksPass (.bitconv irq wi wo sbe dbe rep inv src n dst p0 p1) s = true →
    let si := if p1.toNat % 2 ^ 16 = 0 then wi else p1.toNat % 2 ^ 16
    let so := if p1.toNat / 2 ^ 16 = 0 then wo else p1.toNat / 2 ^ 16
    let depth := p0.toNat % 64
    let depth' := p0.toNat / 2 ^ 8 % 64
    ∃ t, exec (.bitconv irq wi wo sbe dbe rep inv src n dst p0 p1) s = .next t ∧ completed s t irq n.toNat 0 0 0 ∧
      (∀ i < n.toNat,
        let v := s.mem.readUInt (src.toNat + i * si) wi sbe / 2 ^ (p0.toNat / 2 ^ 16 % 32) % 2 ^ depth
        let o := if rep then convRep v depth depth' else convRound v depth depth'
        t.mem.readUInt (dst.toNat + i * so) wo dbe = if inv then 2 ^ depth' - 1 - o else o) ∧
      sameExcept s.mem t.mem fun a => ∃ i < n.toNat, dst.toNat + i * so ≤ a ∧ a < dst.toNat + i * so + wo

/-! ## Channels, planes, rows, sub-byte elements -/

/-- 43_pack.md R235, R236, in place included. -/
def Obligations.ReorderPermutesChannels : Prop :=
  ∀ (s : State) (irq : Bool) (w c : Nat) (src n dst p0 : Word), s.mem.wf = true →
    checksPass (.reorder irq w c src n dst p0) s = true →
    ∃ t, exec (.reorder irq w c src n dst p0) s = .next t ∧ completed s t irq n.toNat 0 0 0 ∧
      (∀ i < n.toNat, ∀ k < c,
        t.mem.readBytes (dst.toNat + i * c * w + k * w) w =
          s.mem.readBytes (src.toNat + i * c * w + (p0.toNat / 4 ^ k % 4) * w) w) ∧
      sameOutside s.mem t.mem ⟨dst.toNat, n.toNat * c * w⟩

/-- 43_pack.md R237. -/
def Obligations.DeinterleaveMakesPlanes : Prop :=
  ∀ (s : State) (irq : Bool) (w c : Nat) (src n dst pp : Word), s.mem.wf = true →
    checksPass (.deinterleave irq w c src n dst pp) s = true →
    let pitch := if pp.toNat = 0 then n.toNat * w else pp.toNat
    ∃ t, exec (.deinterleave irq w c src n dst pp) s = .next t ∧ completed s t irq n.toNat pitch 0 0 ∧
      (∀ k < c, ∀ i < n.toNat,
        t.mem.readBytes (dst.toNat + k * pitch + i * w) w = s.mem.readBytes (src.toNat + (i * c + k) * w) w) ∧
      sameExcept s.mem t.mem fun a =>
        ∃ k < c, dst.toNat + k * pitch ≤ a ∧ a < dst.toNat + k * pitch + n.toNat * w

/-- 43_pack.md R238. -/
def Obligations.InterleaveMakesPixels : Prop :=
  ∀ (s : State) (irq : Bool) (w c : Nat) (src n dst pp : Word), s.mem.wf = true →
    checksPass (.interleave irq w c src n dst pp) s = true →
    let pitch := if pp.toNat = 0 then n.toNat * w else pp.toNat
    ∃ t, exec (.interleave irq w c src n dst pp) s = .next t ∧ completed s t irq n.toNat pitch 0 0 ∧
      (∀ k < c, ∀ i < n.toNat,
        t.mem.readBytes (dst.toNat + (i * c + k) * w) w = s.mem.readBytes (src.toNat + k * pitch + i * w) w) ∧
      sameOutside s.mem t.mem ⟨dst.toNat, n.toNat * c * w⟩

/-- 43_pack.md R238's corner case: INTERLEAVE after DEINTERLEAVE into a disjoint buffer restores the pixels. -/
def Obligations.InterleaveRestoresDeinterleaved : Prop :=
  ∀ (s : State) (irq irq' : Bool) (w c : Nat) (src n dst pp out : Word), s.mem.wf = true →
    checksPass (.deinterleave irq w c src n dst pp) s = true →
    checksPass (.interleave irq' w c dst n out pp) s = true →
    ∃ t u, exec (.deinterleave irq w c src n dst pp) s = .next t ∧
      exec (.interleave irq' w c dst n out pp) t = .next u ∧
      u.mem.readBytes out.toNat (n.toNat * c * w) = s.mem.readBytes src.toNat (n.toNat * c * w)

/-- 43_pack.md R239: the flipped rows, that flipping twice restores the memory, and the one range's error. -/
def Obligations.RowflipReversesRows : Prop :=
  ∀ (s : State) (irq : Bool) (base rows len pitch : Word), s.mem.wf = true →
    let p := if pitch.toNat = 0 then len.toNat else pitch.toNat
    let hullLen := if rows.toNat = 0 then 0 else (rows.toNat - 1) * p + len.toNat
    len.toNat ≤ p →
    (base.toNat + hullLen ≤ s.mem.size →
      ∃ t u, exec (.rowflip irq base rows len pitch) s = .next t ∧ completed s t irq (rows.toNat / 2) 0 0 0 ∧
        (∀ y < rows.toNat,
          t.mem.readBytes (base.toNat + y * p) len.toNat =
            s.mem.readBytes (base.toNat + (rows.toNat - 1 - y) * p) len.toNat) ∧
        (sameExcept s.mem t.mem fun a =>
          ∃ y < rows.toNat, base.toNat + y * p ≤ a ∧ a < base.toNat + y * p + len.toNat) ∧
        exec (.rowflip irq base rows len pitch) t = .next u ∧ u.mem = s.mem) ∧
    (s.mem.size < base.toNat + hullLen →
      exec (.rowflip irq base rows len pitch) s = .next (s.raise .eRange base.toNat))

/-- 43_pack.md R240, R241. -/
def Obligations.UnpacksubExpandsElements : Prop :=
  ∀ (s : State) (irq : Bool) (bc : BitVec 2) (lsbf : Bool) (src n dst rows ps pd : Word), s.mem.wf = true →
    checksPass (.unpacksub irq bc lsbf src n dst rows ps pd) s = true →
    let b := 2 ^ bc.toNat
    let sp := if ps.toNat = 0 then (n.toNat * b + 31) / 32 * 4 else ps.toNat
    let dp := if pd.toNat = 0 then n.toNat else pd.toNat
    ∃ t, exec (.unpacksub irq bc lsbf src n dst rows ps pd) s = .next t ∧
      completed s t irq (rows.toNat * n.toNat) sp dp 0 ∧
      (∀ y < rows.toNat, ∀ j < n.toNat,
        (t.mem.read (dst.toNat + y * dp + j)).toNat =
          (s.mem.read (src.toNat + y * sp + j * b / 8)).toNat /
            2 ^ (if lsbf then j * b % 8 else 8 - b - j * b % 8) % 2 ^ b) ∧
      sameExcept s.mem t.mem fun a =>
        ∃ y < rows.toNat, dst.toNat + y * dp ≤ a ∧ a < dst.toNat + y * dp + n.toNat

/-- 43_pack.md R240, R242: each element's bits, and zero in every bit of a row that no element holds. -/
def Obligations.PacksubPacksElements : Prop :=
  ∀ (s : State) (irq : Bool) (bc : BitVec 2) (lsbf : Bool) (src n dst rows ps pd : Word), s.mem.wf = true →
    checksPass (.packsub irq bc lsbf src n dst rows ps pd) s = true →
    let b := 2 ^ bc.toNat
    let sp := if ps.toNat = 0 then n.toNat else ps.toNat
    let dp := if pd.toNat = 0 then (n.toNat * b + 31) / 32 * 4 else pd.toNat
    let sh := fun j : Nat => if lsbf then j * b % 8 else 8 - b - j * b % 8
    ∃ t, exec (.packsub irq bc lsbf src n dst rows ps pd) s = .next t ∧
      completed s t irq (rows.toNat * n.toNat) sp dp 0 ∧
      (∀ y < rows.toNat, ∀ j < n.toNat,
        (t.mem.read (dst.toNat + y * dp + j * b / 8)).toNat / 2 ^ sh j % 2 ^ b =
          (s.mem.read (src.toNat + y * sp + j)).toNat % 2 ^ b) ∧
      (∀ y < rows.toNat, ∀ x < dp, ∀ u < 8,
        (∀ j < n.toNat, j * b / 8 = x → u < sh j ∨ sh j + b ≤ u) →
        (t.mem.read (dst.toNat + y * dp + x)).toNat.testBit u = false) ∧
      sameOutside s.mem t.mem ⟨dst.toNat, rows.toNat * dp⟩

/-- 43_pack.md R242's corner case: UNPACKSUB after PACKSUB, with the pitches exchanged, gives the low bits back. -/
def Obligations.UnpacksubRestoresPacked : Prop :=
  ∀ (s : State) (irq irq' : Bool) (bc : BitVec 2) (lsbf : Bool) (src n dst rows ps pd out : Word), s.mem.wf = true →
    checksPass (.packsub irq bc lsbf src n dst rows ps pd) s = true →
    checksPass (.unpacksub irq' bc lsbf dst n out rows pd ps) s = true →
    let sp := if ps.toNat = 0 then n.toNat else ps.toNat
    ∃ t u, exec (.packsub irq bc lsbf src n dst rows ps pd) s = .next t ∧
      exec (.unpacksub irq' bc lsbf dst n out rows pd ps) t = .next u ∧
      ∀ y < rows.toNat, ∀ j < n.toNat,
        (u.mem.read (out.toNat + y * sp + j)).toNat =
          (s.mem.read (src.toNat + y * sp + j)).toNat % 2 ^ 2 ^ bc.toNat

/-! ## Headers -/

/-- 42_header.md R203: what a field is loaded as, and that storing it again writes the bytes it was loaded from; with
ReadUInt and WriteUInt of 00_scope.md R11 byte by byte, in both byte orders. -/
def Obligations.LoadedFieldKeepsItsBytes : Prop :=
  (∀ (m : Memory) (a w v : Nat) (be : Bool),
    m.readUInt a w be < 256 ^ w ∧ (uintBytes w be v).length = w ∧
    ∀ k < w,
      m.readUInt a w be / 256 ^ (if be then w - 1 - k else k) % 256 = (m.read (a + k)).toNat ∧
      ∃ b : Byte, (uintBytes w be v)[k]? = some b ∧ b.toNat = v / 256 ^ (if be then w - 1 - k else k) % 256) ∧
  ∀ (m : Memory) (hdr : Nat) (e : Entry), e.ok = true →
    let raw := m.readUInt (hdr + e.off) e.width e.be
    let v := loadValue m hdr e
    (e.zmap = true → raw = 0 → v.toNat = 256 ^ e.width) ∧
    (e.signed = true →
      v.toInt = if raw < 256 ^ e.width / 2 then (raw : Int) else (raw : Int) - (256 ^ e.width : Nat)) ∧
    (e.signed = false → (e.zmap = false ∨ raw ≠ 0) → v.toNat = raw) ∧
    uintBytes e.width e.be v.toNat = m.readBytes (hdr + e.off) e.width

/-- 42_header.md R205 on a header that passes: F after the writes of all K entries in order. -/
def Obligations.HdrLoadAcceptsHeader : Prop :=
  ∀ (s : State) (irq : Bool) (hdr hlen tbl k : Word),
    s.spanOK ⟨tbl.toNat, 16 * k.toNat⟩ = true → s.spanOK ⟨hdr.toNat, hlen.toNat⟩ = true →
    (∀ j < k.toNat, entryFits s.mem tbl.toNat hlen.toNat j = true) →
    (∀ j < k.toNat, entryPasses s.mem hdr.toNat tbl.toNat s.f j = true) →
    ∃ t, exec (.hdrLoad irq hdr hlen tbl k) s = .next t ∧
      t = { s with
        f := fieldsAfter s.mem hdr.toNat tbl.toNat s.f k.toNat
        res := #v[k, 0#32, 0#32, 0#32]
        pc := s.pc + 32#32
        irqStatus := s.irqAfter irq } ∧
      ∀ a : BitVec 5, (∀ j < k.toNat, (entryAt s.mem tbl.toNat j).idx ≠ a) → fieldReg t.f a = fieldReg s.f a

/-- 42_header.md R205, 60_exceptions.md R272, R273, R275: HDR_LOAD's errors in their order: the two ranges, pass 1 with
no effect, and the first failing check of pass 2, whose writes up to its entry stay. -/
def Obligations.HdrLoadRejectsHeader : Prop :=
  ∀ (s : State) (irq : Bool) (hdr hlen tbl k : Word),
    (s.spanOK ⟨tbl.toNat, 16 * k.toNat⟩ = false →
      exec (.hdrLoad irq hdr hlen tbl k) s = .next (s.raise .eRange tbl.toNat)) ∧
    (s.spanOK ⟨tbl.toNat, 16 * k.toNat⟩ = true → s.spanOK ⟨hdr.toNat, hlen.toNat⟩ = false →
      exec (.hdrLoad irq hdr hlen tbl k) s = .next (s.raise .eRange hdr.toNat)) ∧
    (s.spanOK ⟨tbl.toNat, 16 * k.toNat⟩ = true → s.spanOK ⟨hdr.toNat, hlen.toNat⟩ = true →
      ∀ j < k.toNat,
        ((∀ j' < j, entryFits s.mem tbl.toNat hlen.toNat j' = true) →
          ((entryAt s.mem tbl.toNat j).ok = false →
            exec (.hdrLoad irq hdr hlen tbl k) s = .next (s.raise .eParam j)) ∧
          ((entryAt s.mem tbl.toNat j).ok = true → entryFits s.mem tbl.toNat hlen.toNat j = false →
            exec (.hdrLoad irq hdr hlen tbl k) s = .next (s.raise .eMalformed j))) ∧
        ((∀ j' < k.toNat, entryFits s.mem tbl.toNat hlen.toNat j' = true) →
          (∀ j' < j, entryPasses s.mem hdr.toNat tbl.toNat s.f j' = true) →
          entryPasses s.mem hdr.toNat tbl.toNat s.f j = false →
          exec (.hdrLoad irq hdr hlen tbl k) s = .next
            { s.raise .eMalformed j with f := fieldsAfter s.mem hdr.toNat tbl.toNat s.f (j + 1) }))

/-- 42_header.md R200 to R202 and R204: where an entry's words lie, the bits of E0's fields, EntryOK as R202's list of
conditions on those bits, and the six checks, on the numbers their rows name. -/
def Obligations.ChecksAsTabled : Prop :=
  (∀ (m : Memory) (tbl j : Nat),
    let le := fun a : Nat => (m.read a).toNat + 2 ^ 8 * (m.read (a + 1)).toNat + 2 ^ 16 * (m.read (a + 2)).toNat +
      2 ^ 24 * (m.read (a + 3)).toNat
    (entryAt m tbl j).e0.toNat = le (tbl + 16 * j) ∧ (entryAt m tbl j).a.toNat = le (tbl + 16 * j + 4) ∧
    (entryAt m tbl j).b.toNat = le (tbl + 16 * j + 8)) ∧
  (∀ e : Entry,
    let x := e.e0.toNat
    let wc := x / 2 ^ 16 % 4
    let chk := x / 2 ^ 26 % 8
    e.off = x % 2 ^ 16 ∧ (wc = 0 → e.width = 1) ∧ (wc = 1 → e.width = 2) ∧ (wc = 2 → e.width = 4) ∧
    (e.be = true ↔ x / 2 ^ 18 % 2 = 1) ∧ (e.signed = true ↔ x / 2 ^ 19 % 2 = 1) ∧
    (e.zmap = true ↔ x / 2 ^ 20 % 2 = 1) ∧ e.idx.toNat = x / 2 ^ 21 % 32 ∧ e.chk = chk ∧
    (e.ok = true ↔ x / 2 ^ 29 = 0 ∧ wc ≠ 3 ∧ chk ≤ 5 ∧ ¬ (x / 2 ^ 19 % 2 = 1 ∧ x / 2 ^ 20 % 2 = 1) ∧
      ¬ (x / 2 ^ 20 % 2 = 1 ∧ wc = 2) ∧ (chk = 4 ∨ chk = 5 → e.a.toNat ≤ 31))) ∧
  ∀ (e : Entry) (v : Word) (f : Vector Word 32),
    let num := fun x : Word => if e.signed then x.toInt else (x.toNat : Int)
    (e.chk = 0 → e.check v f = true) ∧
    (e.chk = 1 → (e.check v f = true ↔ v = e.a)) ∧
    (e.chk = 2 → (e.check v f = true ↔ num e.a ≤ num v ∧ num v ≤ num e.b)) ∧
    (e.chk = 3 → (e.check v f = true ↔
      (v.toNat < 32 ∧ e.a.getLsbD v.toNat = true) ∨
        (32 ≤ v.toNat ∧ v.toNat < 64 ∧ e.b.getLsbD (v.toNat - 32) = true))) ∧
    (∀ a : BitVec 5, e.a.toNat = a.toNat →
      (e.chk = 4 → (e.check v f = true ↔ num v ≤ num (fieldReg f a))) ∧
      (e.chk = 5 → (e.check v f = true ↔ num (fieldReg f a) ≤ num v)))

/-- 42_header.md R207: each stored byte comes from the last entry that covers it, no other byte changes, and a bad entry
stores nothing. -/
def Obligations.HdrStoreSerializesFields : Prop :=
  ∀ (s : State) (irq : Bool) (hdr hlen tbl k : Word), s.mem.wf = true →
    checksPass (.hdrStore irq hdr hlen tbl k) s = true →
    ((∀ j < k.toNat, entryFits s.mem tbl.toNat hlen.toNat j = true) →
      ∃ t, exec (.hdrStore irq hdr hlen tbl k) s = .next t ∧ completed s t irq k.toNat 0 0 0 ∧
        (∀ j < k.toNat, ∀ x < (entryAt s.mem tbl.toNat j).width,
          let e := entryAt s.mem tbl.toNat j
          (∀ j' < k.toNat, j < j' →
            (Span.mk (entryAt s.mem tbl.toNat j').off (entryAt s.mem tbl.toNat j').width).has (e.off + x) = false) →
          some (t.mem.read (hdr.toNat + e.off + x)) =
            (uintBytes e.width e.be (fieldReg s.f e.idx).toNat)[x]?) ∧
        sameExcept s.mem t.mem fun a => ∃ j < k.toNat, hdr.toNat + (entryAt s.mem tbl.toNat j).off ≤ a ∧
          a < hdr.toNat + (entryAt s.mem tbl.toNat j).off + (entryAt s.mem tbl.toNat j).width) ∧
    (∀ j < k.toNat, (∀ j' < j, entryFits s.mem tbl.toNat hlen.toNat j' = true) →
      entryFits s.mem tbl.toNat hlen.toNat j = false →
      exec (.hdrStore irq hdr hlen tbl k) s = .next (s.raise .eParam j))

/-- 42_header.md R207's lossless round trip: where every header byte lies in exactly one field, no two entries share a
register and every check passes, HDR_STORE after HDR_LOAD writes the header's bytes. That entries share no register
is a premise the rule leaves unsaid. -/
def Obligations.HdrStoreReproducesLoadedHeader : Prop :=
  ∀ (s : State) (irq irq' : Bool) (hdr hlen tbl k out : Word), s.mem.wf = true →
    s.spanOK ⟨tbl.toNat, 16 * k.toNat⟩ = true → s.spanOK ⟨hdr.toNat, hlen.toNat⟩ = true →
    s.spanOK ⟨out.toNat, hlen.toNat⟩ = true →
    overlap ⟨tbl.toNat, 16 * k.toNat⟩ ⟨out.toNat, hlen.toNat⟩ = false →
    (∀ j < k.toNat, entryFits s.mem tbl.toNat hlen.toNat j = true) →
    (∀ j < k.toNat, entryPasses s.mem hdr.toNat tbl.toNat s.f j = true) →
    (∀ j < k.toNat, ∀ j' < k.toNat, (entryAt s.mem tbl.toNat j).idx = (entryAt s.mem tbl.toNat j').idx → j = j') →
    (∀ x < hlen.toNat, ∃ j < k.toNat,
      (Span.mk (entryAt s.mem tbl.toNat j).off (entryAt s.mem tbl.toNat j).width).has x = true ∧
      ∀ j' < k.toNat,
        (Span.mk (entryAt s.mem tbl.toNat j').off (entryAt s.mem tbl.toNat j').width).has x = true → j' = j) →
    ∃ t u, exec (.hdrLoad irq hdr hlen tbl k) s = .next t ∧ exec (.hdrStore irq' out hlen tbl k) t = .next u ∧
      u.mem.readBytes out.toNat hlen.toNat = s.mem.readBytes hdr.toNat hlen.toNat

/-! ## Chunks -/

/-- 42_header.md R208, R209: the first wanted chunk, after any number of whole chunks that are not wanted. -/
def Obligations.ChunkFindFindsFirst : Prop :=
  ∀ (s : State) (irq : Bool) (g : BitVec 2) (opt : Bool) (region rlen tag : Word) (i : Nat), s.mem.wf = true →
    s.spanOK ⟨region.toNat, rlen.toNat⟩ = true →
    let stop := region.toNat + rlen.toNat
    let c := chunkAddr s.mem (2 ^ g.toNat) region.toNat stop i
    chunksSkipped s.mem (2 ^ g.toNat) region.toNat stop tag.toNat i → chunkFits s.mem stop c →
    (tag.toNat = 0 ∨ chunkTag s.mem c = tag.toNat) →
    ∃ t, exec (.chunkFind irq g opt region rlen tag) s = .next t ∧ t.mem = s.mem ∧
      completed s t irq (c + 8) (chunkLen s.mem c)
        (min (c + 8 + (chunkLen s.mem c + 2 ^ g.toNat - 1) / 2 ^ g.toNat * 2 ^ g.toNat) stop) (chunkTag s.mem c) ∧
      8 ≤ (resultReg t.res 0#2).toNat ∧ (resultReg t.res 0#2).toNat + (resultReg t.res 1#2).toNat ≤ stop

/-- 42_header.md R209: a walk that ends with no wanted chunk, a chunk that overruns the region, and the region's own
range. -/
def Obligations.ChunkFindEndsWithoutMatch : Prop :=
  ∀ (s : State) (irq : Bool) (g : BitVec 2) (opt : Bool) (region rlen tag : Word),
    let stop := region.toNat + rlen.toNat
    let at_ := chunkAddr s.mem (2 ^ g.toNat) region.toNat stop
    (s.spanOK ⟨region.toNat, rlen.toNat⟩ = false →
      exec (.chunkFind irq g opt region rlen tag) s = .next (s.raise .eRange region.toNat)) ∧
    (s.spanOK ⟨region.toNat, rlen.toNat⟩ = true → ∀ i : Nat,
      chunksSkipped s.mem (2 ^ g.toNat) region.toNat stop tag.toNat i →
      (stop - at_ i < 8 →
        (opt = true → ∃ t, exec (.chunkFind irq g opt region rlen tag) s = .next t ∧ t.mem = s.mem ∧
          completed s t irq 0 0 stop 0) ∧
        (opt = false → exec (.chunkFind irq g opt region rlen tag) s = .next (s.raise .eMalformed 0xFFFFFFFF))) ∧
      (8 ≤ stop - at_ i → stop - at_ i - 8 < chunkLen s.mem (at_ i) →
        exec (.chunkFind irq g opt region rlen tag) s = .next (s.raise .eCorrupt (at_ i))))

/-! ## Errors -/

/-- 60_exceptions.md R271 to R273: a parameter that no rule defines raises before any range is looked at, with the word
R272 names. Which parameters those are, of each descriptor and in numbers: 40_control_move.md R144, 41_rle.md R173,
43_pack.md R233, R235, R237 to R242; parameters inside the limits fail no check. -/
def Obligations.BadParametersRaiseFirst : Prop :=
  (∀ (i : Instr) (s : State) (code : ErrCode) (info : Nat), paramError i = some (code, info) →
    exec i s = .next (s.raise code info) ∧ (code = .eParam ∨ code = .eType)) ∧
  (∀ (irq rsel : Bool) (cond : Cond) (a : BitVec 5) (target imm : Word),
    paramError (.brf irq rsel cond a target imm) =
      if rsel = true ∧ 3 < a.toNat then some (.eParam, a.toNat) else none) ∧
  (∀ (irq fb : Bool) (b : Nat) (sbe plsb : Bool) (src n dst cap p0 : Word),
    let maxrun := p0.toNat % 2 ^ 8
    let rmin := p0.toNat / 2 ^ 8 % 2 ^ 8
    (128 < maxrun ∨ (rmin ≠ 2 ∧ rmin ≠ 3) →
      paramError (.rleEnc irq fb src n dst cap p0) = some (.eParam, p0.toNat) ∧
      paramError (.rleEncp irq b sbe plsb fb src n dst cap p0) = some (.eParam, p0.toNat)) ∧
    (maxrun ≤ 128 → (rmin = 2 ∨ rmin = 3) →
      encParams p0 = some (if maxrun = 0 then 128 else maxrun, rmin) ∧
      paramError (.rleEnc irq fb src n dst cap p0) = none ∧
      paramError (.rleEncp irq b sbe plsb fb src n dst cap p0) = none)) ∧
  (∀ (irq : Bool) (wi wo : Nat) (sbe dbe rep inv : Bool) (src n dst p0 p1 : Word),
    let depth := p0.toNat % 64
    let depth' := p0.toNat / 2 ^ 8 % 64
    let shift := p0.toNat / 2 ^ 16 % 32
    let si := p1.toNat % 2 ^ 16
    let so := p1.toNat / 2 ^ 16
    paramError (.bitconv irq wi wo sbe dbe rep inv src n dst p0 p1) =
      if depth = 0 ∨ 32 < depth ∨ depth' = 0 ∨ 32 < depth' ∨ 8 * wi < shift + depth ∨ 8 * wo < depth' then
        some (.eType, p0.toNat)
      else if (si ≠ 0 ∧ si < wi) ∨ (so ≠ 0 ∧ so < wo) then some (.eParam, p1.toNat)
      else none) ∧
  (∀ (irq : Bool) (w c : Nat) (src n dst p0 : Word),
    ((∃ k < c, c ≤ p0.toNat / 4 ^ k % 4) →
      paramError (.reorder irq w c src n dst p0) = some (.eParam, p0.toNat)) ∧
    ((∀ k < c, p0.toNat / 4 ^ k % 4 < c) → paramError (.reorder irq w c src n dst p0) = none)) ∧
  (∀ (irq : Bool) (w c : Nat) (src n dst pp : Word),
    let e := if pp.toNat ≠ 0 ∧ pp.toNat < n.toNat * w then some (ErrCode.eParam, pp.toNat) else none
    paramError (.deinterleave irq w c src n dst pp) = e ∧ paramError (.interleave irq w c src n dst pp) = e) ∧
  (∀ (irq : Bool) (base rows len pitch : Word),
    paramError (.rowflip irq base rows len pitch) =
      if pitch.toNat ≠ 0 ∧ pitch.toNat < len.toNat then some (.eParam, pitch.toNat) else none) ∧
  (∀ (irq : Bool) (bc : BitVec 2) (lsbf : Bool) (src n dst rows ps pd : Word),
    let rowBytes := (n.toNat * 2 ^ bc.toNat + 7) / 8
    let flags := 2 ^ 8 * irq.toNat + 2 ^ 16 * (3 + 4 * lsbf.toNat)
    paramError (.unpacksub irq bc lsbf src n dst rows ps pd) =
      (if bc = 3#2 then some (.eParam, 0x25 + flags)
      else if ps.toNat ≠ 0 ∧ ps.toNat < rowBytes then some (.eParam, ps.toNat)
      else if pd.toNat ≠ 0 ∧ pd.toNat < n.toNat then some (.eParam, pd.toNat)
      else none) ∧
    paramError (.packsub irq bc lsbf src n dst rows ps pd) =
      (if bc = 3#2 then some (.eParam, 0x26 + flags)
      else if ps.toNat ≠ 0 ∧ ps.toNat < n.toNat then some (.eParam, ps.toNat)
      else if pd.toNat ≠ 0 ∧ pd.toNat < rowBytes then some (.eParam, pd.toNat)
      else none)) ∧
  ∀ (irq : Bool) (a : BitVec 5) (x1 x2 x3 x4 : Word) (value : Byte) (b : Nat) (g : BitVec 2) (y z : Bool),
    ∀ i ∈ [Instr.nop irq, .stop irq, .jump irq x1, .setf irq a x1, .copy irq x1 x2 x3, .fill irq x1 x2 value,
      .rleDec irq x1 x2 x3 x4, .rleDecp irq b y z x1 x2 x3 x4, .hdrLoad irq x1 x2 x3 x4,
      .hdrStore irq x1 x2 x3 x4, .chunkFind irq g y x1 x2 x3], paramError i = none

/-- 20_memory.md R82 to R84, 60_exceptions.md R272, R273: source range, destination range, overlap, in this order, each
with the start address it names, and nothing written. The two ranges of each descriptor that has both, in numbers:
R83's hull, and the ranges that 40_control_move.md R146, 41_rle.md R175 to R179, 43_pack.md R234 to R242 and
42_header.md R207 name; REORDER with src = dst is the one that may overlap. The two tests that a range lies in `M`
(R82) and that two ranges overlap (R84) say exactly what their rules say. -/
def Obligations.BadRangesRaiseInOrder : Prop :=
  (∀ (s : State) (x y : Span),
    (s.spanOK x = true ↔ x.start + x.len ≤ s.mem.size) ∧
    (overlap x y = true ↔
      0 < x.len ∧ 0 < y.len ∧ x.start < y.start + y.len ∧ y.start < x.start + x.len)) ∧
  (∀ (i : Instr) (s : State) (src dst : Span), paramError i = none → checkedRanges i = some (src, dst) →
    (s.mem.size < src.start + src.len → exec i s = .next (s.raise .eRange src.start)) ∧
    (src.start + src.len ≤ s.mem.size → s.mem.size < dst.start + dst.len →
      exec i s = .next (s.raise .eRange dst.start)) ∧
    (src.start + src.len ≤ s.mem.size → dst.start + dst.len ≤ s.mem.size → runsInPlace i = false →
      0 < src.len → 0 < dst.len → src.start < dst.start + dst.len → dst.start < src.start + src.len →
      exec i s = .next (s.raise .eOverlap dst.start))) ∧
  (∀ i : Instr, runsInPlace i = true ↔ ∃ irq w c src n p0, i = .reorder irq w c src n src p0) ∧
  (∀ (irq fb : Bool) (b : Nat) (y z : Bool) (src slen dst len p0 : Word),
    checkedRanges (.copy irq src len dst) = some (⟨src.toNat, len.toNat⟩, ⟨dst.toNat, len.toNat⟩) ∧
    checkedRanges (.rleDec irq src slen dst len) = some (⟨src.toNat, slen.toNat⟩, ⟨dst.toNat, len.toNat⟩) ∧
    checkedRanges (.rleEnc irq fb src slen dst len p0) =
      some (⟨src.toNat, slen.toNat⟩, ⟨dst.toNat, len.toNat⟩) ∧
    checkedRanges (.rleDecp irq b y z src slen dst len) =
      some (⟨src.toNat, slen.toNat⟩, ⟨dst.toNat, len.toNat * b⟩) ∧
    checkedRanges (.rleEncp irq b y z fb src slen dst len p0) =
      some (⟨src.toNat, slen.toNat * b⟩, ⟨dst.toNat, len.toNat⟩) ∧
    checkedRanges (.hdrStore irq dst len src slen) =
      some (⟨src.toNat, 16 * slen.toNat⟩, ⟨dst.toNat, len.toNat⟩)) ∧
  (∀ (irq : Bool) (wi wo : Nat) (sbe dbe rep inv : Bool) (src n dst p0 p1 : Word),
    let si := if p1.toNat % 2 ^ 16 = 0 then wi else p1.toNat % 2 ^ 16
    let so := if p1.toNat / 2 ^ 16 = 0 then wo else p1.toNat / 2 ^ 16
    checkedRanges (.bitconv irq wi wo sbe dbe rep inv src n dst p0 p1) =
      some (⟨src.toNat, if n.toNat = 0 then 0 else (n.toNat - 1) * si + wi⟩,
        ⟨dst.toNat, if n.toNat = 0 then 0 else (n.toNat - 1) * so + wo⟩)) ∧
  (∀ (irq : Bool) (w c : Nat) (src n dst p : Word),
    let pitch := if p.toNat = 0 then n.toNat * w else p.toNat
    let planes := if n.toNat = 0 then 0 else (c - 1) * pitch + n.toNat * w
    checkedRanges (.reorder irq w c src n dst p) =
      some (⟨src.toNat, n.toNat * c * w⟩, ⟨dst.toNat, n.toNat * c * w⟩) ∧
    checkedRanges (.deinterleave irq w c src n dst p) =
      some (⟨src.toNat, n.toNat * c * w⟩, ⟨dst.toNat, planes⟩) ∧
    checkedRanges (.interleave irq w c src n dst p) =
      some (⟨src.toNat, planes⟩, ⟨dst.toNat, n.toNat * c * w⟩)) ∧
  ∀ (irq : Bool) (bc : BitVec 2) (lsbf : Bool) (src n dst rows ps pd : Word),
    let b := 2 ^ bc.toNat
    let padded := (n.toNat * b + 31) / 32 * 4
    let pitch := fun (p : Word) (dflt : Nat) => if p.toNat = 0 then dflt else p.toNat
    let span := fun (p len : Nat) => if rows.toNat = 0 then 0 else (rows.toNat - 1) * p + len
    checkedRanges (.unpacksub irq bc lsbf src n dst rows ps pd) =
      some (⟨src.toNat, span (pitch ps padded) ((n.toNat * b + 7) / 8)⟩,
        ⟨dst.toNat, span (pitch pd n.toNat) n.toNat⟩) ∧
    checkedRanges (.packsub irq bc lsbf src n dst rows ps pd) =
      some (⟨src.toNat, span (pitch ps n.toNat) n.toNat⟩, ⟨dst.toNat, rows.toNat * pitch pd padded⟩)

/-- 60_exceptions.md R274, R275: error entry field by field, what any error leaves, whichever descriptor raised it, and
what a failed fetch or decode leaves. -/
def Obligations.ErrorsArePrecise : Prop :=
  (∀ (s : State) (code : ErrCode) (info : Nat), s.raise code info =
    { s with
      errPc := s.pc
      errInfo := BitVec.ofNat 32 info
      status := ⟨false, false, true, code⟩
      irqStatus := s.irqStatus ||| 2#3 }) ∧
  (∀ (i : Instr) (s t : State), s.status.legal = true → s.status.busy = true → exec i s = .next t →
    t.status.err = true →
    errored s t t.status.code t.errInfo.toNat ∧ t.status.code ≠ .noError ∧
    ((t.status.code ≠ .eCorrupt ∧ t.status.code ≠ .eMalformed) → t.mem = s.mem ∧ t.f = s.f) ∧
    (∀ irq g opt region rlen tag, i = .chunkFind irq g opt region rlen tag → t.mem = s.mem ∧ t.f = s.f) ∧
    (t.status.code = .eCorrupt → t.f = s.f ∧
      (∀ irq src slen dst len, i = .rleDec irq src slen dst len →
        sameOutside s.mem t.mem ⟨dst.toNat, len.toNat⟩) ∧
      (∀ irq b dbe plsb src slen dst n, i = .rleDecp irq b dbe plsb src slen dst n →
        sameOutside s.mem t.mem ⟨dst.toNat, n.toNat * b⟩)) ∧
    (t.status.code = .eMalformed → t.mem = s.mem ∧
      ∀ irq hdr hlen tbl k, i = .hdrLoad irq hdr hlen tbl k →
        ∃ j < k.toNat, t.errInfo.toNat = j ∧
          ((entryFits s.mem tbl.toNat hlen.toNat j = false ∧ t.f = s.f) ∨
            (entryPasses s.mem hdr.toNat tbl.toNat s.f j = false ∧
              t.f = fieldsAfter s.mem hdr.toNat tbl.toNat s.f (j + 1))))) ∧
  ∀ (s t : State) (code : ErrCode) (info : Nat), s.engineNext = true → s.status.busy = true →
    s.fetchDecode = .error (code, info) → step s = .next t →
    errored s.turnTaken t code info ∧ t.mem = s.mem ∧ t.f = s.f ∧
      (code = .eAlign ∨ code = .eRange ∨ code = .eIllegal)

/-! ## The whole machine -/

/-- The invariant of `State.inv`: canonical memory of a legal size (20_memory.md R80, 00_scope.md R7), a legal STATUS
(10_state.md R37), ERR_PC and ERR_INFO 0 unless ERR = 1 (R35, R40, R41). -/
def Obligations.StepKeepsInvariant : Prop :=
  ∀ s t : State, s.inv = true → step s = .next t → t.inv = true

/-- The invariant holds at reset. -/
def Obligations.ResetHasInvariant : Prop := State.reset.inv = true

/-- 70_reset_and_hazards.md R311, R312: the machine goes on unless HOST breaks a duty; no descriptor ever stops it. The
duties are given in numbers. That a broken duty is a stop by name, and by which name, is the model's choice (log 6). -/
def Obligations.OnlyBrokenDutiesStop : Prop :=
  (∀ s : State, (∃ t, step s = .next t) ↔ s.nextTurnOK = true) ∧
  (∀ s : State, s.engineNext = true → s.nextTurnOK = true) ∧
  (∀ (s : State) (act : HostAct) (rest : List Turn), s.turns = .host act :: rest →
    (∀ (off : BitVec 12) (width : Nat), (act = .regRead off width ∨ ∃ v, act = .regWrite off width v) →
      (s.nextTurnOK = true ↔ width = 4 ∧ off.toNat % 4 = 0) ∧
      (¬ (width = 4 ∧ off.toNat % 4 = 0) → step s = .refused .hostRegisterAccess)) ∧
    (∀ (a : Word) (width : Nat), (act = .memRead a width ∨ ∃ v, act = .memWrite a width v) →
      let aligned := (width = 1 ∨ width = 2 ∨ width = 4) ∧ a.toNat % width = 0
      (s.nextTurnOK = true ↔ aligned ∧ s.status.busy = false) ∧
      (¬ aligned → step s = .refused .hostMemoryAccess) ∧
      (aligned → s.status.busy = true → step s = .fault .hostRace)) ∧
    ((act = .hardReset ∨ ∃ m0, act = .powerOn m0) → s.nextTurnOK = true)) ∧
  ∀ (i : Instr) (s : State), ∃ t, exec i s = .next t

/-- 10_state.md R38. -/
def Obligations.BusyChangesOnlyAsListed : Prop :=
  ∀ s t : State, step s = .next t →
    (s.status.busy = false → t.status.busy = true →
      ∃ v rest, s.turns = .host (.regWrite 0x004#12 4 v) :: rest ∧ v.getLsbD 0 = true ∧ v.getLsbD 1 = false) ∧
    (s.status.busy = true → t.status.busy = false →
      (s.engineNext = true ∧ ((∃ irq, s.fetchDecode = .ok (.stop irq)) ∨ t.status.err = true)) ∨
      (∃ v rest, s.turns = .host (.regWrite 0x004#12 4 v) :: rest ∧ v.getLsbD 1 = true) ∨
      (∃ rest, s.turns = .host .hardReset :: rest) ∨ (∃ m0 rest, s.turns = .host (.powerOn m0) :: rest))

/-- 10_state.md R45, R46, R49, 60_exceptions.md R280: who writes F, RES0..RES3 and STATUS, and what no descriptor writes. -/
def Obligations.RegistersChangeOnlyAsListed : Prop :=
  ∀ (i : Instr) (s t : State), exec i s = .next t →
    (t.f ≠ s.f → (∃ irq a imm, i = .setf irq a imm) ∨ (∃ irq hdr hlen tbl k, i = .hdrLoad irq hdr hlen tbl k)) ∧
    (t.res ≠ s.res → i.isControl = false ∧ t.status = s.status) ∧
    (t.status ≠ s.status → (∃ irq, i = .stop irq) ∨ t = { s.raise t.status.code t.errInfo.toNat with
      mem := t.mem, f := t.f, freeCount := t.freeCount }) ∧
    t.irqEnable = s.irqEnable ∧ t.turns = s.turns ∧ t.hostData = s.hostData ∧ t.mem.size = s.mem.size ∧
    s.irqStatus &&& ~~~t.irqStatus = 0#3

/-- 30_encoding.md R113, R114: W0.IRQ sets IRQ_STATUS.DESC when the descriptor completes, and changes nothing else of what
it computes. (E_PARAM of a sub-byte width of 8, which only UNPACKSUB and PACKSUB raise, reports W0 itself, the IRQ bit
included; every other error is the same.) -/
def Obligations.IrqBitOnlyLatchesDesc : Prop :=
  ∀ (i : Instr) (s t u : State), s.status.legal = true → s.status.busy = true → exec i s = .next t →
    exec i.noIrq s = .next u →
    (u.status.err = false → t = { u with irqStatus := u.irqStatus ||| (if i.irqBit then irqDesc else 0#3) }) ∧
    (u.status.err = true →
      (∀ lsbf src n dst rows ps pd,
        i = .unpacksub true 3#2 lsbf src n dst rows ps pd ∨ i = .packsub true 3#2 lsbf src n dst rows ps pd →
        t = { u with errInfo := u.errInfo ||| 0x100#32 }) ∧
      ((∀ lsbf src n dst rows ps pd,
        i ≠ .unpacksub true 3#2 lsbf src n dst rows ps pd ∧ i ≠ .packsub true 3#2 lsbf src n dst rows ps pd) →
        t = u))

/-- 70_reset_and_hazards.md R310: how an ENGINE step leaves a run: still running, ended by STOP, or ended by an error,
each as STATUS shows it. -/
def Obligations.RunEndsAsStatusShows : Prop :=
  ∀ s t : State, s.inv = true → s.status.busy = true → s.engineNext = true → step s = .next t →
    (t.status.word = 1#32) ∨
    (t.status.word = 2#32 ∧ t.pc.toNat = s.pc.toNat + 32 ∧ ∃ irq, s.fetchDecode = .ok (.stop irq)) ∨
    (t.pc = s.pc ∧ t.errPc = s.pc ∧ ∃ code : ErrCode, code ≠ .noError ∧
      t.status.word = 4#32 ||| (BitVec.ofNat 32 code.num <<< 8))

/-! ## HOST -/

/-- 10_state.md R33. That a read's data is delivered in `hostData` is the model's choice (log 7). -/
def Obligations.IdIsConstant : Prop :=
  (∀ (s : State) (rest : List Turn), s.turns = .host (.regRead 0x000#12 4) :: rest →
    step s = .next { s with turns := rest, hostData := 0x524C4531#32 }) ∧
  (∀ (s : State) (v : Word) (rest : List Turn), s.turns = .host (.regWrite 0x000#12 4 v) :: rest →
    step s = .next { s with turns := rest }) ∧
  (uintBytes 4 true 0x524C4531).map (fun b => Char.ofNat b.toNat) = ['R', 'L', 'E', '1']

/-- 10_state.md R31, R32, R33, 60_exceptions.md R271: the registers HOST reads, the number of each error code, and 0 at
every other offset. That a read's data is delivered in `hostData` is the model's choice (log 7). -/
def Obligations.RegisterReadsFollowMap : Prop :=
  (ErrCode.noError.num = 0 ∧ ErrCode.eIllegal.num = 1 ∧ ErrCode.eAlign.num = 2 ∧ ErrCode.eRange.num = 3 ∧
    ErrCode.eParam.num = 4 ∧ ErrCode.eOverlap.num = 5 ∧ ErrCode.eCapacity.num = 6 ∧ ErrCode.eCorrupt.num = 7 ∧
    ErrCode.eMalformed.num = 8 ∧ ErrCode.eType.num = 9) ∧
  ∀ (s : State) (off : BitVec 12) (rest : List Turn), off.toNat % 4 = 0 →
    s.turns = .host (.regRead off 4) :: rest →
    ∃ v : Word, step s = .next { s with turns := rest, hostData := v } ∧
      (off = 0x000#12 → v = 0x524C4531#32) ∧ (off = 0x004#12 → v = 0#32) ∧
      (off = 0x008#12 → v.toNat % 2 = s.status.busy.toNat ∧ v.toNat / 2 % 2 = s.status.done.toNat ∧
        v.toNat / 4 % 2 = s.status.err.toNat ∧ v.toNat / 8 % 32 = 0 ∧ v.toNat / 2 ^ 8 = s.status.code.num) ∧
      (off = 0x00C#12 → v = s.pc) ∧ (off = 0x010#12 → v = s.errPc) ∧ (off = 0x014#12 → v = s.errInfo) ∧
      (off = 0x018#12 → v.toNat = s.irqStatus.toNat) ∧ (off = 0x01C#12 → v.toNat = s.irqEnable.toNat) ∧
      (∀ i : BitVec 2, off.toNat = 0x020 + 4 * i.toNat → v = resultReg s.res i) ∧
      (off = 0x030#12 → s.mem.size < 2 ^ 32 → v.toNat = s.mem.size) ∧
      (∀ i : BitVec 5, off.toNat = 0x100 + 4 * i.toNat → v = fieldReg s.f i) ∧
      (0x030 < off.toNat → off.toNat < 0x100 → v = 0#32) ∧ (0x180 ≤ off.toNat → v = 0#32)

/-- 10_state.md R34 to R36, 70_reset_and_hazards.md R302: the four cases of a CTRL write. That SRESET keeps the model's
own fields `turns`, `hostData` and `freeCount` is the model's choice (log 18). -/
def Obligations.CtrlStartsOrResets : Prop :=
  ∀ (s : State) (v : Word) (rest : List Turn), s.turns = .host (.regWrite 0x004#12 4 v) :: rest →
    (v.getLsbD 1 = true → step s = .next
      { State.reset with mem := s.mem, turns := rest, hostData := s.hostData, freeCount := s.freeCount }) ∧
    (v.getLsbD 1 = false → v.getLsbD 0 = true → s.status.busy = false → step s = .next
      { s with turns := rest, status := ⟨true, false, false, .noError⟩, errPc := 0#32, errInfo := 0#32 }) ∧
    (v.getLsbD 1 = false → v.getLsbD 0 = true → s.status.busy = true → step s = .next { s with turns := rest }) ∧
    (v.getLsbD 1 = false → v.getLsbD 0 = false → step s = .next { s with turns := rest })

/-- 10_state.md R31, R32, R39, R46, R47: DESC_PC and F take HOST's word while BUSY = 0 and keep theirs while BUSY = 1; a
write of a read-only register or of an unlisted offset has no effect. -/
def Obligations.HostWritesFollowMap : Prop :=
  ∀ (s : State) (v : Word) (rest : List Turn),
    (s.turns = .host (.regWrite 0x00C#12 4 v) :: rest →
      step s = .next { s with turns := rest, pc := if s.status.busy then s.pc else v }) ∧
    (∀ i : BitVec 5, s.turns = .host (.regWrite (BitVec.ofNat 12 (0x100 + 4 * i.toNat)) 4 v) :: rest →
      ∃ t, step s = .next t ∧ t = { s with turns := rest, f := t.f } ∧
        fieldReg t.f i = (if s.status.busy then fieldReg s.f i else v) ∧
        ∀ j : BitVec 5, j ≠ i → fieldReg t.f j = fieldReg s.f j) ∧
    (∀ off : BitVec 12, s.turns = .host (.regWrite off 4 v) :: rest → off.toNat % 4 = 0 →
      off.toNat ∉ [0x004, 0x00C, 0x018, 0x01C] → (off.toNat < 0x100 ∨ 0x180 ≤ off.toNat) →
      step s = .next { s with turns := rest })

/-- 10_state.md R43, and R42's bits and write 1 to clear: which bit of IRQ_STATUS each event is, the enable bits as
written and as read, busy or not, their reset value, and the level output. That a read's data is delivered in
`hostData` is the model's choice (log 7). -/
def Obligations.InterruptRegistersAct : Prop :=
  (irqDone = 1#3 ∧ irqErr = 2#3 ∧ irqDesc = 4#3) ∧
  (∀ (s : State) (v : Word) (rest : List Turn),
    (s.turns = .host (.regWrite 0x018#12 4 v) :: rest →
      ∃ t, step s = .next t ∧ t = { s with turns := rest, irqStatus := t.irqStatus } ∧
        ∀ i < 3, t.irqStatus.getLsbD i = (s.irqStatus.getLsbD i && !v.getLsbD i)) ∧
    (s.turns = .host (.regWrite 0x01C#12 4 v) :: rest →
      ∃ t, step s = .next t ∧ t = { s with turns := rest, irqEnable := t.irqEnable } ∧
        ∀ i < 3, t.irqEnable.getLsbD i = v.getLsbD i) ∧
    (s.turns = .host (.regRead 0x01C#12 4) :: rest →
      ∃ d : Word, step s = .next { s with turns := rest, hostData := d } ∧
        (∀ i < 3, d.getLsbD i = s.irqEnable.getLsbD i) ∧ ∀ i, 3 ≤ i → d.getLsbD i = false) ∧
    (s.irq = true ↔ ∃ i < 3, s.irqStatus.getLsbD i = true ∧ s.irqEnable.getLsbD i = true)) ∧
  State.reset.irqEnable = 0#3

/-- 20_memory.md R86: HOST's window while BUSY = 0, byte by byte, at the top of memory too. That a read's data is
delivered in `hostData` is the model's choice (log 7). -/
def Obligations.WindowAccessesBytes : Prop :=
  ∀ (s : State) (a v : Word) (width : Nat) (rest : List Turn), s.mem.wf = true → s.status.busy = false →
    (width = 1 ∨ width = 2 ∨ width = 4) → a.toNat % width = 0 →
    (s.turns = .host (.memRead a width) :: rest →
      ∃ d : Word, step s = .next { s with turns := rest, hostData := d } ∧
        d.toNat < 256 ^ width ∧
        (∀ k < width, BitVec.ofNat 8 (d.toNat / 256 ^ k) = s.mem.read (a.toNat + k)) ∧
        ∀ k < width, s.mem.size ≤ a.toNat + k → s.mem.read (a.toNat + k) = 0#8) ∧
    (s.turns = .host (.memWrite a width v) :: rest →
      ∃ t, step s = .next t ∧ t = { s with turns := rest, mem := t.mem } ∧
        (∀ k < width, a.toNat + k < s.mem.size →
          t.mem.read (a.toNat + k) = BitVec.ofNat 8 (v.toNat / 256 ^ k)) ∧
        sameOutside s.mem t.mem ⟨a.toNat, width⟩ ∧ t.mem.wf = true)

/-- 70_reset_and_hazards.md R300, R301, R303: every register after reset, at power-on and at a hardware reset; `M` keeps
its contents but at power-on, which takes them as an argument. State.reset's empty `M` and its size are the model's
choices (logs 1, 2). -/
def Obligations.ResetsSetRegisters : Prop :=
  (∀ s : State, s = State.reset ∨ (∃ s₀ rest, s₀.turns = .host .hardReset :: rest ∧ step s₀ = .next s) ∨
      (∃ s₀ m0 rest, s₀.turns = .host (.powerOn m0) :: rest ∧ step s₀ = .next s) →
    s.status.word = 0#32 ∧ s.pc = 0#32 ∧ s.errPc = 0#32 ∧ s.errInfo = 0#32 ∧ s.irqStatus = 0#3 ∧
    s.irqEnable = 0#3 ∧ (∀ i, resultReg s.res i = 0#32) ∧ (∀ i, fieldReg s.f i = 0#32) ∧ s.irq = false) ∧
  (∀ (s : State) (rest : List Turn), s.turns = .host .hardReset :: rest →
    ∃ t, step s = .next t ∧ t.mem = s.mem) ∧
  (∀ (s : State) (m0 : List Host.Cell) (rest : List Turn), s.turns = .host (.powerOn m0) :: rest →
    4096 ≤ s.mem.size → s.mem.size ≤ 2 ^ 31 → s.mem.size % 32 = 0 → m0.Pairwise (fun c d => c.1 < d.1) →
    ∃ t, step s = .next t ∧ t.mem.size = s.mem.size ∧ t.mem.wf = true ∧
      ∀ c ∈ m0, c.1 < s.mem.size → t.mem.read c.1 = c.2)
end

