-- ==== Sys2Proof/Laws/Bytes.lean ====
section
/-! SUPPORT. Byte order: a number comes back from its bytes, and bytes from their number. -/

namespace Sys2Proof

@[simp] theorem leBytes_length (w v : Nat) : (leBytes w v).length = w := by
  induction w generalizing v with
  | zero => rfl
  | succ w ih => simp [leBytes, ih]

@[simp] theorem uintBytes_length (w : Nat) (be : Bool) (v : Nat) : (uintBytes w be v).length = w := by
  unfold uintBytes; split <;> simp

theorem leNat_leBytes (w v : Nat) : leNat (leBytes w v) = v % 256 ^ w := by
  induction w generalizing v with
  | zero => simp [leBytes, leNat, Nat.mod_one]
  | succ w ih =>
    rw [leBytes, leNat, ih, BitVec.toNat_ofNat, pow_succ' 256, Nat.mod_mul (a := 256)]

theorem leNat_lt (bs : List Byte) : leNat bs < 256 ^ bs.length := by
  induction bs with
  | nil => simp [leNat]
  | cons b bs ih =>
    have hb : b.toNat < 256 := b.isLt
    rw [leNat, List.length_cons, pow_succ']
    omega

theorem leBytes_leNat (bs : List Byte) : leBytes bs.length (leNat bs) = bs := by
  induction bs with
  | nil => rfl
  | cons b bs ih =>
    have hb : b.toNat < 256 := b.isLt
    rw [List.length_cons, leBytes, leNat]
    congr 1
    · apply BitVec.eq_of_toNat_eq
      rw [BitVec.toNat_ofNat]
      norm_num
      omega
    · rw [show (b.toNat + 256 * leNat bs) / 256 = leNat bs by omega, ih]

/-- ReadUInt of what WriteUInt stored (00_scope.md R11). -/
theorem uintOfBytes_uintBytes (w : Nat) (be : Bool) (v : Nat) :
    uintOfBytes be (uintBytes w be v) = v % 256 ^ w := by
  cases be <;> simp [uintOfBytes, uintBytes, leNat_leBytes]

/-- WriteUInt of what ReadUInt read (00_scope.md R11). -/
theorem uintBytes_uintOfBytes (be : Bool) (bs : List Byte) :
    uintBytes bs.length be (uintOfBytes be bs) = bs := by
  cases be
  · simp [uintOfBytes, uintBytes, leBytes_leNat]
  · have := leBytes_leNat bs.reverse
    rw [List.length_reverse] at this
    simp [uintOfBytes, uintBytes, this]

/-- A word comes back from its four bytes (30_encoding.md R110). -/
theorem ofNat_leNat_leBytes (w : Word) : BitVec.ofNat 32 (leNat (leBytes 4 w.toNat)) = w := by
  apply BitVec.eq_of_toNat_eq
  have := w.isLt
  rw [leNat_leBytes, BitVec.toNat_ofNat]
  omega

@[simp] theorem bytesOfDesc_length (d : Desc) : (bytesOfDesc d).length = 32 := by
  simp [bytesOfDesc]

end Sys2Proof
end

