-- ==== Sys2Proof/Laws/Decode.lean ====
section
/-! SUPPORT. The fields of an encoded control word, and the eight words of 32 bytes. -/

namespace Sys2Proof

/-! ### The control word (30_encoding.md R110) -/

/-- Bit by bit: OP, IRQ, seven zeros, FLAGS. -/
theorem encodeW0_getLsbD (op : Opcode) (irq : Bool) (fl : BitVec 16) (k : Nat) :
    (encodeW0 op irq fl).getLsbD k =
      if k < 16 then if k < 9 then if k < 8 then op.code.getLsbD k else irq else false
      else fl.getLsbD (k - 16) := by
  have h1 : (encodeW0 op irq fl).getLsbD k = _ :=
    BitVec.getLsbD_append (x := fl) (y := 0#7 ++ (BitVec.ofBool irq ++ op.code)) (i := k)
  have h2 := BitVec.getLsbD_append (x := 0#7) (y := BitVec.ofBool irq ++ op.code) (i := k)
  have h3 := BitVec.getLsbD_append (x := BitVec.ofBool irq) (y := op.code) (i := k)
  rw [h1, h2, h3]
  split_ifs <;> first | rfl | omega | skip
  · obtain rfl : k = 8 := by omega
    cases irq <;> rfl
  · simp

theorem encodeW0_op (op : Opcode) (irq : Bool) (fl : BitVec 16) : (encodeW0 op irq fl).extractLsb' 0 8 = op.code := by
  apply BitVec.eq_of_getLsbD_eq
  intro k hk
  simp [encodeW0_getLsbD, hk, show k < 16 by omega, show k < 9 by omega]

theorem encodeW0_irq (op : Opcode) (irq : Bool) (fl : BitVec 16) : (encodeW0 op irq fl).getLsbD 8 = irq := by
  rw [encodeW0_getLsbD]; rfl

theorem encodeW0_rsv (op : Opcode) (irq : Bool) (fl : BitVec 16) : (encodeW0 op irq fl).extractLsb' 9 7 = 0#7 := by
  apply BitVec.eq_of_getLsbD_eq
  intro k hk
  simp [BitVec.getLsbD_extractLsb', encodeW0_getLsbD, show 9 + k < 16 by omega]

theorem encodeW0_flags (op : Opcode) (irq : Bool) (fl : BitVec 16) : (encodeW0 op irq fl).extractLsb' 16 16 = fl := by
  apply BitVec.eq_of_getLsbD_eq
  intro k hk
  simp [encodeW0_getLsbD, hk]

/-- Every opcode's OP value names that opcode (R117). -/
@[simp] theorem opcodeOf_code (op : Opcode) : opcodeOf op.code = some op := by cases op <;> rfl

/-- A count that fits its two bits comes back from them (R122). -/
theorem countBits_toNat {w : Nat} (h : countOK w = true) : (countBits w).toNat + 1 = w := by
  simp only [countOK, Bool.and_eq_true, decide_eq_true_eq] at h
  simp only [countBits, BitVec.toNat_ofNat]
  omega

@[simp] theorem condOf_bits (c : Cond) : condOf c.bits = c := by cases c <;> rfl

/-! ### FLAGS stay inside FLAGMASK(OP) (R115, R120) -/

/-- A number below `2^n` has no bit outside a mask of `n` ones. -/
theorem and_mask_of_lt {n : Nat} {x : BitVec 16} (h : x.toNat < 2 ^ n) :
    x &&& ~~~(BitVec.ofNat 16 (2 ^ n - 1)) = 0#16 := by
  apply BitVec.eq_of_getLsbD_eq
  intro k hk
  by_cases hkn : k < n
  · simp only [BitVec.getLsbD_and, BitVec.getLsbD_not, BitVec.getLsbD_ofNat, Nat.testBit_two_pow_sub_one]
    simp [hk, hkn]
  · have : x.getLsbD k = false :=
      Nat.testBit_lt_two_pow (lt_of_lt_of_le h (Nat.pow_le_pow_right (by norm_num) (by omega)))
    simp only [BitVec.getLsbD_and, this, Bool.false_and, BitVec.getLsbD_zero]

theorem zeros_append_toNat {p n : Nat} (x : BitVec n) : (0#p ++ x).toNat = x.toNat := by
  simp [BitVec.toNat_append]

/-- A field of `n` bits under zeros has no bit outside a mask of `n` ones. -/
theorem zeros_append_mask {p n : Nat} (hp : p + n = 16) (x : BitVec n) :
    ((0#p ++ x).cast hp) &&& ~~~(BitVec.ofNat 16 (2 ^ n - 1)) = 0#16 :=
  and_mask_of_lt (by simpa [BitVec.toNat_append] using x.isLt)

theorem flagsBrf_mask (rsel : Bool) (cond : Cond) (a : BitVec 5) :
    flagsBrf rsel cond a &&& ~~~Opcode.flagMask .brf = 0#16 :=
  zeros_append_mask (p := 8) (n := 8) rfl _

theorem flagsSetf_mask (a : BitVec 5) : flagsSetf a &&& ~~~Opcode.flagMask .setf = 0#16 :=
  zeros_append_mask (p := 11) (n := 5) rfl _

theorem flagsRleEnc_mask (fb : Bool) : flagsRleEnc fb &&& ~~~Opcode.flagMask .rleEnc = 0#16 := by
  cases fb <;> rfl

theorem flagsPlanes_mask (b : Nat) (be plsb fb : Bool) :
    flagsPlanes b be plsb fb &&& ~~~Opcode.flagMask .rleEncp = 0#16 :=
  zeros_append_mask (p := 11) (n := 5) rfl _

theorem flagsPlanes_false_mask (b : Nat) (be plsb : Bool) :
    flagsPlanes b be plsb false &&& ~~~Opcode.flagMask .rleDecp = 0#16 :=
  and_mask_of_lt (n := 4) (x := flagsPlanes b be plsb false) <| by
    have h : (flagsPlanes b be plsb false).toNat = (BitVec.ofBool plsb ++ (BitVec.ofBool be ++ countBits b)).toNat :=
      (zeros_append_toNat (p := 11) (n := 5) _).trans (zeros_append_toNat (p := 1) (n := 4) _)
    exact h ▸ BitVec.isLt _

theorem flagsBitconv_mask (wi wo : Nat) (sbe dbe rep inv : Bool) :
    flagsBitconv wi wo sbe dbe rep inv &&& ~~~Opcode.flagMask .bitconv = 0#16 :=
  zeros_append_mask (p := 8) (n := 8) rfl _

/-- REORDER, DEINTERLEAVE and INTERLEAVE have the same mask. -/
theorem flagsChannels_mask (w c : Nat) : flagsChannels w c &&& ~~~(0x000F#16) = 0#16 :=
  zeros_append_mask (p := 12) (n := 4) rfl _

/-- UNPACKSUB, PACKSUB and CHUNK_FIND have the same mask. -/
theorem flagsTwoOne_mask (x : BitVec 2) (y : Bool) : flagsTwoOne x y &&& ~~~(0x0007#16) = 0#16 :=
  zeros_append_mask (p := 13) (n := 3) rfl _

/-! ### Words and bytes -/

theorem wordAt_append_left {xs ys : List Byte} {off : Nat} (h : off + 4 ≤ xs.length) :
    wordAt (xs ++ ys) off = wordAt xs off := by
  unfold wordAt
  rw [List.drop_append_of_le_length (by omega), List.take_append_of_le_length (by simp; omega)]

theorem wordAt_append_right {xs : List Byte} (w : Word) {off : Nat} (h : xs.length = off) :
    wordAt (xs ++ leBytes 4 w.toNat) off = w := by
  subst h
  unfold wordAt
  rw [List.drop_left, List.take_of_length_le (by simp)]
  exact ofNat_leNat_leBytes w

/-- The eight words come back from the 32 bytes (R110). -/
theorem descOfBytes_bytesOfDesc (d : Desc) : descOfBytes (bytesOfDesc d) = d := by
  obtain ⟨w0, w1, w2, w3, w4, w5, w6, w7⟩ := d
  simp only [descOfBytes, bytesOfDesc, Desc.mk.injEq]
  refine ⟨?_, ?_, ?_, ?_, ?_, ?_, ?_, ?_⟩
  · rw [wordAt_append_left (by simp), wordAt_append_left (by simp), wordAt_append_left (by simp),
      wordAt_append_left (by simp), wordAt_append_left (by simp), wordAt_append_left (by simp),
      wordAt_append_left (by simp)]
    exact ofNat_leNat_leBytes w0
  · rw [wordAt_append_left (by simp), wordAt_append_left (by simp), wordAt_append_left (by simp),
      wordAt_append_left (by simp), wordAt_append_left (by simp), wordAt_append_left (by simp)]
    exact wordAt_append_right _ (by simp)
  · rw [wordAt_append_left (by simp), wordAt_append_left (by simp), wordAt_append_left (by simp),
      wordAt_append_left (by simp), wordAt_append_left (by simp)]
    exact wordAt_append_right _ (by simp)
  · rw [wordAt_append_left (by simp), wordAt_append_left (by simp), wordAt_append_left (by simp),
      wordAt_append_left (by simp)]
    exact wordAt_append_right _ (by simp)
  · rw [wordAt_append_left (by simp), wordAt_append_left (by simp), wordAt_append_left (by simp)]
    exact wordAt_append_right _ (by simp)
  · rw [wordAt_append_left (by simp), wordAt_append_left (by simp)]
    exact wordAt_append_right _ (by simp)
  · rw [wordAt_append_left (by simp)]
    exact wordAt_append_right _ (by simp)
  · exact wordAt_append_right _ (by simp)

/-- Decoding the bytes of a descriptor decodes its words. -/
theorem decodeBytes_bytesOfDesc (d : Desc) : decodeBytes (bytesOfDesc d) = decode d := by
  simp [decodeBytes, descOfBytes_bytesOfDesc]

/-- A control word built for an opcode, its FLAGS inside the mask, decodes to that opcode's operands. -/
theorem decode_of_encodeW0 {d : Desc} {op : Opcode} {irq : Bool} {fl : BitVec 16} (h : d.w0 = encodeW0 op irq fl)
    (hm : fl &&& ~~~op.flagMask = 0#16) : decode d = .ok (operandsOf d op) := by
  have h1 : d.op = op.code := by rw [Desc.op, h, encodeW0_op]
  have h2 : d.rsv = 0#7 := by rw [Desc.rsv, h, encodeW0_rsv]
  have h3 : d.flags = fl := by rw [Desc.flags, h, encodeW0_flags]
  simp [decode, h1, h2, h3, hm]

end Sys2Proof
end

