-- ==== Sys2Proof/Laws/Memory.lean ====
section
/-! SUPPORT. What the memory operations do: reads after writes, the canonical form, and lists of cells. -/

namespace Sys2Proof.Machine

/-! ### Cell lists -/

theorem cellsRead_of_lt {size lo a : Nat} {cs : List Host.Cell} (h : cellsWf size lo cs = true) (ha : a < lo) :
    cellsRead cs a = Config.unlistedByte := by
  induction cs generalizing lo with
  | nil => rfl
  | cons c rest ih =>
    obtain ⟨k, v⟩ := c
    simp only [cellsWf, Bool.and_eq_true, decide_eq_true_eq] at h
    have hk : k ≠ a := by omega
    simp only [cellsRead, hk, if_false]
    exact ih h.2 (by omega)

theorem cellsRead_cellsWrite_ne {cs : List Host.Cell} {a b : Nat} {v : Byte} (hab : a ≠ b) :
    cellsRead (cellsWrite cs a v) b = cellsRead cs b := by
  induction cs with
  | nil =>
    unfold cellsWrite
    split <;> simp [cellsRead, hab]
  | cons c rest ih =>
    obtain ⟨k, w⟩ := c
    unfold cellsWrite
    split_ifs with h1 h2 h3 h4
    · rfl
    · simp [cellsRead, hab]
    · subst h3; simp [cellsRead, hab]
    · subst h3; simp [cellsRead, hab]
    · simp [cellsRead, ih]

theorem cellsRead_cellsWrite_same {size lo a : Nat} {cs : List Host.Cell} {v : Byte}
    (h : cellsWf size lo cs = true) : cellsRead (cellsWrite cs a v) a = v := by
  induction cs generalizing lo with
  | nil =>
    unfold cellsWrite
    split_ifs with hv
    · simp [cellsRead, hv]
    · simp [cellsRead]
  | cons c rest ih =>
    obtain ⟨k, w⟩ := c
    have hwf := h
    simp only [cellsWf, Bool.and_eq_true, decide_eq_true_eq] at h
    unfold cellsWrite
    split_ifs with h1 h2 h3 h4
    · have hk : k ≠ a := by omega
      simp only [cellsRead, hk, if_false, h2]
      exact cellsRead_of_lt h.2 (by omega)
    · simp [cellsRead]
    · subst h3; rw [h4]; exact cellsRead_of_lt h.2 (by omega)
    · simp [cellsRead]
    · have hk : k ≠ a := fun e => h3 e.symm
      simp only [cellsRead, hk, if_false]
      exact ih h.2

theorem cellsWf_mono {size lo lo' : Nat} {cs : List Host.Cell} (h : cellsWf size lo cs = true) (hl : lo' ≤ lo) :
    cellsWf size lo' cs = true := by
  cases cs with
  | nil => rfl
  | cons c rest =>
    obtain ⟨k, v⟩ := c
    simp only [cellsWf, Bool.and_eq_true, decide_eq_true_eq] at h ⊢
    exact ⟨⟨⟨by omega, h.1.1.2⟩, h.1.2⟩, h.2⟩

theorem cellsWrite_wf {size lo a : Nat} {cs : List Host.Cell} {v : Byte} (h : cellsWf size lo cs = true)
    (hlo : lo ≤ a) (ha : a < size) : cellsWf size lo (cellsWrite cs a v) = true := by
  induction cs generalizing lo with
  | nil =>
    unfold cellsWrite
    split_ifs with hv
    · rfl
    · simp [cellsWf, hlo, ha, hv]
  | cons c rest ih =>
    obtain ⟨k, w⟩ := c
    have hwf := h
    simp only [cellsWf, Bool.and_eq_true, decide_eq_true_eq, bne_iff_ne] at h
    unfold cellsWrite
    split_ifs with h1 h2 h3 h4
    · exact hwf
    · simp only [cellsWf, Bool.and_eq_true, decide_eq_true_eq, bne_iff_ne]
      exact ⟨⟨⟨hlo, ha⟩, h2⟩, ⟨⟨by omega, h.1.1.2⟩, h.1.2⟩, h.2⟩
    · exact cellsWf_mono h.2 (by omega)
    · simp only [cellsWf, Bool.and_eq_true, decide_eq_true_eq, bne_iff_ne]
      subst h3
      exact ⟨⟨⟨hlo, ha⟩, h4⟩, h.2⟩
    · simp only [cellsWf, Bool.and_eq_true, decide_eq_true_eq, bne_iff_ne]
      exact ⟨h.1, ih h.2 (by omega)⟩

/-! ### One byte -/

@[simp] theorem Memory.write_size (m : Memory) (a : Nat) (v : Byte) : (m.write a v).size = m.size := by
  unfold Memory.write; split <;> rfl

theorem Memory.read_write_ne {m : Memory} {a b : Nat} {v : Byte} (hab : a ≠ b) :
    (m.write a v).read b = m.read b := by
  unfold Memory.write
  split
  · simp [Memory.read, cellsRead_cellsWrite_ne hab]
  · rfl

theorem Memory.cells_wf {m : Memory} (h : m.wf = true) : cellsWf m.size 0 m.cells = true := by
  simp only [Memory.wf, Bool.and_eq_true] at h
  exact h.2

theorem Memory.read_write_same {m : Memory} {a : Nat} {v : Byte} (h : m.wf = true) (ha : a < m.size) :
    (m.write a v).read a = v := by
  simp [Memory.write, Memory.read, ha, cellsRead_cellsWrite_same (Memory.cells_wf h)]

theorem Memory.write_wf {m : Memory} (h : m.wf = true) (a : Nat) (v : Byte) : (m.write a v).wf = true := by
  unfold Memory.write
  split
  · rename_i ha
    simp only [Memory.wf, Bool.and_eq_true] at h ⊢
    exact ⟨h.1, cellsWrite_wf h.2 (Nat.zero_le _) ha⟩
  · exact h

theorem Memory.read_of_size_le {m : Memory} {a : Nat} (h : m.size ≤ a) : m.read a = 0#8 := by
  simp [Memory.read, Nat.not_lt.mpr h]

/-! ### Lists of cells -/

@[simp] theorem Memory.writeCells_nil (m : Memory) : m.writeCells [] = m := rfl

@[simp] theorem Memory.writeCells_cons (m : Memory) (c : Host.Cell) (cs : List Host.Cell) :
    m.writeCells (c :: cs) = (m.write c.1 c.2).writeCells cs := rfl

theorem Memory.writeCells_append (m : Memory) (cs ds : List Host.Cell) :
    m.writeCells (cs ++ ds) = (m.writeCells cs).writeCells ds := by
  simp [Memory.writeCells, List.foldl_append]

@[simp] theorem Memory.writeCells_size (m : Memory) (cs : List Host.Cell) : (m.writeCells cs).size = m.size := by
  induction cs generalizing m with
  | nil => rfl
  | cons c cs ih => simp [ih]

theorem Memory.writeCells_wf {m : Memory} (h : m.wf = true) (cs : List Host.Cell) :
    (m.writeCells cs).wf = true := by
  induction cs generalizing m with
  | nil => exact h
  | cons c cs ih => exact ih (Memory.write_wf h c.1 c.2)

theorem Memory.read_writeCells_of_notMem {m : Memory} {cs : List Host.Cell} {a : Nat}
    (h : ∀ c ∈ cs, c.1 ≠ a) : (m.writeCells cs).read a = m.read a := by
  induction cs generalizing m with
  | nil => rfl
  | cons c cs ih =>
    rw [Memory.writeCells_cons, ih (fun d hd => h d (List.mem_cons_of_mem _ hd))]
    exact Memory.read_write_ne (h c List.mem_cons_self)

/-- The last cell stored at an address is what it reads as. -/
theorem Memory.read_writeCells_last {m : Memory} {cs ds : List Host.Cell} {a : Nat} {v : Byte}
    (hwf : m.wf = true) (ha : a < m.size) (hds : ∀ d ∈ ds, d.1 ≠ a) :
    (m.writeCells (cs ++ (a, v) :: ds)).read a = v := by
  rw [Memory.writeCells_append, Memory.writeCells_cons, Memory.read_writeCells_of_notMem hds]
  exact Memory.read_write_same (Memory.writeCells_wf hwf cs) (by simpa using ha)

/-- Where every cell at an address agrees, that is what the address reads as. -/
theorem Memory.read_writeCells_of_mem {m : Memory} {cs : List Host.Cell} {a : Nat} {v : Byte}
    (hwf : m.wf = true) (ha : a < m.size) (hmem : (a, v) ∈ cs) (hall : ∀ w, (a, w) ∈ cs → w = v) :
    (m.writeCells cs).read a = v := by
  induction cs generalizing m with
  | nil => simp at hmem
  | cons c cs ih =>
    rw [Memory.writeCells_cons]
    by_cases hin : (a, v) ∈ cs
    · exact ih (Memory.write_wf hwf c.1 c.2) (by simpa using ha) hin
        (fun w hw => hall w (List.mem_cons_of_mem _ hw))
    · have hc : c = (a, v) := by
        rcases List.mem_cons.mp hmem with h | h
        · exact h.symm
        · exact absurd h hin
      have hno : ∀ d ∈ cs, d.1 ≠ a := by
        rintro ⟨x, w⟩ hd rfl
        exact hin (hall w (List.mem_cons_of_mem _ hd) ▸ hd)
      rw [Memory.read_writeCells_of_notMem hno, hc]
      exact Memory.read_write_same hwf ha

/-! ### Byte sequences -/

theorem mem_cellsAt {a x : Nat} {v : Byte} {bs : List Byte} :
    (x, v) ∈ cellsAt a bs ↔ ∃ k, x = a + k ∧ bs[k]? = some v := by
  induction bs generalizing a with
  | nil => simp [cellsAt]
  | cons b bs ih =>
    simp only [cellsAt, List.mem_cons, Prod.mk.injEq, ih]
    constructor
    · rintro (⟨rfl, rfl⟩ | ⟨k, rfl, hk⟩)
      · exact ⟨0, rfl, rfl⟩
      · exact ⟨k + 1, by omega, by simpa using hk⟩
    · rintro ⟨k, rfl, hk⟩
      cases k with
      | zero => exact .inl ⟨rfl, by simpa using hk.symm⟩
      | succ k => exact .inr ⟨k, by omega, by simpa using hk⟩

theorem cellsAt_key {a : Nat} {bs : List Byte} {c : Host.Cell} (h : c ∈ cellsAt a bs) :
    a ≤ c.1 ∧ c.1 < a + bs.length := by
  obtain ⟨k, hk, hb⟩ := mem_cellsAt.mp (show (c.1, c.2) ∈ cellsAt a bs from h)
  have := (List.getElem?_eq_some_iff.mp hb).1
  omega

@[simp] theorem Memory.readBytes_length (m : Memory) (a n : Nat) : (m.readBytes a n).length = n := by
  simp [Memory.readBytes]

theorem Memory.readBytes_getElem? {m : Memory} {a n k : Nat} (h : k < n) :
    (m.readBytes a n)[k]? = some (m.read (a + k)) := by
  simp [Memory.readBytes, h]

/-- MemWrite (00_scope.md R11): the bytes land at `a, a+1, …`. -/
theorem Memory.read_writeCells_cellsAt {m : Memory} {a k : Nat} {v : Byte} {bs : List Byte} (hwf : m.wf = true)
    (hk : bs[k]? = some v) (hb : a + bs.length ≤ m.size) : (m.writeCells (cellsAt a bs)).read (a + k) = v := by
  have hlen := (List.getElem?_eq_some_iff.mp hk).1
  refine Memory.read_writeCells_of_mem hwf (by omega) (mem_cellsAt.mpr ⟨k, rfl, hk⟩) ?_
  intro w hw
  obtain ⟨k', h1, h2⟩ := mem_cellsAt.mp hw
  have : k' = k := by omega
  subst this
  rw [hk] at h2
  exact (Option.some.inj h2).symm

/-- Bytes outside the sequence keep their value. -/
theorem Memory.read_writeCells_cellsAt_outside {m : Memory} {a x : Nat} {bs : List Byte}
    (h : x < a ∨ a + bs.length ≤ x) : (m.writeCells (cellsAt a bs)).read x = m.read x := by
  refine Memory.read_writeCells_of_notMem fun c hc e => ?_
  have := cellsAt_key hc
  omega

/-! ### The canonical form makes equal memories equal data -/

theorem cells_eq_of_read {size lo : Nat} {cs ds : List Host.Cell} (hc : cellsWf size lo cs = true)
    (hd : cellsWf size lo ds = true) (h : ∀ a, cellsRead cs a = cellsRead ds a) : cs = ds := by
  induction cs generalizing lo ds with
  | nil =>
    cases ds with
    | nil => rfl
    | cons d ds =>
      obtain ⟨k, v⟩ := d
      simp only [cellsWf, Bool.and_eq_true, bne_iff_ne] at hd
      have := h k
      simp only [cellsRead, if_true] at this
      exact absurd this.symm hd.1.2
  | cons c cs ih =>
    obtain ⟨k, v⟩ := c
    simp only [cellsWf, Bool.and_eq_true, bne_iff_ne, decide_eq_true_eq] at hc
    cases ds with
    | nil =>
      have := h k
      simp only [cellsRead, if_true] at this
      exact absurd this hc.1.2
    | cons d ds =>
      obtain ⟨j, w⟩ := d
      simp only [cellsWf, Bool.and_eq_true, bne_iff_ne, decide_eq_true_eq] at hd
      rcases Nat.lt_trichotomy k j with hlt | heq | hgt
      · have := h k
        simp only [cellsRead, if_true, show ¬ j = k from by omega, if_false] at this
        exact absurd (this.trans (cellsRead_of_lt hd.2 (by omega))) hc.1.2
      · subst heq
        have hv := h k
        simp only [cellsRead, if_true] at hv
        subst hv
        congr 1
        refine ih hc.2 hd.2 fun a => ?_
        by_cases ha : k = a
        · subst ha
          rw [cellsRead_of_lt hc.2 (by omega), cellsRead_of_lt hd.2 (by omega)]
        · have := h a
          simpa only [cellsRead, ha, if_false] using this
      · have := h j
        simp only [cellsRead, if_true, show ¬ k = j from by omega, if_false] at this
        exact absurd (this.symm.trans (cellsRead_of_lt hc.2 (by omega))) hd.1.2

theorem cellsRead_of_size_le {size lo a : Nat} {cs : List Host.Cell} (h : cellsWf size lo cs = true)
    (ha : size ≤ a) : cellsRead cs a = Config.unlistedByte := by
  induction cs generalizing lo with
  | nil => rfl
  | cons c rest ih =>
    obtain ⟨k, v⟩ := c
    simp only [cellsWf, Bool.and_eq_true, decide_eq_true_eq] at h
    have hk : k ≠ a := by omega
    simp only [cellsRead, hk, if_false]
    exact ih h.2

/-- Two memories in canonical form with the same size and the same bytes are the same memory. -/
theorem Memory.ext_of_read {m m' : Memory} (h : m.wf = true) (h' : m'.wf = true) (hs : m.size = m'.size)
    (hr : ∀ a, a < m.size → m.read a = m'.read a) : m = m' := by
  obtain ⟨size, cs⟩ := m
  obtain ⟨size', ds⟩ := m'
  simp only at hs
  subst hs
  have hc := Memory.cells_wf h
  have hd := Memory.cells_wf h'
  congr 1
  refine cells_eq_of_read hc hd fun a => ?_
  by_cases ha : a < size
  · simpa [Memory.read, ha] using hr a ha
  · rw [cellsRead_of_size_le hc (by simpa using ha), cellsRead_of_size_le hd (by simpa using ha)]

end Sys2Proof.Machine
end

