-- ==== Sys2Proof/Laws/State.lean ====
section
/-! SUPPORT. One lemma per field per update of the state, so that no proof unfolds a record update. -/

namespace Sys2Proof.Machine

/-! ### State.store -/

@[simp] theorem State.store_mem (s : State) (cs : List Host.Cell) :
    (s.store cs).mem = s.mem.writeCells cs := rfl
@[simp] theorem State.store_status (s : State) (cs : List Host.Cell) :
    (s.store cs).status = s.status := rfl
@[simp] theorem State.store_pc (s : State) (cs : List Host.Cell) :
    (s.store cs).pc = s.pc := rfl
@[simp] theorem State.store_errPc (s : State) (cs : List Host.Cell) :
    (s.store cs).errPc = s.errPc := rfl
@[simp] theorem State.store_errInfo (s : State) (cs : List Host.Cell) :
    (s.store cs).errInfo = s.errInfo := rfl
@[simp] theorem State.store_irqStatus (s : State) (cs : List Host.Cell) :
    (s.store cs).irqStatus = s.irqStatus := rfl
@[simp] theorem State.store_irqEnable (s : State) (cs : List Host.Cell) :
    (s.store cs).irqEnable = s.irqEnable := rfl
@[simp] theorem State.store_res (s : State) (cs : List Host.Cell) :
    (s.store cs).res = s.res := rfl
@[simp] theorem State.store_f (s : State) (cs : List Host.Cell) :
    (s.store cs).f = s.f := rfl
@[simp] theorem State.store_turns (s : State) (cs : List Host.Cell) :
    (s.store cs).turns = s.turns := rfl
@[simp] theorem State.store_hostData (s : State) (cs : List Host.Cell) :
    (s.store cs).hostData = s.hostData := rfl
@[simp] theorem State.store_freeCount (s : State) (cs : List Host.Cell) :
    (s.store cs).freeCount = s.freeCount := rfl

/-! ### State.setRes -/

@[simp] theorem State.setRes_mem (s : State) (r0 r1 r2 r3 : Nat) :
    (s.setRes r0 r1 r2 r3).mem = s.mem := rfl
@[simp] theorem State.setRes_status (s : State) (r0 r1 r2 r3 : Nat) :
    (s.setRes r0 r1 r2 r3).status = s.status := rfl
@[simp] theorem State.setRes_pc (s : State) (r0 r1 r2 r3 : Nat) :
    (s.setRes r0 r1 r2 r3).pc = s.pc := rfl
@[simp] theorem State.setRes_errPc (s : State) (r0 r1 r2 r3 : Nat) :
    (s.setRes r0 r1 r2 r3).errPc = s.errPc := rfl
@[simp] theorem State.setRes_errInfo (s : State) (r0 r1 r2 r3 : Nat) :
    (s.setRes r0 r1 r2 r3).errInfo = s.errInfo := rfl
@[simp] theorem State.setRes_irqStatus (s : State) (r0 r1 r2 r3 : Nat) :
    (s.setRes r0 r1 r2 r3).irqStatus = s.irqStatus := rfl
@[simp] theorem State.setRes_irqEnable (s : State) (r0 r1 r2 r3 : Nat) :
    (s.setRes r0 r1 r2 r3).irqEnable = s.irqEnable := rfl
@[simp] theorem State.setRes_res (s : State) (r0 r1 r2 r3 : Nat) :
    (s.setRes r0 r1 r2 r3).res = #v[BitVec.ofNat 32 r0, BitVec.ofNat 32 r1, BitVec.ofNat 32 r2, BitVec.ofNat 32 r3] := rfl
@[simp] theorem State.setRes_f (s : State) (r0 r1 r2 r3 : Nat) :
    (s.setRes r0 r1 r2 r3).f = s.f := rfl
@[simp] theorem State.setRes_turns (s : State) (r0 r1 r2 r3 : Nat) :
    (s.setRes r0 r1 r2 r3).turns = s.turns := rfl
@[simp] theorem State.setRes_hostData (s : State) (r0 r1 r2 r3 : Nat) :
    (s.setRes r0 r1 r2 r3).hostData = s.hostData := rfl
@[simp] theorem State.setRes_freeCount (s : State) (r0 r1 r2 r3 : Nat) :
    (s.setRes r0 r1 r2 r3).freeCount = s.freeCount := rfl

/-! ### State.latch -/

@[simp] theorem State.latch_mem (s : State) (bits : BitVec 3) :
    (s.latch bits).mem = s.mem := rfl
@[simp] theorem State.latch_status (s : State) (bits : BitVec 3) :
    (s.latch bits).status = s.status := rfl
@[simp] theorem State.latch_pc (s : State) (bits : BitVec 3) :
    (s.latch bits).pc = s.pc := rfl
@[simp] theorem State.latch_errPc (s : State) (bits : BitVec 3) :
    (s.latch bits).errPc = s.errPc := rfl
@[simp] theorem State.latch_errInfo (s : State) (bits : BitVec 3) :
    (s.latch bits).errInfo = s.errInfo := rfl
@[simp] theorem State.latch_irqStatus (s : State) (bits : BitVec 3) :
    (s.latch bits).irqStatus = s.irqStatus ||| bits := rfl
@[simp] theorem State.latch_irqEnable (s : State) (bits : BitVec 3) :
    (s.latch bits).irqEnable = s.irqEnable := rfl
@[simp] theorem State.latch_res (s : State) (bits : BitVec 3) :
    (s.latch bits).res = s.res := rfl
@[simp] theorem State.latch_f (s : State) (bits : BitVec 3) :
    (s.latch bits).f = s.f := rfl
@[simp] theorem State.latch_turns (s : State) (bits : BitVec 3) :
    (s.latch bits).turns = s.turns := rfl
@[simp] theorem State.latch_hostData (s : State) (bits : BitVec 3) :
    (s.latch bits).hostData = s.hostData := rfl
@[simp] theorem State.latch_freeCount (s : State) (bits : BitVec 3) :
    (s.latch bits).freeCount = s.freeCount := rfl

/-! ### State.raise -/

@[simp] theorem State.raise_mem (s : State) (code : ErrCode) (info : Nat) :
    (s.raise code info).mem = s.mem := rfl
@[simp] theorem State.raise_status (s : State) (code : ErrCode) (info : Nat) :
    (s.raise code info).status = ⟨false, false, true, code⟩ := rfl
@[simp] theorem State.raise_pc (s : State) (code : ErrCode) (info : Nat) :
    (s.raise code info).pc = s.pc := rfl
@[simp] theorem State.raise_errPc (s : State) (code : ErrCode) (info : Nat) :
    (s.raise code info).errPc = s.pc := rfl
@[simp] theorem State.raise_errInfo (s : State) (code : ErrCode) (info : Nat) :
    (s.raise code info).errInfo = BitVec.ofNat 32 info := rfl
@[simp] theorem State.raise_irqStatus (s : State) (code : ErrCode) (info : Nat) :
    (s.raise code info).irqStatus = s.irqStatus ||| irqErr := rfl
@[simp] theorem State.raise_irqEnable (s : State) (code : ErrCode) (info : Nat) :
    (s.raise code info).irqEnable = s.irqEnable := rfl
@[simp] theorem State.raise_res (s : State) (code : ErrCode) (info : Nat) :
    (s.raise code info).res = s.res := rfl
@[simp] theorem State.raise_f (s : State) (code : ErrCode) (info : Nat) :
    (s.raise code info).f = s.f := rfl
@[simp] theorem State.raise_turns (s : State) (code : ErrCode) (info : Nat) :
    (s.raise code info).turns = s.turns := rfl
@[simp] theorem State.raise_hostData (s : State) (code : ErrCode) (info : Nat) :
    (s.raise code info).hostData = s.hostData := rfl
@[simp] theorem State.raise_freeCount (s : State) (code : ErrCode) (info : Nat) :
    (s.raise code info).freeCount = s.freeCount := rfl

/-! ### State.resetRegs -/

@[simp] theorem State.resetRegs_mem (s : State) :
    (s.resetRegs).mem = s.mem := rfl
@[simp] theorem State.resetRegs_status (s : State) :
    (s.resetRegs).status = Status.reset := rfl
@[simp] theorem State.resetRegs_pc (s : State) :
    (s.resetRegs).pc = 0#32 := rfl
@[simp] theorem State.resetRegs_errPc (s : State) :
    (s.resetRegs).errPc = 0#32 := rfl
@[simp] theorem State.resetRegs_errInfo (s : State) :
    (s.resetRegs).errInfo = 0#32 := rfl
@[simp] theorem State.resetRegs_irqStatus (s : State) :
    (s.resetRegs).irqStatus = 0#3 := rfl
@[simp] theorem State.resetRegs_irqEnable (s : State) :
    (s.resetRegs).irqEnable = 0#3 := rfl
@[simp] theorem State.resetRegs_res (s : State) :
    (s.resetRegs).res = Vector.replicate 4 0#32 := rfl
@[simp] theorem State.resetRegs_f (s : State) :
    (s.resetRegs).f = Vector.replicate 32 0#32 := rfl
@[simp] theorem State.resetRegs_turns (s : State) :
    (s.resetRegs).turns = s.turns := rfl
@[simp] theorem State.resetRegs_hostData (s : State) :
    (s.resetRegs).hostData = s.hostData := rfl
@[simp] theorem State.resetRegs_freeCount (s : State) :
    (s.resetRegs).freeCount = s.freeCount := rfl

/-! ### State.setPc -/

@[simp] theorem State.setPc_mem (s : State) (v : Word) :
    (s.setPc v).mem = s.mem := rfl
@[simp] theorem State.setPc_status (s : State) (v : Word) :
    (s.setPc v).status = s.status := rfl
@[simp] theorem State.setPc_pc (s : State) (v : Word) :
    (s.setPc v).pc = v := rfl
@[simp] theorem State.setPc_errPc (s : State) (v : Word) :
    (s.setPc v).errPc = s.errPc := rfl
@[simp] theorem State.setPc_errInfo (s : State) (v : Word) :
    (s.setPc v).errInfo = s.errInfo := rfl
@[simp] theorem State.setPc_irqStatus (s : State) (v : Word) :
    (s.setPc v).irqStatus = s.irqStatus := rfl
@[simp] theorem State.setPc_irqEnable (s : State) (v : Word) :
    (s.setPc v).irqEnable = s.irqEnable := rfl
@[simp] theorem State.setPc_res (s : State) (v : Word) :
    (s.setPc v).res = s.res := rfl
@[simp] theorem State.setPc_f (s : State) (v : Word) :
    (s.setPc v).f = s.f := rfl
@[simp] theorem State.setPc_turns (s : State) (v : Word) :
    (s.setPc v).turns = s.turns := rfl
@[simp] theorem State.setPc_hostData (s : State) (v : Word) :
    (s.setPc v).hostData = s.hostData := rfl
@[simp] theorem State.setPc_freeCount (s : State) (v : Word) :
    (s.setPc v).freeCount = s.freeCount := rfl

/-! ### State.advance -/

@[simp] theorem State.advance_mem (s : State) :
    (s.advance).mem = s.mem := rfl
@[simp] theorem State.advance_status (s : State) :
    (s.advance).status = s.status := rfl
@[simp] theorem State.advance_pc (s : State) :
    (s.advance).pc = s.pc + 32#32 := rfl
@[simp] theorem State.advance_errPc (s : State) :
    (s.advance).errPc = s.errPc := rfl
@[simp] theorem State.advance_errInfo (s : State) :
    (s.advance).errInfo = s.errInfo := rfl
@[simp] theorem State.advance_irqStatus (s : State) :
    (s.advance).irqStatus = s.irqStatus := rfl
@[simp] theorem State.advance_irqEnable (s : State) :
    (s.advance).irqEnable = s.irqEnable := rfl
@[simp] theorem State.advance_res (s : State) :
    (s.advance).res = s.res := rfl
@[simp] theorem State.advance_f (s : State) :
    (s.advance).f = s.f := rfl
@[simp] theorem State.advance_turns (s : State) :
    (s.advance).turns = s.turns := rfl
@[simp] theorem State.advance_hostData (s : State) :
    (s.advance).hostData = s.hostData := rfl
@[simp] theorem State.advance_freeCount (s : State) :
    (s.advance).freeCount = s.freeCount := rfl

/-! ### State.complete -/

@[simp] theorem State.complete_mem (s : State) (irq : Bool) :
    (s.complete irq).mem = s.mem := rfl
@[simp] theorem State.complete_status (s : State) (irq : Bool) :
    (s.complete irq).status = s.status := rfl
@[simp] theorem State.complete_pc (s : State) (irq : Bool) :
    (s.complete irq).pc = s.pc := rfl
@[simp] theorem State.complete_errPc (s : State) (irq : Bool) :
    (s.complete irq).errPc = s.errPc := rfl
@[simp] theorem State.complete_errInfo (s : State) (irq : Bool) :
    (s.complete irq).errInfo = s.errInfo := rfl
@[simp] theorem State.complete_irqStatus (s : State) (irq : Bool) :
    (s.complete irq).irqStatus = s.irqStatus ||| (if irq then irqDesc else 0#3) := rfl
@[simp] theorem State.complete_irqEnable (s : State) (irq : Bool) :
    (s.complete irq).irqEnable = s.irqEnable := rfl
@[simp] theorem State.complete_res (s : State) (irq : Bool) :
    (s.complete irq).res = s.res := rfl
@[simp] theorem State.complete_f (s : State) (irq : Bool) :
    (s.complete irq).f = s.f := rfl
@[simp] theorem State.complete_turns (s : State) (irq : Bool) :
    (s.complete irq).turns = s.turns := rfl
@[simp] theorem State.complete_hostData (s : State) (irq : Bool) :
    (s.complete irq).hostData = s.hostData := rfl
@[simp] theorem State.complete_freeCount (s : State) (irq : Bool) :
    (s.complete irq).freeCount = s.freeCount := rfl

/-! ### State.setFields -/

@[simp] theorem State.setFields_mem (s : State) (f : Vector Word 32) :
    (s.setFields f).mem = s.mem := rfl
@[simp] theorem State.setFields_status (s : State) (f : Vector Word 32) :
    (s.setFields f).status = s.status := rfl
@[simp] theorem State.setFields_pc (s : State) (f : Vector Word 32) :
    (s.setFields f).pc = s.pc := rfl
@[simp] theorem State.setFields_errPc (s : State) (f : Vector Word 32) :
    (s.setFields f).errPc = s.errPc := rfl
@[simp] theorem State.setFields_errInfo (s : State) (f : Vector Word 32) :
    (s.setFields f).errInfo = s.errInfo := rfl
@[simp] theorem State.setFields_irqStatus (s : State) (f : Vector Word 32) :
    (s.setFields f).irqStatus = s.irqStatus := rfl
@[simp] theorem State.setFields_irqEnable (s : State) (f : Vector Word 32) :
    (s.setFields f).irqEnable = s.irqEnable := rfl
@[simp] theorem State.setFields_res (s : State) (f : Vector Word 32) :
    (s.setFields f).res = s.res := rfl
@[simp] theorem State.setFields_f (s : State) (f : Vector Word 32) :
    (s.setFields f).f = f := rfl
@[simp] theorem State.setFields_turns (s : State) (f : Vector Word 32) :
    (s.setFields f).turns = s.turns := rfl
@[simp] theorem State.setFields_hostData (s : State) (f : Vector Word 32) :
    (s.setFields f).hostData = s.hostData := rfl
@[simp] theorem State.setFields_freeCount (s : State) (f : Vector Word 32) :
    (s.setFields f).freeCount = s.freeCount := rfl

/-! ### State.clobber -/

@[simp] theorem State.clobber_mem (s : State) (dst len : Nat) :
    (s.clobber dst len).mem = s.mem.writeCells (cellsAt dst ((List.range len).map (Config.unspecByte s.freeCount))) := rfl
@[simp] theorem State.clobber_status (s : State) (dst len : Nat) :
    (s.clobber dst len).status = s.status := rfl
@[simp] theorem State.clobber_pc (s : State) (dst len : Nat) :
    (s.clobber dst len).pc = s.pc := rfl
@[simp] theorem State.clobber_errPc (s : State) (dst len : Nat) :
    (s.clobber dst len).errPc = s.errPc := rfl
@[simp] theorem State.clobber_errInfo (s : State) (dst len : Nat) :
    (s.clobber dst len).errInfo = s.errInfo := rfl
@[simp] theorem State.clobber_irqStatus (s : State) (dst len : Nat) :
    (s.clobber dst len).irqStatus = s.irqStatus := rfl
@[simp] theorem State.clobber_irqEnable (s : State) (dst len : Nat) :
    (s.clobber dst len).irqEnable = s.irqEnable := rfl
@[simp] theorem State.clobber_res (s : State) (dst len : Nat) :
    (s.clobber dst len).res = s.res := rfl
@[simp] theorem State.clobber_f (s : State) (dst len : Nat) :
    (s.clobber dst len).f = s.f := rfl
@[simp] theorem State.clobber_turns (s : State) (dst len : Nat) :
    (s.clobber dst len).turns = s.turns := rfl
@[simp] theorem State.clobber_hostData (s : State) (dst len : Nat) :
    (s.clobber dst len).hostData = s.hostData := rfl
@[simp] theorem State.clobber_freeCount (s : State) (dst len : Nat) :
    (s.clobber dst len).freeCount = s.freeCount + 1 := rfl

/-! ### State.turnTaken -/

@[simp] theorem State.turnTaken_mem (s : State) :
    (s.turnTaken).mem = s.mem := rfl
@[simp] theorem State.turnTaken_status (s : State) :
    (s.turnTaken).status = s.status := rfl
@[simp] theorem State.turnTaken_pc (s : State) :
    (s.turnTaken).pc = s.pc := rfl
@[simp] theorem State.turnTaken_errPc (s : State) :
    (s.turnTaken).errPc = s.errPc := rfl
@[simp] theorem State.turnTaken_errInfo (s : State) :
    (s.turnTaken).errInfo = s.errInfo := rfl
@[simp] theorem State.turnTaken_irqStatus (s : State) :
    (s.turnTaken).irqStatus = s.irqStatus := rfl
@[simp] theorem State.turnTaken_irqEnable (s : State) :
    (s.turnTaken).irqEnable = s.irqEnable := rfl
@[simp] theorem State.turnTaken_res (s : State) :
    (s.turnTaken).res = s.res := rfl
@[simp] theorem State.turnTaken_f (s : State) :
    (s.turnTaken).f = s.f := rfl
@[simp] theorem State.turnTaken_turns (s : State) :
    (s.turnTaken).turns = s.turns.tail := rfl
@[simp] theorem State.turnTaken_hostData (s : State) :
    (s.turnTaken).hostData = s.hostData := rfl
@[simp] theorem State.turnTaken_freeCount (s : State) :
    (s.turnTaken).freeCount = s.freeCount := rfl

/-! ### State.start -/

theorem State.start_of_busy (s : State) (h : s.status.busy = true) : s.start = s := by
  simp [State.start, h]

theorem State.start_of_idle (s : State) (h : s.status.busy = false) :
    s.start =
      { s with status := ⟨true, false, false, .noError⟩, errPc := 0#32, errInfo := 0#32 } := by
  simp [State.start, h]

@[simp] theorem State.start_mem (s : State) : s.start.mem = s.mem := by
  unfold State.start; split <;> rfl
@[simp] theorem State.start_pc (s : State) : s.start.pc = s.pc := by
  unfold State.start; split <;> rfl
@[simp] theorem State.start_irqStatus (s : State) : s.start.irqStatus = s.irqStatus := by
  unfold State.start; split <;> rfl
@[simp] theorem State.start_irqEnable (s : State) : s.start.irqEnable = s.irqEnable := by
  unfold State.start; split <;> rfl
@[simp] theorem State.start_res (s : State) : s.start.res = s.res := by
  unfold State.start; split <;> rfl
@[simp] theorem State.start_f (s : State) : s.start.f = s.f := by
  unfold State.start; split <;> rfl
@[simp] theorem State.start_turns (s : State) : s.start.turns = s.turns := by
  unfold State.start; split <;> rfl
@[simp] theorem State.start_hostData (s : State) : s.start.hostData = s.hostData := by
  unfold State.start; split <;> rfl
@[simp] theorem State.start_freeCount (s : State) : s.start.freeCount = s.freeCount := by
  unfold State.start; split <;> rfl

end Sys2Proof.Machine
end

