-- ==== Sys2Proof/Laws/Ops.lean ====
section
/-! SUPPORT. For each shared operation, once, what it can do. -/

namespace Sys2Proof.Machine

/-! ### Ranges -/

theorem State.spanOK_iff {s : State} {r : Span} : s.spanOK r = true ↔ r.start + r.len ≤ s.mem.size := by
  simp [State.spanOK, Memory.rangeOK]

theorem State.spanOK_eq_false {s : State} {r : Span} : s.spanOK r = false ↔ s.mem.size < r.start + r.len := by
  simp [State.spanOK, Memory.rangeOK]

theorem overlap_iff {x y : Span} :
    overlap x y = true ↔ 0 < x.len ∧ 0 < y.len ∧ x.start < y.start + y.len ∧ y.start < x.start + x.len := by
  simp [overlap, and_assoc]

/-- Ranges that do not overlap share no address (20_memory.md R84). -/
theorem not_both_of_overlap_eq_false {x y : Span} {a : Nat} (h : overlap x y = false) (hx : x.has a = true) :
    y.has a = false := by
  have hn : ¬ overlap x y = true := by simp [h]
  rw [overlap_iff] at hn
  simp only [Span.has, Bool.and_eq_true, decide_eq_true_eq] at hx
  by_contra hy
  simp only [Span.has, Bool.and_eq_false_iff, decide_eq_false_iff_not, not_or, not_not] at hy
  exact hn ⟨by omega, by omega, by omega, by omega⟩

theorem Span.has_iff {r : Span} {a : Nat} : r.has a = true ↔ r.start ≤ a ∧ a < r.start + r.len := by
  simp [Span.has]

theorem Span.has_eq_false {r : Span} {a : Nat} : r.has a = false ↔ a < r.start ∨ r.start + r.len ≤ a := by
  simp only [Span.has, Bool.and_eq_false_iff, decide_eq_false_iff_not]
  omega

/-! ### The common checks (60_exceptions.md R273) -/

theorem State.checked_of_pass {s : State} {src dst : Span} {k : State → Out} (h1 : s.spanOK src = true)
    (h2 : s.spanOK dst = true) (h3 : overlap src dst = false) : s.checked src dst k = k s := by
  simp [State.checked, h1, h2, h3]

theorem State.checked_of_source {s : State} {src dst : Span} {k : State → Out} (h1 : s.spanOK src = false) :
    s.checked src dst k = .next (s.raise .eRange src.start) := by
  simp [State.checked, State.fail, h1]

theorem State.checked_of_destination {s : State} {src dst : Span} {k : State → Out} (h1 : s.spanOK src = true)
    (h2 : s.spanOK dst = false) : s.checked src dst k = .next (s.raise .eRange dst.start) := by
  simp [State.checked, State.fail, h1, h2]

theorem State.checked_of_overlap {s : State} {src dst : Span} {k : State → Out} (h1 : s.spanOK src = true)
    (h2 : s.spanOK dst = true) (h3 : overlap src dst = true) :
    s.checked src dst k = .next (s.raise .eOverlap dst.start) := by
  simp [State.checked, State.fail, h1, h2, h3]

/-- Everything the common checks can do: one of the three errors, or go on. -/
theorem State.checked_cases (s : State) (src dst : Span) (k : State → Out) :
    s.checked src dst k = .next (s.raise .eRange src.start) ∨
    s.checked src dst k = .next (s.raise .eRange dst.start) ∨
    s.checked src dst k = .next (s.raise .eOverlap dst.start) ∨
    (s.spanOK src = true ∧ s.spanOK dst = true ∧ overlap src dst = false ∧ s.checked src dst k = k s) := by
  rcases h1 : s.spanOK src with _ | _
  · exact .inl (State.checked_of_source h1)
  · rcases h2 : s.spanOK dst with _ | _
    · exact .inr (.inl (State.checked_of_destination h1 h2))
    · rcases h3 : overlap src dst with _ | _
      · exact .inr (.inr (.inr ⟨rfl, rfl, rfl, State.checked_of_pass h1 h2 h3⟩))
      · exact .inr (.inr (.inl (State.checked_of_overlap h1 h2 h3)))

/-! ### Error entry, completion and reset -/

/-- Raising is a step (60_exceptions.md R274). -/
theorem State.fail_eq (s : State) (code : ErrCode) (info : Nat) : s.fail code info = .next (s.raise code info) := rfl

theorem State.raise_errored (s : State) (code : ErrCode) (info : Nat) : errored s (s.raise code info) code info := rfl

/-- Completion sets IRQ_STATUS.DESC only when W0.IRQ asks for it (30_encoding.md R113). -/
theorem State.complete_eq (s : State) (irq : Bool) : s.complete irq = { s with irqStatus := s.irqAfter irq } := by
  cases irq <;> simp [State.complete, State.latch, State.irqAfter]

/-- What a data descriptor leaves when it completes after its stores. -/
theorem State.store_finish (s : State) (cs : List Host.Cell) (irq : Bool) (r0 r1 r2 r3 : Nat) :
    ∃ t, (s.store cs).finish irq r0 r1 r2 r3 = .next t ∧ completed s t irq r0 r1 r2 r3 ∧
      t.mem = s.mem.writeCells cs :=
  ⟨_, rfl, by simp [completed, State.complete_eq]; rfl, by simp [State.complete_eq]⟩

/-- What a data descriptor that stores nothing leaves when it completes. -/
theorem State.finish_next (s : State) (irq : Bool) (r0 r1 r2 r3 : Nat) :
    ∃ t, s.finish irq r0 r1 r2 r3 = .next t ∧ completed s t irq r0 r1 r2 r3 ∧ t.mem = s.mem :=
  State.store_finish s [] irq r0 r1 r2 r3

theorem State.resetRegs_eq (s : State) :
    s.resetRegs = { State.reset with
      mem := s.mem, turns := s.turns, hostData := s.hostData, freeCount := s.freeCount } := rfl

/-! ### Field and result registers -/

@[simp] theorem fieldReg_setFieldReg_same (f : Vector Word 32) (i : BitVec 5) (v : Word) :
    fieldReg (setFieldReg f i v) i = v := by
  simp [fieldReg, setFieldReg]

theorem fieldReg_setFieldReg_ne (f : Vector Word 32) {i j : BitVec 5} (v : Word) (h : j ≠ i) :
    fieldReg (setFieldReg f i v) j = fieldReg f j := by
  have : i.toNat ≠ j.toNat := fun e => h (BitVec.eq_of_toNat_eq e.symm)
  simp [fieldReg, setFieldReg, this]

/-! ### RLE parameters (41_rle.md R173) -/

theorem encParams_some {p0 : Word} {lmax r : Nat} (h : encParams p0 = some (lmax, r)) :
    1 ≤ lmax ∧ lmax ≤ 128 ∧ (r = 2 ∨ r = 3) := by
  unfold encParams at h
  simp only [orDefault] at h
  split_ifs at h with h1 h2 h3
  · simp only [Option.some.injEq, Prod.mk.injEq] at h
    omega
  · simp only [Option.some.injEq, Prod.mk.injEq] at h
    omega

/-! ### Memory after a store, range by range -/

/-- Cells whose addresses lie in a range change no byte outside it. -/
theorem sameOutside_writeCells {m : Memory} {cs : List Host.Cell} {r : Span} (h : ∀ c ∈ cs, r.has c.1 = true) :
    sameOutside m (m.writeCells cs) r :=
  ⟨by simp, fun a ha => Memory.read_writeCells_of_notMem fun c hc e => by simp [← e, h c hc] at ha⟩

theorem sameExcept_writeCells {m : Memory} {cs : List Host.Cell} {p : Nat → Prop} (h : ∀ c ∈ cs, p c.1) :
    sameExcept m (m.writeCells cs) p :=
  ⟨by simp, fun _ ha => Memory.read_writeCells_of_notMem fun c hc e => ha (e ▸ h c hc)⟩

/-- A byte sequence stored at `a` changes only its own range. -/
theorem sameOutside_cellsAt (m : Memory) (a : Nat) (bs : List Byte) :
    sameOutside m (m.writeCells (cellsAt a bs)) ⟨a, bs.length⟩ :=
  sameOutside_writeCells fun c hc => by
    have := cellsAt_key hc
    simp [Span.has, this]

/-- A byte sequence stored inside `M` is what its range reads as. -/
theorem readBytes_writeCells_cellsAt {m : Memory} {a : Nat} {bs : List Byte} (hwf : m.wf = true)
    (hb : a + bs.length ≤ m.size) : (m.writeCells (cellsAt a bs)).readBytes a bs.length = bs := by
  apply List.ext_getElem?
  intro k
  by_cases hk : k < bs.length
  · rw [Memory.readBytes_getElem? hk, List.getElem?_eq_getElem hk,
      Memory.read_writeCells_cellsAt hwf (List.getElem?_eq_getElem hk) hb]
  · rw [List.getElem?_eq_none (by simpa using hk), List.getElem?_eq_none (by simpa using hk)]

/-- Equal bytes read as equal sequences. -/
theorem readBytes_congr {m m' : Memory} {a b n : Nat} (h : ∀ k < n, m.read (a + k) = m'.read (b + k)) :
    m.readBytes a n = m'.readBytes b n := by
  simp only [Memory.readBytes]
  exact List.map_congr_left fun k hk => h k (List.mem_range.mp hk)

theorem read_of_readBytes {m m' : Memory} {a b n k : Nat} (h : m.readBytes a n = m'.readBytes b n) (hk : k < n) :
    m.read (a + k) = m'.read (b + k) := by
  have := congrArg (·[k]?) h
  simpa [Memory.readBytes_getElem? hk] using this

end Sys2Proof.Machine
end

