-- ==== Sys2Proof/Laws/Exec.lean ====
section
/-! SUPPORT. What each descriptor with a source and a destination does once its checks pass, as one equation. -/

namespace Sys2Proof.Machine

/-- What passing the checks means for a descriptor whose ranges must not overlap. -/
theorem checksPass_ranges {i : Instr} {s : State} {src dst : Span} (h : checksPass i s = true)
    (hr : checkedRanges i = some (src, dst)) (hp : runsInPlace i = false) :
    paramError i = none ∧ s.spanOK src = true ∧ s.spanOK dst = true ∧ overlap src dst = false := by
  simp only [checksPass, hr, hp, Bool.and_eq_true, Bool.false_or, Option.isNone_iff_eq_none, Bool.not_eq_true'] at h
  exact ⟨h.1, h.2.1.1, h.2.1.2, h.2.2⟩

theorem exec_copy_of_pass {s : State} {irq : Bool} {src len dst : Word}
    (h : checksPass (.copy irq src len dst) s = true) :
    exec (.copy irq src len dst) s =
      (s.store (cellsAt dst.toNat (s.mem.readBytes src.toNat len.toNat))).finish irq len.toNat 0 0 0 := by
  obtain ⟨-, h1, h2, h3⟩ := checksPass_ranges h rfl rfl
  simp only [exec, execCopy, State.checked_of_pass h1 h2 h3]

theorem exec_rleDec_of_pass {s : State} {irq : Bool} {src slen dst len : Word}
    (h : checksPass (.rleDec irq src slen dst len) s = true) :
    exec (.rleDec irq src slen dst len) s =
      match dec (s.mem.readBytes src.toNat slen.toNat) len.toNat with
      | .fail q => .next ((s.clobber dst.toNat len.toNat).raise .eCorrupt q)
      | .ok out p np => (s.store (cellsAt dst.toNat out)).finish irq p len.toNat np 0 := by
  obtain ⟨-, h1, h2, h3⟩ := checksPass_ranges h rfl rfl
  simp only [exec, execRleDec, State.checked_of_pass h1 h2 h3]
  rfl

theorem exec_rleDecp_of_pass {s : State} {irq : Bool} {b : Nat} {dbe plsb : Bool} {src slen dst n : Word}
    (h : checksPass (.rleDecp irq b dbe plsb src slen dst n) s = true) :
    exec (.rleDecp irq b dbe plsb src slen dst n) s =
      match decPlanes n.toNat b (s.mem.readBytes src.toNat slen.toNat) 0 0 with
      | .fail q => .next ((s.clobber dst.toNat (n.toNat * b)).raise .eCorrupt q)
      | .ok planes p np =>
        (s.store (sampleCells dst.toNat n.toNat b dbe plsb planes)).finish irq p (n.toNat * b) np 0 := by
  obtain ⟨-, h1, h2, h3⟩ := checksPass_ranges h rfl rfl
  simp only [exec, execRleDecp, State.checked_of_pass h1 h2 h3]
  rfl

theorem exec_rleEnc_of_pass {s : State} {irq fb : Bool} {src n dst cap p0 : Word} {lmax r : Nat}
    (hp : encParams p0 = some (lmax, r)) (h : checksPass (.rleEnc irq fb src n dst cap p0) s = true) :
    exec (.rleEnc irq fb src n dst cap p0) s =
      storeEncoded irq fb dst.toNat cap.toNat (s.mem.readBytes src.toNat n.toNat)
        (enc (s.mem.readBytes src.toNat n.toNat) lmax r) s := by
  obtain ⟨-, h1, h2, h3⟩ := checksPass_ranges h rfl rfl
  simp only [exec, execRleEnc, hp, State.checked_of_pass h1 h2 h3]

theorem exec_rleEncp_of_pass {s : State} {irq : Bool} {b : Nat} {sbe plsb fb : Bool} {src n dst cap p0 : Word}
    {lmax r : Nat} (hp : encParams p0 = some (lmax, r))
    (h : checksPass (.rleEncp irq b sbe plsb fb src n dst cap p0) s = true) :
    exec (.rleEncp irq b sbe plsb fb src n dst cap p0) s =
      storeEncoded irq fb dst.toNat cap.toNat (s.mem.readBytes src.toNat (n.toNat * b))
        (encPlanes s.mem src.toNat n.toNat b sbe plsb lmax r) s := by
  obtain ⟨-, h1, h2, h3⟩ := checksPass_ranges h rfl rfl
  simp only [exec, execRleEncp, hp, State.checked_of_pass h1 h2 h3]

/-- The common end of both encoders: E_CAPACITY with nothing stored, or the stored form (41_rle.md R174, R176). -/
theorem storeEncoded_eq (irq fb : Bool) (dst cap : Nat) (source : List Byte) (ps : List Packet) (s : State) :
    storeEncoded irq fb dst cap source ps s =
      if fb = true ∧ source.length ≤ (packetBytes ps).length then
        storeFit irq dst cap source 1 (packetBytes ps).length ps.length s
      else storeFit irq dst cap (packetBytes ps) 0 (packetBytes ps).length ps.length s := by
  simp [storeEncoded]

theorem storeFit_of_lt {irq : Bool} {dst cap : Nat} {out : List Byte} {raw e packets : Nat} {s : State}
    (h : cap < out.length) : storeFit irq dst cap out raw e packets s = .next (s.raise .eCapacity out.length) := by
  rw [storeFit, if_pos h, State.fail_eq]

theorem storeFit_of_le {irq : Bool} {dst cap : Nat} {out : List Byte} {raw e packets : Nat} {s : State}
    (h : out.length ≤ cap) :
    storeFit irq dst cap out raw e packets s = (s.store (cellsAt dst out)).finish irq out.length raw e packets := by
  rw [storeFit, if_neg (by omega)]

/-- BITCONV's legality, as its checks and as the numbers of 43_pack.md R233. -/
theorem paramError_bitconv {irq : Bool} {wi wo : Nat} {sbe dbe rep inv : Bool} {src n dst p0 p1 : Word}
    (h : paramError (.bitconv irq wi wo sbe dbe rep inv src n dst p0 p1) = none) :
    convTypeOK wi wo p0 = true ∧ wi ≤ convSi p1 wi ∧ wo ≤ convSo p1 wo := by
  simp only [paramError] at h
  split_ifs at h with h1 h2
  simp only [Bool.or_eq_true, decide_eq_true_eq, not_or, Nat.not_lt] at h2
  exact ⟨by simpa using h1, h2.1, h2.2⟩

theorem exec_bitconv_of_pass {s : State} {irq : Bool} {wi wo : Nat} {sbe dbe rep inv : Bool}
    {src n dst p0 p1 : Word} (h : checksPass (.bitconv irq wi wo sbe dbe rep inv src n dst p0 p1) s = true) :
    exec (.bitconv irq wi wo sbe dbe rep inv src n dst p0 p1) s =
      (s.store (convCells s.mem wi wo sbe dbe rep inv src.toNat n.toNat dst.toNat p0 p1)).finish irq n.toNat 0 0 0 := by
  obtain ⟨h0, h1, h2, h3⟩ := checksPass_ranges h rfl rfl
  obtain ⟨t1, t2, t3⟩ := paramError_bitconv h0
  simp only [exec, execBitconv, t1, Bool.not_true, Bool.false_eq_true, if_false, Nat.not_lt.mpr t2, Nat.not_lt.mpr t3,
    decide_false, Bool.or_self, State.checked_of_pass h1 h2 h3]

theorem paramError_reorder {irq : Bool} {w c : Nat} {src n dst p0 : Word}
    (h : paramError (.reorder irq w c src n dst p0) = none) : ∀ k < c, mapEntry p0 k < c := by
  simpa [paramError, mapOK] using h

theorem exec_reorder_of_pass {s : State} {irq : Bool} {w c : Nat} {src n dst p0 : Word}
    (h : checksPass (.reorder irq w c src n dst p0) s = true) :
    exec (.reorder irq w c src n dst p0) s =
      (s.store (reorderCells s.mem w c src.toNat n.toNat dst.toNat p0)).finish irq n.toNat 0 0 0 := by
  simp only [checksPass, checkedRanges, runsInPlace, Bool.and_eq_true, Option.isNone_iff_eq_none, Bool.or_eq_true,
    beq_iff_eq, Bool.not_eq_true'] at h
  obtain ⟨h0, ⟨h1, h2⟩, h3⟩ := h
  have hm : mapOK p0 c = true := by simpa [paramError] using h0
  have hov : (src != dst && overlap ⟨src.toNat, n.toNat * c * w⟩ ⟨dst.toNat, n.toNat * c * w⟩) = false := by
    rcases h3 with h3 | h3 <;> simp [h3]
  simp [exec, execReorder, hm, h1, h2, hov]

theorem exec_deinterleave_of_pass {s : State} {irq : Bool} {w c : Nat} {src n dst pp : Word}
    (h : checksPass (.deinterleave irq w c src n dst pp) s = true) :
    exec (.deinterleave irq w c src n dst pp) s =
      (s.store (planarCells s.mem w c src.toNat n.toNat dst.toNat (orDefault pp.toNat (n.toNat * w)))).finish irq
        n.toNat (orDefault pp.toNat (n.toNat * w)) 0 0 := by
  obtain ⟨h0, h1, h2, h3⟩ := checksPass_ranges h rfl rfl
  have h4 : ¬ orDefault pp.toNat (n.toNat * w) < n.toNat * w := by simpa [paramError] using h0
  simp only [exec, execDeinterleave, h4, if_false, State.checked_of_pass h1 h2 h3]

theorem exec_interleave_of_pass {s : State} {irq : Bool} {w c : Nat} {src n dst pp : Word}
    (h : checksPass (.interleave irq w c src n dst pp) s = true) :
    exec (.interleave irq w c src n dst pp) s =
      (s.store (interleavedCells s.mem w c src.toNat n.toNat dst.toNat (orDefault pp.toNat (n.toNat * w)))).finish irq
        n.toNat (orDefault pp.toNat (n.toNat * w)) 0 0 := by
  obtain ⟨h0, h1, h2, h3⟩ := checksPass_ranges h rfl rfl
  have h4 : ¬ orDefault pp.toNat (n.toNat * w) < n.toNat * w := by simpa [paramError] using h0
  simp only [exec, execInterleave, h4, if_false, State.checked_of_pass h1 h2 h3]

theorem exec_rowflip_of_ok {s : State} {irq : Bool} {base rows len pitch : Word}
    (h : len.toNat ≤ orDefault pitch.toNat len.toNat)
    (hs : s.spanOK (rowsSpan base.toNat rows.toNat (orDefault pitch.toNat len.toNat) len.toNat) = true) :
    exec (.rowflip irq base rows len pitch) s =
      (s.store (flipCells s.mem base.toNat rows.toNat len.toNat (orDefault pitch.toNat len.toNat))).finish irq
        (rows.toNat / 2) 0 0 0 := by
  simp [exec, execRowflip, Nat.not_lt.mpr h, hs]

theorem paramError_unpacksub {irq : Bool} {bc : BitVec 2} {lsbf : Bool} {src n dst rows ps pd : Word}
    (h : paramError (.unpacksub irq bc lsbf src n dst rows ps pd) = none) :
    bc ≠ 3#2 ∧ packedRow n.toNat (subBits bc) ≤ orDefault ps.toNat (packedPitch n.toNat (subBits bc)) ∧
      n.toNat ≤ orDefault pd.toNat n.toNat := by
  simp only [paramError] at h
  split_ifs at h with h1 h2 h3
  exact ⟨h1, Nat.not_lt.mp h2, Nat.not_lt.mp h3⟩

theorem exec_unpacksub_of_pass {s : State} {irq : Bool} {bc : BitVec 2} {lsbf : Bool} {src n dst rows ps pd : Word}
    (h : checksPass (.unpacksub irq bc lsbf src n dst rows ps pd) s = true) :
    exec (.unpacksub irq bc lsbf src n dst rows ps pd) s =
      (s.store (unpackCells s.mem (subBits bc) lsbf src.toNat n.toNat dst.toNat rows.toNat
        (orDefault ps.toNat (packedPitch n.toNat (subBits bc))) (orDefault pd.toNat n.toNat))).finish irq
        (rows.toNat * n.toNat) (orDefault ps.toNat (packedPitch n.toNat (subBits bc))) (orDefault pd.toNat n.toNat) 0 := by
  obtain ⟨h0, h1, h2, h3⟩ := checksPass_ranges h rfl rfl
  obtain ⟨t1, t2, t3⟩ := paramError_unpacksub h0
  simp only [exec, execUnpacksub, t1, if_false, Nat.not_lt.mpr t2, Nat.not_lt.mpr t3, State.checked_of_pass h1 h2 h3]

theorem paramError_packsub {irq : Bool} {bc : BitVec 2} {lsbf : Bool} {src n dst rows ps pd : Word}
    (h : paramError (.packsub irq bc lsbf src n dst rows ps pd) = none) :
    bc ≠ 3#2 ∧ n.toNat ≤ orDefault ps.toNat n.toNat ∧
      packedRow n.toNat (subBits bc) ≤ orDefault pd.toNat (packedPitch n.toNat (subBits bc)) := by
  simp only [paramError] at h
  split_ifs at h with h1 h2 h3
  exact ⟨h1, Nat.not_lt.mp h2, Nat.not_lt.mp h3⟩

theorem exec_packsub_of_pass {s : State} {irq : Bool} {bc : BitVec 2} {lsbf : Bool} {src n dst rows ps pd : Word}
    (h : checksPass (.packsub irq bc lsbf src n dst rows ps pd) s = true) :
    exec (.packsub irq bc lsbf src n dst rows ps pd) s =
      (s.store (packCells s.mem (subBits bc) lsbf src.toNat n.toNat dst.toNat rows.toNat
        (orDefault ps.toNat n.toNat) (orDefault pd.toNat (packedPitch n.toNat (subBits bc))))).finish irq
        (rows.toNat * n.toNat) (orDefault ps.toNat n.toNat) (orDefault pd.toNat (packedPitch n.toNat (subBits bc))) 0 := by
  obtain ⟨h0, h1, h2, h3⟩ := checksPass_ranges h rfl rfl
  obtain ⟨t1, t2, t3⟩ := paramError_packsub h0
  simp only [exec, execPacksub, t1, if_false, Nat.not_lt.mpr t2, Nat.not_lt.mpr t3, State.checked_of_pass h1 h2 h3]

theorem exec_hdrStore_of_pass {s : State} {irq : Bool} {hdr hlen tbl k : Word}
    (h : checksPass (.hdrStore irq hdr hlen tbl k) s = true) :
    exec (.hdrStore irq hdr hlen tbl k) s =
      match firstBadEntry s.mem tbl.toNat hlen.toNat .eParam (List.range k.toNat) with
      | some (code, j) => .next (s.raise code j)
      | none => (s.store (headerCells s.mem s.f hdr.toNat tbl.toNat k.toNat)).finish irq k.toNat 0 0 0 := by
  obtain ⟨-, h1, h2, h3⟩ := checksPass_ranges h rfl rfl
  simp only [exec, execHdrStore, State.checked_of_pass h1 h2 h3]
  rfl

theorem exec_hdrLoad_of_ok {s : State} {irq : Bool} {hdr hlen tbl k : Word}
    (h1 : s.spanOK ⟨tbl.toNat, 16 * k.toNat⟩ = true) (h2 : s.spanOK ⟨hdr.toNat, hlen.toNat⟩ = true) :
    exec (.hdrLoad irq hdr hlen tbl k) s =
      match firstBadEntry s.mem tbl.toNat hlen.toNat .eMalformed (List.range k.toNat) with
      | some (code, j) => .next (s.raise code j)
      | none =>
        match loadEntries s.mem hdr.toNat tbl.toNat (List.range k.toNat) s.f with
        | (f, some j) => .next ((s.setFields f).raise .eMalformed j)
        | (f, none) => (s.setFields f).finish irq k.toNat 0 0 0 := by
  simp only [State.spanOK] at h1 h2
  simp only [exec, execHdrLoad, h1, h2, Bool.not_true, Bool.false_eq_true, if_false]
  rfl

theorem exec_chunkFind_of_ok {s : State} {irq : Bool} {g : BitVec 2} {opt : Bool} {region rlen tag : Word}
    (h : s.spanOK ⟨region.toNat, rlen.toNat⟩ = true) :
    exec (.chunkFind irq g opt region rlen tag) s =
      match chunkFind s.mem (2 ^ g.toNat) region.toNat rlen.toNat tag.toNat with
      | .found payload len next t => s.finish irq payload len next t
      | .overrun c => .next (s.raise .eCorrupt c)
      | .missing =>
        if opt then s.finish irq 0 0 (region.toNat + rlen.toNat) 0 else .next (s.raise .eMalformed 0xFFFFFFFF) := by
  simp only [State.spanOK] at h
  simp only [exec, execChunkFind, h, Bool.not_true, Bool.false_eq_true, if_false]
  rfl

end Sys2Proof.Machine
end

