-- ==== Sys2Proof/Laws/Effect.lean ====
section
/-! SUPPORT. Once, over all descriptors, everything an execution can leave: a control completion, a data
completion, or error entry. -/

namespace Sys2Proof.Machine

/-- A control descriptor completed: only DESC_PC, a field register that SETF names, STOP's STATUS and
IRQ_STATUS change. -/
def controlEffect (i : Instr) (s t : State) : Prop :=
  i.isControl = true ∧
    ((∃ irq, i = .stop irq ∧ t = { s with
        pc := s.pc + 32#32
        status := { s.status with busy := false, done := true }
        irqStatus := s.irqStatus ||| irqDone ||| (if irq then irqDesc else 0#3) }) ∨
      (t = { s with pc := t.pc, f := t.f, irqStatus := s.irqAfter i.irqBit } ∧
        (t.f = s.f ∨ ∃ irq a imm, i = .setf irq a imm)))

/-- A data descriptor completed: `completed`, cells stored, and the field registers only for HDR_LOAD. -/
def dataEffect (i : Instr) (s t : State) : Prop :=
  i.isControl = false ∧ ∃ (cs : List Host.Cell) (f : Vector Word 32) (r0 r1 r2 r3 : Nat),
    t = { s with
      mem := s.mem.writeCells cs
      f := f
      res := #v[BitVec.ofNat 32 r0, BitVec.ofNat 32 r1, BitVec.ofNat 32 r2, BitVec.ofNat 32 r3]
      pc := s.pc + 32#32
      irqStatus := s.irqAfter i.irqBit } ∧
    (f = s.f ∨ (cs = [] ∧ ∃ irq hdr hlen tbl k, i = .hdrLoad irq hdr hlen tbl k))

/-- Error entry, with what may have been stored before it (60_exceptions.md R275). -/
def errorEffect (i : Instr) (s t : State) : Prop :=
  ∃ (cs : List Host.Cell) (f : Vector Word 32) (n : Nat) (code : ErrCode) (info : Nat), code ≠ .noError ∧
    t = { s.raise code info with mem := s.mem.writeCells cs, f := f, freeCount := n } ∧
    ((cs = [] ∧ f = s.f ∧ n = s.freeCount) ∨
      (code = .eCorrupt ∧ f = s.f ∧ n = s.freeCount + 1 ∧
        ((∃ irq src slen dst len, i = .rleDec irq src slen dst len ∧
            ∀ c ∈ cs, (Span.mk dst.toNat len.toNat).has c.1 = true) ∨
          (∃ irq b dbe plsb src slen dst m, i = .rleDecp irq b dbe plsb src slen dst m ∧
            ∀ c ∈ cs, (Span.mk dst.toNat (m.toNat * b)).has c.1 = true))) ∨
      (code = .eMalformed ∧ cs = [] ∧ n = s.freeCount ∧ ∃ irq hdr hlen tbl k, i = .hdrLoad irq hdr hlen tbl k))

/-- What one execution can leave. -/
def effect (i : Instr) (s t : State) : Prop := controlEffect i s t ∨ dataEffect i s t ∨ errorEffect i s t

theorem effect_raise (i : Instr) (s : State) {code : ErrCode} (info : Nat) (h : code ≠ .noError) :
    effect i s (s.raise code info) :=
  .inr (.inr ⟨[], s.f, s.freeCount, code, info, h, rfl, .inl ⟨rfl, rfl, rfl⟩⟩)

theorem effect_finish {i : Instr} {s : State} (cs : List Host.Cell) (r0 r1 r2 r3 : Nat) (h : i.isControl = false) :
    ∃ t, (s.store cs).finish i.irqBit r0 r1 r2 r3 = .next t ∧ effect i s t :=
  ⟨_, rfl, .inr (.inl ⟨h, cs, s.f, r0, r1, r2, r3, by simp [State.complete_eq]; rfl, .inl rfl⟩)⟩

/-- The common checks of a descriptor end in an effect if what follows them does. -/
theorem effect_checked {i : Instr} {s : State} {src dst : Span} {k : State → Out}
    (h : ∃ t, k s = .next t ∧ effect i s t) : ∃ t, s.checked src dst k = .next t ∧ effect i s t := by
  rcases State.checked_cases s src dst k with e | e | e | ⟨-, -, -, e⟩
  · exact ⟨_, e, effect_raise i s _ (by decide)⟩
  · exact ⟨_, e, effect_raise i s _ (by decide)⟩
  · exact ⟨_, e, effect_raise i s _ (by decide)⟩
  · rw [e]; exact h

theorem effect_storeEncoded {i : Instr} {s : State} (fb : Bool) (dst cap : Nat) (source : List Byte)
    (ps : List Packet) (h : i.isControl = false) :
    ∃ t, storeEncoded i.irqBit fb dst cap source ps s = .next t ∧ effect i s t := by
  have fit : ∀ out raw e packets, ∃ t, storeFit i.irqBit dst cap out raw e packets s = .next t ∧ effect i s t := by
    intro out raw e packets
    by_cases hc : cap < out.length
    · exact ⟨_, storeFit_of_lt hc, effect_raise i s _ (by decide)⟩
    · rw [storeFit_of_le (Nat.not_lt.mp hc)]
      exact effect_finish _ _ _ _ _ h
  rw [storeEncoded_eq]
  split_ifs
  · exact fit ..
  · exact fit ..

theorem firstBadEntry_code {m : Memory} {tbl hlen : Nat} {short code : ErrCode} {js : List Nat} {j : Nat}
    (h : firstBadEntry m tbl hlen short js = some (code, j)) : code = .eParam ∨ code = short := by
  induction js with
  | nil => simp [firstBadEntry] at h
  | cons x xs ih =>
    simp only [firstBadEntry] at h
    split_ifs at h
    · simp only [Option.some.injEq, Prod.mk.injEq] at h; exact .inl h.1.symm
    · simp only [Option.some.injEq, Prod.mk.injEq] at h; exact .inr h.1.symm
    · exact ih h

/-- What E_CORRUPT of an RLE decoder leaves. -/
theorem effect_clobber {i : Instr} {s : State} (dst len q : Nat)
    (h : (∃ irq src slen d l, i = .rleDec irq src slen d l ∧ dst = d.toNat ∧ len = l.toNat) ∨
      (∃ irq b dbe plsb src slen d m, i = .rleDecp irq b dbe plsb src slen d m ∧ dst = d.toNat ∧ len = m.toNat * b)) :
    effect i s ((s.clobber dst len).raise .eCorrupt q) := by
  refine .inr (.inr ⟨cellsAt dst ((List.range len).map (Config.unspecByte s.freeCount)), s.f, s.freeCount + 1,
    .eCorrupt, q, by decide, rfl, .inr (.inl ⟨rfl, rfl, rfl, ?_⟩)⟩)
  have key : ∀ c ∈ cellsAt dst ((List.range len).map (Config.unspecByte s.freeCount)),
      (Span.mk dst len).has c.1 = true := fun c hc => by
    have := cellsAt_key hc
    simp only [List.length_map, List.length_range] at this
    exact Span.has_iff.mpr this
  rcases h with ⟨irq, src, slen, d, l, rfl, rfl, rfl⟩ | ⟨irq, b, dbe, plsb, src, slen, d, m, rfl, rfl, rfl⟩
  · exact .inl ⟨_, _, _, _, _, rfl, key⟩
  · exact .inr ⟨_, _, _, _, _, _, _, _, rfl, key⟩

/-- Every execution of every descriptor answers a next state, with one of the three effects. -/
theorem exec_effect (i : Instr) (s : State) : ∃ t, exec i s = .next t ∧ effect i s t := by
  cases i with
  | nop irq => exact ⟨_, rfl, .inl ⟨rfl, .inr ⟨by simp [State.complete_eq, Instr.irqBit]; rfl, .inl (by simp)⟩⟩⟩
  | stop irq => exact ⟨_, rfl, .inl ⟨rfl, .inl ⟨irq, rfl, rfl⟩⟩⟩
  | jump irq target =>
    exact ⟨_, rfl, .inl ⟨rfl, .inr ⟨by simp [State.complete_eq, Instr.irqBit]; rfl, .inl (by simp)⟩⟩⟩
  | brf irq rsel cond a target imm =>
    simp only [exec, execBrf]
    split
    · exact ⟨_, rfl, effect_raise _ s _ (by decide)⟩
    · refine ⟨_, rfl, .inl ⟨rfl, .inr ?_⟩⟩
      split <;> exact ⟨by simp [State.complete_eq, Instr.irqBit]; rfl, .inl (by simp)⟩
  | setf irq a imm =>
    exact ⟨_, rfl, .inl ⟨rfl, .inr ⟨by simp [State.complete_eq, Instr.irqBit]; rfl, .inr ⟨_, _, _, rfl⟩⟩⟩⟩
  | copy irq src len dst =>
    simp only [exec, execCopy]
    exact effect_checked (effect_finish (i := .copy irq src len dst) _ _ _ _ _ rfl)
  | fill irq dst len value =>
    simp only [exec, execFill]
    split
    · exact ⟨_, rfl, effect_raise _ s _ (by decide)⟩
    · exact effect_finish (i := .fill irq dst len value) _ _ _ _ _ rfl
  | rleDec irq src slen dst len =>
    simp only [exec, execRleDec]
    refine effect_checked ?_
    split
    · exact ⟨_, rfl, effect_clobber _ _ _ (.inl ⟨_, _, _, _, _, rfl, rfl, rfl⟩)⟩
    · exact effect_finish (i := .rleDec irq src slen dst len) _ _ _ _ _ rfl
  | rleEnc irq fb src n dst cap p0 =>
    simp only [exec, execRleEnc]
    split
    · exact ⟨_, rfl, effect_raise _ s _ (by decide)⟩
    · exact effect_checked (effect_storeEncoded (i := .rleEnc irq fb src n dst cap p0) _ _ _ _ _ rfl)
  | rleDecp irq b dbe plsb src slen dst n =>
    simp only [exec, execRleDecp]
    refine effect_checked ?_
    split
    · exact ⟨_, rfl, effect_clobber _ _ _ (.inr ⟨_, _, _, _, _, _, _, _, rfl, rfl, rfl⟩)⟩
    · exact effect_finish (i := .rleDecp irq b dbe plsb src slen dst n) _ _ _ _ _ rfl
  | rleEncp irq b sbe plsb fb src n dst cap p0 =>
    simp only [exec, execRleEncp]
    split
    · exact ⟨_, rfl, effect_raise _ s _ (by decide)⟩
    · exact effect_checked (effect_storeEncoded (i := .rleEncp irq b sbe plsb fb src n dst cap p0) _ _ _ _ _ rfl)
  | bitconv irq wi wo sbe dbe rep inv src n dst p0 p1 =>
    simp only [exec, execBitconv]
    split
    · exact ⟨_, rfl, effect_raise _ s _ (by decide)⟩
    · split
      · exact ⟨_, rfl, effect_raise _ s _ (by decide)⟩
      · exact effect_checked
          (effect_finish (i := .bitconv irq wi wo sbe dbe rep inv src n dst p0 p1) _ _ _ _ _ rfl)
  | reorder irq w c src n dst p0 =>
    simp only [exec, execReorder]
    split_ifs
    · exact ⟨_, rfl, effect_raise _ s _ (by decide)⟩
    · exact ⟨_, rfl, effect_raise _ s _ (by decide)⟩
    · exact ⟨_, rfl, effect_raise _ s _ (by decide)⟩
    · exact ⟨_, rfl, effect_raise _ s _ (by decide)⟩
    · exact effect_finish (i := .reorder irq w c src n dst p0) _ _ _ _ _ rfl
  | deinterleave irq w c src n dst pp =>
    simp only [exec, execDeinterleave]
    split
    · exact ⟨_, rfl, effect_raise _ s _ (by decide)⟩
    · exact effect_checked (effect_finish (i := .deinterleave irq w c src n dst pp) _ _ _ _ _ rfl)
  | interleave irq w c src n dst pp =>
    simp only [exec, execInterleave]
    split
    · exact ⟨_, rfl, effect_raise _ s _ (by decide)⟩
    · exact effect_checked (effect_finish (i := .interleave irq w c src n dst pp) _ _ _ _ _ rfl)
  | rowflip irq base rows len pitch =>
    simp only [exec, execRowflip]
    split
    · exact ⟨_, rfl, effect_raise _ s _ (by decide)⟩
    · split
      · exact ⟨_, rfl, effect_raise _ s _ (by decide)⟩
      · exact effect_finish (i := .rowflip irq base rows len pitch) _ _ _ _ _ rfl
  | unpacksub irq bc lsbf src n dst rows ps pd =>
    simp only [exec, execUnpacksub]
    split_ifs
    · exact ⟨_, rfl, effect_raise _ s _ (by decide)⟩
    · exact ⟨_, rfl, effect_raise _ s _ (by decide)⟩
    · exact ⟨_, rfl, effect_raise _ s _ (by decide)⟩
    · exact effect_checked (effect_finish (i := .unpacksub irq bc lsbf src n dst rows ps pd) _ _ _ _ _ rfl)
  | packsub irq bc lsbf src n dst rows ps pd =>
    simp only [exec, execPacksub]
    split_ifs
    · exact ⟨_, rfl, effect_raise _ s _ (by decide)⟩
    · exact ⟨_, rfl, effect_raise _ s _ (by decide)⟩
    · exact ⟨_, rfl, effect_raise _ s _ (by decide)⟩
    · exact effect_checked (effect_finish (i := .packsub irq bc lsbf src n dst rows ps pd) _ _ _ _ _ rfl)
  | hdrLoad irq hdr hlen tbl k =>
    simp only [exec, execHdrLoad]
    split
    · exact ⟨_, rfl, effect_raise _ s _ (by decide)⟩
    split
    · exact ⟨_, rfl, effect_raise _ s _ (by decide)⟩
    split
    · rename_i h
      rcases firstBadEntry_code h with rfl | rfl <;> exact ⟨_, rfl, effect_raise _ s _ (by decide)⟩
    split
    · exact ⟨_, rfl, .inr (.inr ⟨[], _, _, .eMalformed, _, by decide, rfl,
        .inr (.inr ⟨rfl, rfl, rfl, _, _, _, _, _, rfl⟩)⟩)⟩
    · rename_i f _
      exact ⟨_, rfl, .inr (.inl ⟨rfl, [], f, k.toNat, 0, 0, 0, by
        simp only [State.complete_eq]; rfl, .inr ⟨rfl, _, _, _, _, _, rfl⟩⟩)⟩
  | hdrStore irq hdr hlen tbl k =>
    simp only [exec, execHdrStore]
    refine effect_checked ?_
    split
    · rename_i h
      rcases firstBadEntry_code h with rfl | rfl <;> exact ⟨_, rfl, effect_raise _ s _ (by decide)⟩
    · exact effect_finish (i := .hdrStore irq hdr hlen tbl k) _ _ _ _ _ rfl
  | chunkFind irq g opt region rlen tag =>
    have fin : ∀ r0 r1 r2 r3, ∃ t, s.finish irq r0 r1 r2 r3 = .next t ∧
        effect (.chunkFind irq g opt region rlen tag) s t := fun r0 r1 r2 r3 =>
      effect_finish (i := .chunkFind irq g opt region rlen tag) (s := s) [] r0 r1 r2 r3 rfl
    simp only [exec, execChunkFind]
    split
    · exact ⟨_, rfl, effect_raise _ s _ (by decide)⟩
    split
    · exact fin ..
    · exact ⟨_, rfl, effect_raise _ s _ (by decide)⟩
    · split
      · exact fin ..
      · exact ⟨_, rfl, effect_raise _ s _ (by decide)⟩

/-- The inversion: what a next state of an execution is. -/
theorem effect_of_exec {i : Instr} {s t : State} (h : exec i s = .next t) : effect i s t := by
  obtain ⟨u, hu, he⟩ := exec_effect i s
  rw [hu] at h
  cases h
  exact he

/-- A step of the machine is the ENGINE's or HOST's turn (70_reset_and_hazards.md R311). -/
theorem step_cases (s : State) :
    (s.engineNext = true ∧ s.status.busy = false ∧ step s = .next s.turnTaken) ∨
    (s.engineNext = true ∧ s.status.busy = true ∧
      ((∃ code info, s.fetchDecode = .error (code, info) ∧ step s = .next (s.turnTaken.raise code info)) ∨
        ∃ i, s.fetchDecode = .ok i ∧ step s = exec i s.turnTaken)) ∨
    (∃ act rest, s.turns = .host act :: rest ∧ step s = hostTurn { s with turns := rest } act) := by
  have engine : ∀ rest, s.turns.tail = rest → s.engineNext = true → step s = engineTurn { s with turns := rest } →
      (s.engineNext = true ∧ s.status.busy = false ∧ step s = .next s.turnTaken) ∨
      (s.engineNext = true ∧ s.status.busy = true ∧
        ((∃ code info, s.fetchDecode = .error (code, info) ∧ step s = .next (s.turnTaken.raise code info)) ∨
          ∃ i, s.fetchDecode = .ok i ∧ step s = exec i s.turnTaken)) := by
    rintro rest rfl he hs
    rw [hs]
    simp only [engineTurn]
    have hf : (State.fetchDecode { s with turns := s.turns.tail }) = s.fetchDecode := rfl
    rcases hb : s.status.busy with _ | _
    · exact .inl ⟨he, rfl, rfl⟩
    · refine .inr ⟨he, rfl, ?_⟩
      rw [hf]
      rcases hd : s.fetchDecode with ⟨code, info⟩ | i
      · exact .inl ⟨code, info, rfl, rfl⟩
      · exact .inr ⟨i, rfl, rfl⟩
  rcases ht : s.turns with _ | ⟨_ | act, rest⟩
  · rcases engine [] (by simp [ht]) (by simp [State.engineNext, ht]) (by
        simp only [step, ht]; rw [← ht]) with h | h
    · exact .inl h
    · exact .inr (.inl h)
  · rcases engine rest (by simp [ht]) (by simp [State.engineNext, ht]) (by simp [step, ht]) with h | h
    · exact .inl h
    · exact .inr (.inl h)
  · exact .inr (.inr ⟨act, rest, rfl, by simp [step, ht]⟩)

end Sys2Proof.Machine
end

