-- ==== Sys2Proof/Laws/Header.lean ====
section
/-! SUPPORT. The two passes of the header descriptors and the chunk walk, each said once by index. -/

namespace Sys2Proof.Machine

/-! ### Pass 1 (42_header.md R205, R207) -/

theorem entryFits_iff {m : Memory} {tbl hlen j : Nat} :
    entryFits m tbl hlen j = true ↔
      (entryAt m tbl j).ok = true ∧ (entryAt m tbl j).off + (entryAt m tbl j).width ≤ hlen := by
  simp [entryFits]

/-- Entries that all fit give no error. -/
theorem firstBadEntry_none {m : Memory} {tbl hlen : Nat} {short : ErrCode} {js : List Nat}
    (h : ∀ j ∈ js, entryFits m tbl hlen j = true) : firstBadEntry m tbl hlen short js = none := by
  induction js with
  | nil => rfl
  | cons j js ih =>
    have hj := entryFits_iff.mp (h j List.mem_cons_self)
    simp only [firstBadEntry, hj.1, Bool.not_true, Bool.false_eq_true, if_false, Nat.not_lt.mpr hj.2]
    exact ih fun x hx => h x (List.mem_cons_of_mem _ hx)

/-- The first entry that does not fit decides: E_PARAM if its encoding is bad, else `short`. -/
theorem firstBadEntry_append {m : Memory} {tbl hlen j : Nat} {short : ErrCode} {js ks : List Nat}
    (h : ∀ x ∈ js, entryFits m tbl hlen x = true) (hj : entryFits m tbl hlen j = false) :
    firstBadEntry m tbl hlen short (js ++ j :: ks) =
      some (if (entryAt m tbl j).ok = true then short else .eParam, j) := by
  induction js with
  | nil =>
    rcases hk : (entryAt m tbl j).ok with _ | _
    · simp [firstBadEntry, hk]
    · have : hlen < (entryAt m tbl j).off + (entryAt m tbl j).width := by
        simpa [entryFits, hk] using hj
      simp [firstBadEntry, hk, this]
  | cons x js ih =>
    have hx := entryFits_iff.mp (h x List.mem_cons_self)
    simp only [List.cons_append, firstBadEntry, hx.1, Bool.not_true, Bool.false_eq_true, if_false, Nat.not_lt.mpr hx.2]
    exact ih fun y hy => h y (List.mem_cons_of_mem _ hy)

/-- The indices `0 .. k-1` cut at `j`. -/
theorem range_split {j k : Nat} (h : j < k) :
    List.range k = List.range j ++ j :: (List.range (k - j - 1)).map (j + 1 + ·) := by
  have e : k = (j + 1) + (k - j - 1) := by omega
  conv_lhs => rw [e, List.range_add, List.range_succ]
  simp

theorem firstBadEntry_range {m : Memory} {tbl hlen j k : Nat} {short : ErrCode} (hk : j < k)
    (h : ∀ x < j, entryFits m tbl hlen x = true) (hj : entryFits m tbl hlen j = false) :
    firstBadEntry m tbl hlen short (List.range k) =
      some (if (entryAt m tbl j).ok = true then short else .eParam, j) := by
  rw [range_split hk]
  exact firstBadEntry_append (fun x hx => h x (List.mem_range.mp hx)) hj

/-! ### Pass 2 (R205) -/

/-- Loading entries `i, i+1, …` from the registers that `i` entries left. -/
theorem loadEntries_pass {m : Memory} {hdr tbl : Nat} {f : Vector Word 32} (n i : Nat)
    (h : ∀ j, i ≤ j → j < i + n → entryPasses m hdr tbl f j = true) :
    loadEntries m hdr tbl ((List.range n).map (i + ·)) (fieldsAfter m hdr tbl f i) =
      (fieldsAfter m hdr tbl f (i + n), none) := by
  induction n generalizing i with
  | zero => rfl
  | succ n ih =>
    have hi := h i (Nat.le_refl _) (by omega)
    have e : (List.range (n + 1)).map (i + ·) = i :: (List.range n).map (i + 1 + ·) := by
      rw [List.range_succ_eq_map]
      simp [Function.comp_def, Nat.add_comm, Nat.add_left_comm]
    rw [e, loadEntries]
    simp only [entryPasses, fieldsAfter] at hi
    simp only [hi, if_true]
    have := ih (i + 1) fun j h1 h2 => h j (by omega) (by omega)
    rw [show i + 1 + n = i + (n + 1) from by omega] at this
    exact this

/-- Every check passes: F after all the writes. -/
theorem loadEntries_all {m : Memory} {hdr tbl k : Nat} {f : Vector Word 32}
    (h : ∀ j < k, entryPasses m hdr tbl f j = true) :
    loadEntries m hdr tbl (List.range k) f = (fieldsAfter m hdr tbl f k, none) := by
  have := loadEntries_pass (m := m) (hdr := hdr) (tbl := tbl) (f := f) k 0 fun j _ hj => h j (by omega)
  simpa [fieldsAfter] using this

/-- A walk that passes hands its registers to the rest of the list. -/
theorem loadEntries_append {m : Memory} {hdr tbl : Nat} {js ks : List Nat} {f g : Vector Word 32}
    (h : loadEntries m hdr tbl js f = (g, none)) :
    loadEntries m hdr tbl (js ++ ks) f = loadEntries m hdr tbl ks g := by
  induction js generalizing f with
  | nil => simp only [loadEntries, Prod.mk.injEq] at h; rw [← h.1]; rfl
  | cons j js ih =>
    simp only [loadEntries] at h
    split_ifs at h with hc
    · simp only [List.cons_append, loadEntries, hc, if_true]
      exact ih h
    · simp at h

/-- The first failing check ends the walk at its entry, its own write made. -/
theorem loadEntries_stops {m : Memory} {hdr tbl j k : Nat} {f : Vector Word 32} (hk : j < k)
    (h : ∀ x < j, entryPasses m hdr tbl f x = true) (hj : entryPasses m hdr tbl f j = false) :
    loadEntries m hdr tbl (List.range k) f = (fieldsAfter m hdr tbl f (j + 1), some j) := by
  rw [range_split hk, loadEntries_append (loadEntries_all h), loadEntries]
  simp only [entryPasses, fieldsAfter] at hj
  simp only [hj, Bool.false_eq_true, if_false, fieldsAfter]

/-- A register that no entry names keeps its value. -/
theorem fieldReg_fieldsAfter_ne {m : Memory} {hdr tbl : Nat} {f : Vector Word 32} {a : BitVec 5} (k : Nat)
    (h : ∀ j < k, (entryAt m tbl j).idx ≠ a) : fieldReg (fieldsAfter m hdr tbl f k) a = fieldReg f a := by
  induction k with
  | zero => rfl
  | succ k ih =>
    rw [fieldsAfter, fieldReg_setFieldReg_ne _ _ fun e => h k (by omega) e.symm]
    exact ih fun j hj => h j (by omega)

/-- A register that the last entry naming it loads. -/
theorem fieldReg_fieldsAfter_last {m : Memory} {hdr tbl j : Nat} {f : Vector Word 32} (k : Nat) (hj : j < k)
    (h : ∀ x < k, j < x → (entryAt m tbl x).idx ≠ (entryAt m tbl j).idx) :
    fieldReg (fieldsAfter m hdr tbl f k) (entryAt m tbl j).idx = loadValue m hdr (entryAt m tbl j) := by
  induction k with
  | zero => omega
  | succ k ih =>
    rw [fieldsAfter]
    by_cases e : j = k
    · subst e; exact fieldReg_setFieldReg_same ..
    · rw [fieldReg_setFieldReg_ne _ _ fun e' => h k (by omega) (by omega) e'.symm]
      exact ih (by omega) fun x hx hjx => h x (by omega) hjx

/-! ### The chunk walk (R208, R209) -/

/-- One turn of the walk over a whole chunk that is not wanted. -/
theorem chunkLoop_skip {m : Memory} {al stop want fuel c : Nat} (hf : chunkFits m stop c) (hw : want ≠ 0)
    (ht : chunkTag m c ≠ want) :
    chunkLoop m al stop want (fuel + 1) c = chunkLoop m al stop want fuel (nextChunk c (chunkLen m c) al stop) := by
  obtain ⟨h1, h2⟩ := hf
  simp only [chunkTag] at ht
  simp only [chunkLen] at h2 ⊢
  simp only [chunkLoop, Nat.not_lt.mpr h1, Nat.not_lt.mpr h2, hw, ht, or_self, if_false]

/-- A chunk and its header lie before the next one. -/
theorem add_eight_le_nextChunk {m : Memory} {al stop c : Nat} (hf : chunkFits m stop c) :
    c + 8 ≤ nextChunk c (chunkLen m c) al stop := by
  obtain ⟨h1, -⟩ := hf
  simp only [nextChunk]
  generalize (chunkLen m c + al - 1) / al * al = p
  omega

/-- The walk after `i` skipped chunks, with `i` turns of fuel spent. -/
theorem chunkLoop_skips {m : Memory} {al region stop want fuel : Nat} (i : Nat)
    (h : chunksSkipped m al region stop want i) :
    chunkLoop m al stop want (fuel + i) region = chunkLoop m al stop want fuel (chunkAddr m al region stop i) := by
  induction i generalizing fuel with
  | zero => rfl
  | succ i ih =>
    have hi := h i (by omega)
    rw [show fuel + (i + 1) = fuel + 1 + i from by omega, ih fun j hj => h j (by omega),
      chunkLoop_skip hi.1 hi.2.1 hi.2.2]
    rfl

theorem le_chunkAddr {m : Memory} {al region stop want : Nat} (i : Nat)
    (h : chunksSkipped m al region stop want i) : region + 8 * i ≤ chunkAddr m al region stop i := by
  induction i with
  | zero => exact Nat.le_refl _
  | succ i ih =>
    have h1 := ih fun j hj => h j (by omega)
    have h2 := add_eight_le_nextChunk (al := al) (h i (by omega)).1
    rw [chunkAddr]
    omega

/-- The walk of a region goes on from the chunk after those it skips: the fuel `rlen / 8` is always enough. -/
theorem chunkFind_after_skips {m : Memory} {al region rlen want : Nat} (i : Nat)
    (h : chunksSkipped m al region (region + rlen) want i) :
    chunkFind m al region rlen want =
      chunkLoop m al (region + rlen) want (rlen / 8 - i) (chunkAddr m al region (region + rlen) i) := by
  have hle := le_chunkAddr i h
  have hi : i ≤ rlen / 8 := by
    cases i with
    | zero => exact Nat.zero_le _
    | succ i =>
      have h1 := le_chunkAddr i fun j hj => h j (by omega)
      have h2 := (h i (by omega)).1.1
      omega
  unfold chunkFind
  conv_lhs => rw [show rlen / 8 = rlen / 8 - i + i from by omega]
  exact chunkLoop_skips i h

end Sys2Proof.Machine
end

