-- ==== Sys2Proof/Laws/PerInstr.lean ====
section
/-! SUPPORT. Statements about every descriptor as syntax, one lemma per constructor. -/

namespace Sys2Proof.Laws.EncodedWord

/-- The control word of the encoding is one the decoder accepts: a defined OP, RSV = 0, no FLAGS bit outside the
mask, and W0.IRQ as the descriptor has it (30_encoding.md R110, R115, R117, R120). -/
def Statement (i : Instr) : Prop :=
  ∃ op irq fl, (encode i).w0 = encodeW0 op irq fl ∧ fl &&& ~~~op.flagMask = 0#16

theorem nop (irq : Bool) : Statement (.nop irq) :=
  ⟨_, _, _, rfl, rfl⟩

theorem stop (irq : Bool) : Statement (.stop irq) :=
  ⟨_, _, _, rfl, rfl⟩

theorem jump (irq : Bool) (target : Word) : Statement (.jump irq target) :=
  ⟨_, _, _, rfl, rfl⟩

theorem brf (irq rsel : Bool) (cond : Cond) (a : BitVec 5) (target imm : Word) :
    Statement (.brf irq rsel cond a target imm) :=
  ⟨_, _, _, rfl, flagsBrf_mask _ _ _⟩

theorem setf (irq : Bool) (a : BitVec 5) (imm : Word) : Statement (.setf irq a imm) :=
  ⟨_, _, _, rfl, flagsSetf_mask _⟩

theorem copy (irq : Bool) (src len dst : Word) : Statement (.copy irq src len dst) :=
  ⟨_, _, _, rfl, rfl⟩

theorem fill (irq : Bool) (dst len : Word) (value : Byte) : Statement (.fill irq dst len value) :=
  ⟨_, _, _, rfl, rfl⟩

theorem rleDec (irq : Bool) (src slen dst len : Word) : Statement (.rleDec irq src slen dst len) :=
  ⟨_, _, _, rfl, rfl⟩

theorem rleEnc (irq fb : Bool) (src n dst cap p0 : Word) : Statement (.rleEnc irq fb src n dst cap p0) :=
  ⟨_, _, _, rfl, flagsRleEnc_mask _⟩

theorem rleDecp (irq : Bool) (b : Nat) (dbe plsb : Bool) (src slen dst n : Word) :
    Statement (.rleDecp irq b dbe plsb src slen dst n) :=
  ⟨_, _, _, rfl, flagsPlanes_false_mask _ _ _⟩

theorem rleEncp (irq : Bool) (b : Nat) (sbe plsb fb : Bool) (src n dst cap p0 : Word) :
    Statement (.rleEncp irq b sbe plsb fb src n dst cap p0) :=
  ⟨_, _, _, rfl, flagsPlanes_mask _ _ _ _⟩

theorem bitconv (irq : Bool) (wi wo : Nat) (sbe dbe rep inv : Bool) (src n dst p0 p1 : Word) :
    Statement (.bitconv irq wi wo sbe dbe rep inv src n dst p0 p1) :=
  ⟨_, _, _, rfl, flagsBitconv_mask _ _ _ _ _ _⟩

theorem reorder (irq : Bool) (w c : Nat) (src n dst p0 : Word) : Statement (.reorder irq w c src n dst p0) :=
  ⟨_, _, _, rfl, flagsChannels_mask _ _⟩

theorem deinterleave (irq : Bool) (w c : Nat) (src n dst pp : Word) :
    Statement (.deinterleave irq w c src n dst pp) :=
  ⟨_, _, _, rfl, flagsChannels_mask _ _⟩

theorem interleave (irq : Bool) (w c : Nat) (src n dst pp : Word) : Statement (.interleave irq w c src n dst pp) :=
  ⟨_, _, _, rfl, flagsChannels_mask _ _⟩

theorem rowflip (irq : Bool) (base rows len pitch : Word) : Statement (.rowflip irq base rows len pitch) :=
  ⟨_, _, _, rfl, rfl⟩

theorem unpacksub (irq : Bool) (bc : BitVec 2) (lsbf : Bool) (src n dst rows ps pd : Word) :
    Statement (.unpacksub irq bc lsbf src n dst rows ps pd) :=
  ⟨_, _, _, rfl, flagsTwoOne_mask _ _⟩

theorem packsub (irq : Bool) (bc : BitVec 2) (lsbf : Bool) (src n dst rows ps pd : Word) :
    Statement (.packsub irq bc lsbf src n dst rows ps pd) :=
  ⟨_, _, _, rfl, flagsTwoOne_mask _ _⟩

theorem hdrLoad (irq : Bool) (hdr hlen tbl k : Word) : Statement (.hdrLoad irq hdr hlen tbl k) :=
  ⟨_, _, _, rfl, rfl⟩

theorem hdrStore (irq : Bool) (hdr hlen tbl k : Word) : Statement (.hdrStore irq hdr hlen tbl k) :=
  ⟨_, _, _, rfl, rfl⟩

theorem chunkFind (irq : Bool) (g : BitVec 2) (opt : Bool) (region rlen tag : Word) :
    Statement (.chunkFind irq g opt region rlen tag) :=
  ⟨_, _, _, rfl, flagsTwoOne_mask _ _⟩

end Sys2Proof.Laws.EncodedWord
end

