-- ==== Sys2Proof/Laws/Rle.lean ====
section
/-! SUPPORT. Packets, one turn of the decoder's and of the encoder's loop, and where the bytes of a sample lie. -/

namespace Sys2Proof.Machine

/-! ### Packets (41_rle.md R170) -/

theorem Packet.legal_iff {p : Packet} : p.legal = true ↔ 1 ≤ p.run ∧ p.run ≤ 128 := by
  simp [Packet.legal]

@[simp] theorem Packet.expand_length (p : Packet) : p.expand.length = p.run := by
  cases p <;> simp [Packet.expand, Packet.run]

@[simp] theorem Packet.verbatim_bytes_length (bs : List Byte) :
    (Packet.bytes (.verbatim bs)).length = bs.length + 1 := rfl

@[simp] theorem Packet.repeated_bytes_length (n : Nat) (b : Byte) : (Packet.bytes (.repeated n b)).length = 2 := rfl

theorem Packet.bytes_length_pos (p : Packet) : 1 ≤ p.bytes.length := by cases p <;> simp

@[simp] theorem packetBytes_nil : packetBytes [] = [] := rfl

@[simp] theorem packetBytes_cons (p : Packet) (ps : List Packet) : packetBytes (p :: ps) = p.bytes ++ packetBytes ps := rfl

@[simp] theorem packetBytes_append (ps qs : List Packet) :
    packetBytes (ps ++ qs) = packetBytes ps ++ packetBytes qs := by
  simp [packetBytes]

@[simp] theorem expandAll_nil : expandAll [] = [] := rfl

@[simp] theorem expandAll_cons (p : Packet) (ps : List Packet) : expandAll (p :: ps) = p.expand ++ expandAll ps := rfl

@[simp] theorem expandAll_append (ps qs : List Packet) : expandAll (ps ++ qs) = expandAll ps ++ expandAll qs := by
  simp [expandAll]

/-- Each legal packet gives at least one byte, so there are no more packets than bytes. -/
theorem length_le_expandAll {ps : List Packet} (h : ∀ p ∈ ps, p.legal = true) : ps.length ≤ (expandAll ps).length := by
  induction ps with
  | nil => simp
  | cons p ps ih =>
    have hp := (Packet.legal_iff.mp (h p (by simp))).1
    have := ih fun q hq => h q (by simp [hq])
    simp
    omega

/-! ### The decoder's loop (R171) -/

/-- The count byte of a legal verbatim packet. -/
theorem verbatim_count {n : Nat} (h1 : 1 ≤ n) (h2 : n ≤ 128) :
    (BitVec.ofNat 8 (n - 1)).toNat / 128 = 0 ∧ (BitVec.ofNat 8 (n - 1)).toNat % 128 + 1 = n := by
  rw [BitVec.toNat_ofNat]
  omega

/-- The count byte of a legal repeat packet. -/
theorem repeated_count {n : Nat} (h1 : 1 ≤ n) (h2 : n ≤ 128) :
    (BitVec.ofNat 8 (0x80 + (n - 1))).toNat / 128 = 1 ∧ (BitVec.ofNat 8 (0x80 + (n - 1))).toNat % 128 + 1 = n := by
  rw [BitVec.toNat_ofNat]
  omega

/-- One turn of the loop. -/
theorem decLoop_succ (fuel : Nat) (c : Byte) (rest : List Byte) (need p np : Nat) (out : List Byte) :
    decLoop (fuel + 1) (c :: rest) (need + 1) p np out =
      if need + 1 < c.toNat % 128 + 1 then .fail p
      else if c.toNat / 128 = 1 then
        match rest with
        | [] => .fail p
        | b :: rest' =>
          decLoop fuel rest' (need + 1 - (c.toNat % 128 + 1)) (p + 2) (np + 1)
            (out ++ List.replicate (c.toNat % 128 + 1) b)
      else if (rest.take (c.toNat % 128 + 1)).length < c.toNat % 128 + 1 then .fail p
      else
        decLoop fuel (rest.drop (c.toNat % 128 + 1)) (need + 1 - (c.toNat % 128 + 1)) (p + 1 + (c.toNat % 128 + 1))
          (np + 1) (out ++ rest.take (c.toNat % 128 + 1)) := rfl

/-- One turn on a legal packet that fits. -/
theorem decLoop_packet {p : Packet} {fuel need pos np : Nat} {rest out : List Byte} (hp : p.legal = true)
    (hn : p.run ≤ need) :
    decLoop (fuel + 1) (p.bytes ++ rest) need pos np out =
      decLoop fuel rest (need - p.run) (pos + p.bytes.length) (np + 1) (out ++ p.expand) := by
  obtain ⟨h1, h2⟩ := Packet.legal_iff.mp hp
  obtain ⟨need, rfl⟩ : ∃ k, need = k + 1 := ⟨need - 1, by omega⟩
  cases p with
  | verbatim bs =>
    simp only [Packet.run] at h1 h2 hn
    obtain ⟨c1, c2⟩ := verbatim_count h1 h2
    rw [Packet.bytes, List.cons_append, decLoop_succ]
    simp only [c1, c2, Packet.run, Packet.expand, List.length_cons]
    rw [if_neg (by omega), if_neg (by omega), if_neg (by simp), List.take_left, List.drop_left]
    congr 1
    omega
  | repeated n b =>
    simp only [Packet.run] at h1 h2 hn
    obtain ⟨c1, c2⟩ := repeated_count h1 h2
    rw [Packet.bytes, List.cons_append, decLoop_succ]
    simp only [c1, c2, Packet.run, Packet.expand, List.length_cons, List.length_nil]
    rw [if_neg (by omega), if_pos trivial]
    rfl

/-- As many turns as there are legal packets that fit. -/
theorem decLoop_packets {ps : List Packet} {fuel need pos np : Nat} {rest out : List Byte}
    (hp : ∀ p ∈ ps, p.legal = true) (hn : (expandAll ps).length ≤ need) (hf : ps.length ≤ fuel) :
    decLoop fuel (packetBytes ps ++ rest) need pos np out =
      decLoop (fuel - ps.length) rest (need - (expandAll ps).length) (pos + (packetBytes ps).length)
        (np + ps.length) (out ++ expandAll ps) := by
  induction ps generalizing fuel need pos np out with
  | nil => simp
  | cons p ps ih =>
    simp only [expandAll_cons, List.length_append, Packet.expand_length, List.length_cons] at hn hf
    obtain ⟨fuel, rfl⟩ : ∃ k, fuel = k + 1 := ⟨fuel - 1, by omega⟩
    rw [packetBytes_cons, List.append_assoc, decLoop_packet (hp p (by simp)) (by omega),
      ih (fun q hq => hp q (by simp [hq])) (by omega) (by omega)]
    simp only [List.length_cons, expandAll_cons, List.length_append, Packet.expand_length, List.append_assoc]
    congr 1 <;> omega

@[simp] theorem decLoop_zero (fuel : Nat) (inp : List Byte) (p np : Nat) (out : List Byte) :
    decLoop fuel inp 0 p np out = .ok out p np := by
  cases fuel <;> cases inp <;> rfl

/-- Dec on legal packets that give exactly the expected length. -/
theorem dec_packets {ps : List Packet} {tail : List Byte} (hp : ∀ p ∈ ps, p.legal = true) :
    dec (packetBytes ps ++ tail) (expandAll ps).length = .ok (expandAll ps) (packetBytes ps).length ps.length := by
  rw [dec, decLoop_packets hp (Nat.le_refl _) (length_le_expandAll hp)]
  simp

/-! ### The encoder's loop (R172) -/

theorem leading_le (b : Byte) (lim : Nat) (xs : List Byte) : leading b lim xs ≤ lim := by
  induction lim generalizing xs with
  | zero => cases xs <;> simp [leading]
  | succ lim ih =>
    cases xs with
    | nil => simp [leading]
    | cons x xs =>
      rw [leading]
      have := ih xs
      split <;> omega

theorem leading_le_length (b : Byte) (lim : Nat) (xs : List Byte) : leading b lim xs ≤ xs.length := by
  induction lim generalizing xs with
  | zero => cases xs <;> simp [leading]
  | succ lim ih =>
    cases xs with
    | nil => simp [leading]
    | cons x xs =>
      rw [leading]
      have := ih xs
      simp only [List.length_cons]
      split <;> omega

/-- The run found at the head is made of the byte looked for. -/
theorem take_leading (b : Byte) (lim : Nat) (xs : List Byte) :
    xs.take (leading b lim xs) = List.replicate (leading b lim xs) b := by
  induction lim generalizing xs with
  | zero => cases xs <;> simp [leading]
  | succ lim ih =>
    cases xs with
    | nil => simp [leading]
    | cons x xs =>
      rw [leading]
      split
      · next h => subst h; simp [List.replicate_succ, ih]
      · simp

/-- A head byte and the run after it are the repeated byte followed by the rest. -/
theorem replicate_leading_append (b : Byte) (lim : Nat) (rest : List Byte) :
    List.replicate (leading b lim rest + 1) b ++ rest.drop (leading b lim rest) = b :: rest := by
  rw [List.replicate_succ, List.cons_append, ← take_leading, List.take_append_drop]

/-- Once the fuel covers the input, more of it changes nothing. -/
theorem encLoop_fuel {lmax r : Nat} {fuel : Nat} {xs lit : List Byte} (h : xs.length ≤ fuel) :
    encLoop lmax r fuel xs lit = encLoop lmax r xs.length xs lit := by
  induction fuel using Nat.strong_induction_on generalizing xs lit with
  | _ fuel ih =>
    cases xs with
    | nil => cases fuel <;> rfl
    | cons b rest =>
      obtain ⟨fuel, rfl⟩ : ∃ k, fuel = k + 1 := ⟨fuel - 1, by simp at h; omega⟩
      simp only [List.length_cons, Nat.add_le_add_iff_right] at h
      have hd : (rest.drop (leading b (lmax - 1) rest + 1 - 1)).length ≤ rest.length := by simp
      simp only [encLoop, List.length_cons]
      rw [ih fuel (by omega) (Nat.le_trans hd h), ih fuel (by omega) h, ih fuel (by omega) h]
      by_cases hl : rest.length = fuel
      · subst hl
        rw [ih rest.length (by omega) hd]
      · rw [ih rest.length (by omega) hd]

/-- One turn of the encoder on a byte that starts a run long enough. -/
theorem encLoop_run {lmax r : Nat} {b : Byte} {rest lit : List Byte} (h : r ≤ leading b (lmax - 1) rest + 1) :
    encLoop lmax r (rest.length + 1) (b :: rest) lit =
      flushLit lit ++ .repeated (leading b (lmax - 1) rest + 1) b ::
        enc (rest.drop (leading b (lmax - 1) rest)) lmax r := by
  rw [encLoop]
  simp only [h, if_true, Nat.add_sub_cancel]
  rw [encLoop_fuel (by simp), enc]

/-- One turn of the encoder on a literal byte that fills a packet. -/
theorem encLoop_full {lmax r : Nat} {b : Byte} {rest lit : List Byte} (h : ¬ r ≤ leading b (lmax - 1) rest + 1)
    (hl : (lit ++ [b]).length = lmax) :
    encLoop lmax r (rest.length + 1) (b :: rest) lit = .verbatim (lit ++ [b]) :: enc rest lmax r := by
  rw [encLoop]
  simp only [h, hl, if_true, if_false]
  rfl

/-- One turn of the encoder on a literal byte that leaves room in the packet. -/
theorem encLoop_literal {lmax r : Nat} {b : Byte} {rest lit : List Byte} (h : ¬ r ≤ leading b (lmax - 1) rest + 1)
    (hl : (lit ++ [b]).length ≠ lmax) :
    encLoop lmax r (rest.length + 1) (b :: rest) lit = encLoop lmax r rest.length rest (lit ++ [b]) := by
  rw [encLoop]
  simp only [h, hl, if_false]

/-! ### Plane slicing (R177) -/

/-- Every byte of a sample belongs to some plane. -/
theorem samplePos_planeSig_surjective {b x : Nat} (be plsb : Bool) (hx : x < b) :
    ∃ j < b, samplePos b be (planeSig b plsb j) = x := by
  cases be <;> cases plsb <;> simp only [samplePos, planeSig, Bool.false_eq_true, if_true, if_false]
  · exact ⟨b - 1 - x, by omega, by omega⟩
  · exact ⟨x, hx, rfl⟩
  · exact ⟨x, hx, by omega⟩
  · exact ⟨b - 1 - x, by omega, by omega⟩

theorem samplePos_planeSig_lt {b j : Nat} (be plsb : Bool) (hj : j < b) : samplePos b be (planeSig b plsb j) < b := by
  cases be <;> cases plsb <;> simp only [samplePos, planeSig, Bool.false_eq_true, if_true, if_false] <;> omega

/-- Planes have different bytes of a sample. -/
theorem samplePos_planeSig_injective {b j k : Nat} (be plsb : Bool) (hj : j < b) (hk : k < b)
    (h : samplePos b be (planeSig b plsb j) = samplePos b be (planeSig b plsb k)) : j = k := by
  cases be <;> cases plsb <;> simp only [samplePos, planeSig, Bool.false_eq_true, if_true, if_false] at h <;> omega

end Sys2Proof.Machine
end

