-- ==== Sys2Proof/Machine/Assembly.lean ====
section
/-! DEFINITION. The assembler's view of a descriptor: its text (30_encoding.md R124), the pseudo-instructions
and their expansions (R125), and the composite uses of 43_pack.md R243 and R244. No other file of the model
reads this one. -/

namespace Sys2Proof

/-! ### Assembler text (R124) -/

/-- A number, in decimal. -/
def asmNum (w : Word) : String := toString w.toNat

/-- A suffix that is written when a flag is set. -/
def asmFlag (name : String) (on : Bool) : String := if on then "." ++ name else ""

/-- Operands, separated by commas. -/
def asmOps (ops : List String) : String := ", ".intercalate ops

/-- A line: mnemonic, suffixes, `.irq`, operands. -/
def asmLine (irq : Bool) (head : String) (ops : List String) : String :=
  head ++ asmFlag "irq" irq ++ (if ops = [] then "" else " " ++ asmOps ops)

/-- A field of a parameter word, as `name=value`. -/
def asmNamed (name : String) (v : Nat) : String := name ++ "=" ++ toString v

/-- BRF's condition suffix. -/
def Cond.asm : Cond → String
  | .eq => "eq"
  | .ne => "ne"
  | .ltu => "ltu"
  | .geu => "geu"

/-- The RLE encoder's parameters, W5 = MAXRUN/RMIN. -/
def asmEncParams (p0 : Word) : List String :=
  [asmNamed "maxrun" (p0.toNat % 256), asmNamed "rmin" (p0.toNat / 256 % 256)]

/-- A descriptor in the assembler syntax of R124; bits that no operand names do not show. -/
def Instr.asm : Instr → String
  | .nop irq => asmLine irq "NOP" []
  | .stop irq => asmLine irq "STOP" []
  | .jump irq target => asmLine irq "JUMP" [asmNum target]
  | .brf irq rsel cond a target imm =>
    asmLine irq ("BRF." ++ cond.asm)
      [(if rsel then "RES" else "F") ++ toString a.toNat, asmNum imm, asmNum target]
  | .setf irq a imm => asmLine irq "SETF" ["F" ++ toString a.toNat, asmNum imm]
  | .copy irq src len dst => asmLine irq "COPY" [asmNum dst, asmNum src, asmNum len]
  | .fill irq dst len value => asmLine irq "FILL" [asmNum dst, asmNum len, toString value.toNat]
  | .rleDec irq src slen dst len => asmLine irq "RLE_DEC" [asmNum dst, asmNum len, asmNum src, asmNum slen]
  | .rleEnc irq fb src n dst cap p0 =>
    asmLine irq ("RLE_ENC" ++ asmFlag "fb" fb) ([asmNum dst, asmNum cap, asmNum src, asmNum n] ++ asmEncParams p0)
  | .rleDecp irq b dbe plsb src slen dst n =>
    asmLine irq ("RLE_DECP.b" ++ toString b ++ asmFlag "dbe" dbe ++ asmFlag "plsb" plsb)
      [asmNum dst, asmNum n, asmNum src, asmNum slen]
  | .rleEncp irq b sbe plsb fb src n dst cap p0 =>
    asmLine irq ("RLE_ENCP.b" ++ toString b ++ asmFlag "sbe" sbe ++ asmFlag "plsb" plsb ++ asmFlag "fb" fb)
      ([asmNum dst, asmNum cap, asmNum src, asmNum n] ++ asmEncParams p0)
  | .bitconv irq wi wo sbe dbe rep inv src n dst p0 p1 =>
    asmLine irq ("BITCONV.w" ++ toString wi ++ toString wo ++ asmFlag "sbe" sbe ++ asmFlag "dbe" dbe ++
        asmFlag "rep" rep ++ asmFlag "inv" inv)
      [asmNum dst, asmNum src, asmNum n, asmNamed "N" (p0.toNat % 64), asmNamed "M" (p0.toNat / 256 % 64),
        asmNamed "S" (p0.toNat / 65536 % 32), asmNamed "si" (p1.toNat % 65536), asmNamed "so" (p1.toNat / 65536)]
  | .reorder irq w c src n dst p0 =>
    asmLine irq ("REORDER.e" ++ toString w ++ ".c" ++ toString c)
      [asmNum dst, asmNum src, asmNum n,
        "map=" ++ String.join ((List.range 4).map fun k => toString (p0.toNat / 4 ^ k % 4))]
  | .deinterleave irq w c src n dst pp =>
    asmLine irq ("DEINTERLEAVE.e" ++ toString w ++ ".c" ++ toString c)
      [asmNum dst, asmNum src, asmNum n, asmNamed "pp" pp.toNat]
  | .interleave irq w c src n dst pp =>
    asmLine irq ("INTERLEAVE.e" ++ toString w ++ ".c" ++ toString c)
      [asmNum dst, asmNum src, asmNum n, asmNamed "pp" pp.toNat]
  | .rowflip irq base rows len pitch =>
    asmLine irq "ROWFLIP" [asmNum base, asmNum rows, asmNum len, asmNamed "p" pitch.toNat]
  | .unpacksub irq bc lsbf src n dst rows ps pd =>
    asmLine irq ("UNPACKSUB.bits" ++ toString (2 ^ bc.toNat) ++ asmFlag "lsbf" lsbf)
      [asmNum dst, asmNum src, asmNum n, asmNum rows, asmNamed "ps" ps.toNat, asmNamed "pd" pd.toNat]
  | .packsub irq bc lsbf src n dst rows ps pd =>
    asmLine irq ("PACKSUB.bits" ++ toString (2 ^ bc.toNat) ++ asmFlag "lsbf" lsbf)
      [asmNum dst, asmNum src, asmNum n, asmNum rows, asmNamed "ps" ps.toNat, asmNamed "pd" pd.toNat]
  | .hdrLoad irq hdr hlen tbl k =>
    asmLine irq "HDR_LOAD" [asmNum hdr, asmNum hlen, asmNamed "table" tbl.toNat, asmNamed "k" k.toNat]
  | .hdrStore irq hdr hlen tbl k =>
    asmLine irq "HDR_STORE" [asmNum hdr, asmNum hlen, asmNamed "table" tbl.toNat, asmNamed "k" k.toNat]
  | .chunkFind irq g opt region rlen tag =>
    asmLine irq ("CHUNK_FIND.g" ++ toString g.toNat ++ asmFlag "opt" opt)
      [asmNum region, asmNum rlen, asmNamed "tag" tag.toNat]

/-! ### Pseudo-instructions (R125) -/

/-- The pseudo-instructions, operands in the assembler's order. -/
inductive Pseudo where
  | halt
  | b (target : Word)
  | branch (cond : Cond) (a : BitVec 5) (imm target : Word)
  | bfound (target : Word)
  | braw (target : Word)
  | bgr2rgb (w : Nat) (dst src n : Word)
  | rgb2bgr (w : Nat) (dst src n : Word)
  | bgra2rgba (w : Nat) (dst src n : Word)
  | bswap16 (dst src n : Word)
  | bswap32 (dst src n : Word)
  | clr (dst len : Word)
  | upscale (n m : Nat) (dst src cnt : Word)
deriving DecidableEq, Repr

/-- The map word of `map=m0m1m2m3` (R124). -/
def mapWord (m0 m1 m2 m3 : Nat) : Word := BitVec.ofNat 32 (m0 + 4 * m1 + 16 * m2 + 64 * m3)

/-- The word of N, M and S (R119). -/
def depthWord (n m sh : Nat) : Word := BitVec.ofNat 32 (n + 2 ^ 8 * m + 2 ^ 16 * sh)

/-- The word of SI and SO (R119). -/
def strideWord (si so : Nat) : Word := BitVec.ofNat 32 (si + 2 ^ 16 * so)

/-- The expansions of R125. -/
def Pseudo.expand : Pseudo → Instr
  | .halt => .stop false
  | .b target => .jump false target
  | .branch cond a imm target => .brf false false cond a target imm
  | .bfound target => .brf false true .ne 0#5 target 0#32
  | .braw target => .brf false true .ne 1#5 target 0#32
  | .bgr2rgb w dst src n => .reorder false w 3 src n dst (mapWord 2 1 0 3)
  | .rgb2bgr w dst src n => .reorder false w 3 src n dst (mapWord 2 1 0 3)
  | .bgra2rgba w dst src n => .reorder false w 4 src n dst (mapWord 2 1 0 3)
  | .bswap16 dst src n => .reorder false 1 2 src n dst (mapWord 1 0 2 3)
  | .bswap32 dst src n => .reorder false 1 4 src n dst (mapWord 3 2 1 0)
  | .clr dst len => .fill false dst len 0#8
  | .upscale n m dst src cnt =>
    .bitconv false ((n + 7) / 8) ((m + 7) / 8) false false false false src cnt dst (depthWord n m 0) 0#32

/-! ### Composite uses (43_pack.md R243, R244) -/

/-- One channel of a 5-5-5 pixel to an 8-bit RGB buffer (R243). -/
def targaChannel (dst src n : Word) (sh : Nat) : Instr :=
  .bitconv false 2 1 false false false false src n dst (depthWord 5 8 sh) (strideWord 2 3)

/-- TARGA 16 bpp 5-5-5 to 8-bit RGB (R243). -/
def targa555 (dst src n : Word) : List Instr :=
  [targaChannel dst src n 10, targaChannel (dst + 1#32) src n 5, targaChannel (dst + 2#32) src n 0]

/-- ICO AND mask from the alpha of `w * h` RGBA pixels, `n = w * h` (R244, encode). -/
def icoMaskEncode (tmp px mask w h n : Word) : List Instr :=
  [.bitconv false 1 1 false false false true (px + 3#32) n tmp (depthWord 8 1 0) (strideWord 4 0),
    .packsub false 0#2 false tmp w mask h 0#32 0#32]

/-- Alpha of `w * h` RGBA pixels from an ICO AND mask, `n = w * h` (R244, decode). -/
def icoMaskDecode (tmp px mask w h n : Word) : List Instr :=
  [.unpacksub false 0#2 false mask w tmp h 0#32 0#32,
    .bitconv false 1 1 false false false true tmp n (px + 3#32) (depthWord 1 8 0) (strideWord 0 4)]

end Sys2Proof
end

