-- ==== Sys2Proof/Tests/Slice0.lean ====
section
/-! SUPPORT. Tests: the ill-formed terms WellFormed refuses, one hand-written word per constructor, at most two
one-step vectors per descriptor (spec/95_test_vectors.md, whose number each test names), HOST's side, and a witness
for the hypotheses of every statement that has some. -/

namespace Sys2Proof.Tests

open Sys2Proof.Machine

-- Tests are checked one after the other: kernel evaluations started in parallel each reserve their own heap.
set_option Elab.async false

/-! ### Helpers -/

/-- Bytes written as numbers. -/
def bytes (bs : List Nat) : List Byte := bs.map (BitVec.ofNat 8)

/-- Eight words written as numbers. -/
def words (w : List Nat) : Desc :=
  let g := fun k => BitVec.ofNat 32 (w.getD k 0)
  ⟨g 0, g 1, g 2, g 3, g 4, g 5, g 6, g 7⟩

/-- The state after reset with some byte sequences in `M`. -/
def loaded (regions : List (Nat × List Nat)) : State :=
  { State.reset with mem := regions.foldl (fun m r => m.writeCells (cellsAt r.1 (bytes r.2))) State.reset.mem }

/-- The same, running the chain at 0x40. -/
def running (regions : List (Nat × List Nat)) : State :=
  { loaded regions with status := ⟨true, false, false, .noError⟩, pc := 0x40#32 }

/-- A running machine whose next descriptor is the one given as words (95_test_vectors.md section 0). -/
def machine (regions : List (Nat × List Nat)) (w : List Nat) : State :=
  (running regions).store (cellsAt 0x40 (bytesOfDesc (words w)))

/-- The next state, if there is one. -/
def after (o : Out) : Option State :=
  match o with
  | .next t => some t
  | .fault _ => none
  | .refused _ => none

/-- RES0..RES3 as numbers and the bytes of a range after a step. -/
def leaves (o : Out) (a n : Nat) : Option (List Nat × List Nat) :=
  (after o).map fun t => (t.res.toList.map BitVec.toNat, (t.mem.readBytes a n).map BitVec.toNat)

/-- STATUS, ERR_PC, ERR_INFO and DESC_PC after a step. -/
def failsWith (o : Out) : Option (List Nat) :=
  (after o).map fun t => [t.status.word.toNat, t.errPc.toNat, t.errInfo.toNat, t.pc.toNat]

/-- The state with HOST's next access put first. -/
def hostNext (s : State) (act : HostAct) : State := { s with turns := [.host act] }

/-! ### WellFormed refuses each ill-formed term -/

theorem test_wf_rleDecp_zero : (Instr.rleDecp false 0 false false 0 0 0 0).wf = false := by decide
theorem test_wf_rleDecp_five : (Instr.rleDecp false 5 false false 0 0 0 0).wf = false := by decide
theorem test_wf_rleEncp_five : (Instr.rleEncp false 5 false false false 0 0 0 0 0).wf = false := by decide
theorem test_wf_bitconv_source :
    (Instr.bitconv false 0 1 false false false false 0 0 0 0 0).wf = false := by decide
theorem test_wf_bitconv_destination :
    (Instr.bitconv false 1 5 false false false false 0 0 0 0 0).wf = false := by decide
theorem test_wf_reorder_width : (Instr.reorder false 5 1 0 0 0 0).wf = false := by decide
theorem test_wf_reorder_channels : (Instr.reorder false 1 0 0 0 0 0).wf = false := by decide
theorem test_wf_deinterleave_width : (Instr.deinterleave false 0 1 0 0 0 0).wf = false := by decide
theorem test_wf_deinterleave_channels : (Instr.deinterleave false 1 5 0 0 0 0).wf = false := by decide
theorem test_wf_interleave_width : (Instr.interleave false 5 1 0 0 0 0).wf = false := by decide
theorem test_wf_interleave_channels : (Instr.interleave false 1 0 0 0 0 0).wf = false := by decide

/-! ### Decoding: one word per constructor, written out from 30_encoding.md R110, R117, R119, R120
(FLAGS in bits 31..16, RSV in 15..9, IRQ in 8, OP in 7..0) -/

theorem test_decode_nop :
    decode (words [0b00000000000000000000000100000000]) = .ok (.nop true) := by decide
theorem test_decode_stop :
    decode (words [0b00000000000000000000000000000001]) = .ok (.stop false) := by decide
theorem test_decode_jump :
    decode (words [0b00000000000000000000000000000010, 0x104]) = .ok (.jump false 0x104#32) := by decide
theorem test_decode_brf :
    decode (words [0b00000000101000110000000000000011, 0x200, 0, 0, 0, 7]) =
      .ok (.brf false true .ltu 3#5 0x200#32 7#32) := by decide
theorem test_decode_setf :
    decode (words [0b00000000000111110000000000000100, 0, 0, 0, 0, 0xBAD]) =
      .ok (.setf false 31#5 0xBAD#32) := by decide
theorem test_decode_copy :
    decode (words [0b00000000000000000000000100001000, 0x100, 3, 0x200]) =
      .ok (.copy true 0x100#32 3#32 0x200#32) := by decide
theorem test_decode_fill :
    decode (words [0b00000000000000000000000000001001, 0, 0, 0x300, 4, 0x1AB]) =
      .ok (.fill false 0x300#32 4#32 0xAB#8) := by decide
theorem test_decode_rleDec :
    decode (words [0b00000000000000000000000000010000, 0x1000, 5, 0x2000, 6]) =
      .ok (.rleDec false 0x1000#32 5#32 0x2000#32 6#32) := by decide
theorem test_decode_rleEnc :
    decode (words [0b00000000000100000000000000010001, 0x1000, 192, 0x2000, 0x400, 0x200]) =
      .ok (.rleEnc false true 0x1000#32 192#32 0x2000#32 0x400#32 0x200#32) := by decide
theorem test_decode_rleDecp :
    decode (words [0b00000000000001110000000000010010, 0x1048, 11, 0x3000, 4]) =
      .ok (.rleDecp false 4 true false 0x1048#32 11#32 0x3000#32 4#32) := by decide
theorem test_decode_rleEncp :
    decode (words [0b00000000000110110000000000010011, 0x1000, 3, 0x2000, 64, 0x300]) =
      .ok (.rleEncp false 4 false true true 0x1000#32 3#32 0x2000#32 64#32 0x300#32) := by decide
theorem test_decode_bitconv :
    decode (words [0b00000000010001100000000000100000, 0x100, 9, 0x200, 0, 0x805, 0x40003]) =
      .ok (.bitconv false 3 2 false false true false 0x100#32 9#32 0x200#32 0x805#32 0x40003#32) := by decide
theorem test_decode_reorder :
    decode (words [0b00000000000010010000000000100001, 0x100, 2, 0x200, 0, 0xC6]) =
      .ok (.reorder false 2 3 0x100#32 2#32 0x200#32 0xC6#32) := by decide
theorem test_decode_deinterleave :
    decode (words [0b00000000000010000000000000100010, 0x100, 2, 0x200, 0, 4]) =
      .ok (.deinterleave false 1 3 0x100#32 2#32 0x200#32 4#32) := by decide
theorem test_decode_interleave :
    decode (words [0b00000000000001000000000000100011, 0x200, 2, 0x300, 0, 4]) =
      .ok (.interleave false 1 2 0x200#32 2#32 0x300#32 4#32) := by decide
theorem test_decode_rowflip :
    decode (words [0b00000000000000000000000000100100, 0, 0, 0x100, 3, 2, 5]) =
      .ok (.rowflip false 0x100#32 3#32 2#32 5#32) := by decide
theorem test_decode_unpacksub :
    decode (words [0b00000000000001010000000000100101, 0x100, 4, 0x200, 1, 8, 9]) =
      .ok (.unpacksub false 1#2 true 0x100#32 4#32 0x200#32 1#32 8#32 9#32) := by decide
theorem test_decode_packsub :
    decode (words [0b00000000000000100000000000100110, 0x100, 4, 0x200, 1, 8, 9]) =
      .ok (.packsub false 2#2 false 0x100#32 4#32 0x200#32 1#32 8#32 9#32) := by decide
theorem test_decode_hdrLoad :
    decode (words [0b00000000000000000000000000110000, 0x600, 6, 0, 0, 0x500, 3]) =
      .ok (.hdrLoad false 0x600#32 6#32 0x500#32 3#32) := by decide
theorem test_decode_hdrStore :
    decode (words [0b00000000000000000000000000110001, 0, 0, 0x600, 6, 0x500, 3]) =
      .ok (.hdrStore false 0x600#32 6#32 0x500#32 3#32) := by decide
theorem test_decode_chunkFind :
    decode (words [0b00000000000001100000000000110010, 0x800, 40, 0, 0, 0x54424844]) =
      .ok (.chunkFind false 2#2 true 0x800#32 40#32 0x54424844#32) := by decide
/-- V-D5 to V-D9, in the order of R111's checks. -/
theorem test_decode_rejects :
    decode (words [0x205]) = .error (.undefinedOp 0x205#32) ∧ decode (words [0x200]) = .error (.reservedBits 0x200#32) ∧
    decode (words [0x10000]) = .error (.flagBits 0x10000#32) ∧
    decode (words [0x10011]) = .error (.flagBits 0x10011#32) := by decide
/-- The table's numbering of bits: W0 first; bits the table does not number are 0. -/
theorem test_table_word :
    decodeTableWord 32 0x00100011 = some (.rleEnc false true 0 0 0 0 0) ∧
    decodeTableWord 64 0x0000010400000002 = some (.jump false 0x104#32) ∧ decodeTableWord 32 0x5 = none := by decide

/-! ### One step each -/

/-- V-D1, V-D4. -/
theorem test_fetch_align :
    failsWith (step { running [] with pc := 0x44#32 }) = some [0x204, 0x44, 0x44, 0x44] ∧
    failsWith (step { running [] with pc := 0x10004#32 }) = some [0x204, 0x10004, 0x10004, 0x10004] := by decide
/-- V-D2, V-D3. -/
theorem test_fetch_range :
    failsWith (step { running [] with pc := 0xFFE0#32 }) = some [1, 0, 0, 0x10000] ∧
    failsWith (step { running [] with pc := 0x10000#32 }) = some [0x304, 0x10000, 0x10000, 0x10000] := by decide +kernel
/-- V-D6. -/
theorem test_fetch_illegal : failsWith (step (machine [] [0x205])) = some [0x104, 0x40, 0x205, 0x40] := by decide +kernel
/-- V-K1. -/
theorem test_nop : failsWith (step (machine [] [0])) = some [1, 0, 0, 0x60] := by decide +kernel
/-- V-K2. -/
theorem test_stop :
    (after (step { machine [] [0x101] with irqEnable := 7#3 })).map
      (fun t => (t.status.word, t.pc, t.irqStatus, t.irq)) = some (2#32, 0x60#32, 5#3, true) := by decide +kernel
/-- V-K4. -/
theorem test_jump : failsWith (step (machine [] [2, 0x104])) = some [1, 0, 0, 0x104] := by decide +kernel
/-- V-K10, V-K11: unsigned conditions on RES3 = 0xFFFFFFFF. -/
theorem test_brf :
    let s := fun w => { machine [] w with res := #v[0, 1, 2, 0xFFFFFFFF] }
    failsWith (step (s [0x00A30003, 0x200, 0, 0, 0, 0])) = some [1, 0, 0, 0x60] ∧
    failsWith (step (s [0x00E30003, 0x200, 0, 0, 0, 0x80000000])) = some [1, 0, 0, 0x200] := by decide +kernel
/-- V-K12: RES4 does not exist. -/
theorem test_brf_bad_index : failsWith (step (machine [] [0x00240003, 0x200])) = some [0x404, 0x40, 4, 0x40] := by
  decide +kernel
/-- V-K14. -/
theorem test_setf :
    (after (step (machine [] [0x001F0004, 0, 0, 0, 0, 0xFFFFFFFF]))).map
      (fun t => (fieldReg t.f 31#5, fieldReg t.f 30#5, t.pc)) = some (0xFFFFFFFF#32, 0#32, 0x60#32) := by
  decide +kernel
/-- V-M1. -/
theorem test_copy :
    leaves (step (machine [(0x100, [1, 2, 3])] [8, 0x100, 3, 0x200])) 0x200 4 = some ([3, 0, 0, 0], [1, 2, 3, 0]) := by
  decide +kernel
/-- V-M2, V-M4: overlap, and a start past MEM_BYTES even at length 0. -/
theorem test_copy_checks :
    failsWith (step (machine [] [8, 0x100, 3, 0x102])) = some [0x504, 0x40, 0x102, 0x40] ∧
    failsWith (step (machine [] [8, 0x10001, 0, 0])) = some [0x304, 0x40, 0x10001, 0x40] := by decide +kernel
/-- V-M7. -/
theorem test_fill :
    leaves (step (machine [] [9, 0, 0, 0x300, 4, 0x1AB])) 0x2FF 6 = some ([4, 0, 0, 0], [0, 171, 171, 171, 171, 0]) := by
  decide +kernel
/-- V-M8. -/
theorem test_fill_range : failsWith (step (machine [] [9, 0, 0, 0xFFFF, 2])) = some [0x304, 0x40, 0xFFFF, 0x40] := by
  decide +kernel
/-- X2 exact. -/
theorem test_rleDec :
    leaves (step (machine [(0x1000, [0x82, 0x41, 1, 0x42, 0x43])] [0x10, 0x1000, 5, 0x2000, 5])) 0x2000 6 =
      some ([5, 5, 2, 0], [0x41, 0x41, 0x41, 0x42, 0x43, 0]) := by decide +kernel
/-- V-R8: the second packet does not fit. -/
theorem test_rleDec_corrupt :
    failsWith (step (machine [(0x1000, [0x81, 0x41, 5])] [0x10, 0x1000, 3, 0x2000, 8])) =
      some [0x704, 0x40, 2, 0x40] := by decide +kernel
/-- V-E10: maxrun 4. -/
theorem test_rleEnc :
    leaves (step (machine [(0x1000, [7, 7, 7, 7, 7, 7, 7, 7, 7, 7])] [0x11, 0x1000, 10, 0x2000, 0x400, 0x304])) 0x2000 8 =
      some ([7, 0, 7, 3], [0x83, 7, 0x83, 7, 1, 7, 7, 0]) := by decide +kernel
/-- V-E13: a tie is stored raw. -/
theorem test_rleEnc_raw :
    leaves (step (machine [(0x1000, [5, 5])] [0x00100011, 0x1000, 2, 0x2000, 0x400, 0x200])) 0x2000 2 =
      some ([2, 1, 2, 1], [5, 5]) := by decide +kernel
/-- V-P3: big-endian planes back to little-endian samples. -/
theorem test_rleDecp :
    leaves (step (machine [(0x1000, [0x82, 0x12, 2, 0x34, 0x35, 0x36])] [0x00010012, 0x1000, 6, 0x2000, 3])) 0x2000 6 =
      some ([6, 6, 2, 0], [0x34, 0x12, 0x35, 0x12, 0x36, 0x12]) := by decide +kernel
/-- V-P10: plane 1 runs past n. -/
theorem test_rleDecp_corrupt :
    failsWith (step (machine [(0x1000, [0x81, 0x11, 0x82, 0x22])] [0x00010012, 0x1000, 4, 0x2000, 2])) =
      some [0x704, 0x40, 2, 0x40] := by decide +kernel
/-- V-P6: PLSB. -/
theorem test_rleEncp :
    leaves (step (machine [(0x1000, [0x78, 0x56, 0x34, 0x12, 0x78, 0x56, 0x34, 0x12, 0x78, 0x56, 0x34, 0x12])]
      [0x000B0013, 0x1000, 3, 0x2000, 64, 0x300])) 0x2000 8 =
      some ([8, 0, 8, 4], [0x82, 0x78, 0x82, 0x56, 0x82, 0x34, 0x82, 0x12]) := by decide +kernel
/-- V-P12: raw fallback. -/
theorem test_rleEncp_raw :
    leaves (step (machine [(0x1000, [1, 2, 3, 4])] [0x00110013, 0x1000, 2, 0x2000, 64, 0x300])) 0x2000 4 =
      some ([4, 1, 6, 2], [1, 2, 3, 4]) := by decide +kernel
/-- V-B13: REP 24 to 32 in a 3-byte container is not ROUND; this is V-B4, 10 to 16. -/
theorem test_bitconv :
    leaves (step (machine [(0x100, [0, 0, 0xFF, 3, 0, 2])] [0x00050020, 0x100, 3, 0x200, 0, 0x100A])) 0x200 6 =
      some ([3, 0, 0, 0], [0, 0, 0xFF, 0xFF, 0x20, 0x80]) := by decide +kernel
/-- V-B11: 3 to 32 by replication. -/
theorem test_bitconv_rep :
    leaves (step (machine [(0x100, [5])] [0x004C0020, 0x100, 1, 0x200, 0, 0x2003])) 0x200 4 =
      some ([1, 0, 0, 0], [0xB6, 0x6D, 0xDB, 0xB6]) := by decide +kernel
/-- V-O3: two-byte elements. -/
theorem test_reorder :
    leaves (step (machine [(0x100, [0x11, 0x12, 0x21, 0x22, 0x31, 0x32])] [0x00090021, 0x100, 1, 0x200, 0, 0xC6])) 0x200 6 =
      some ([1, 0, 0, 0], [0x31, 0x32, 0x21, 0x22, 0x11, 0x12]) := by decide +kernel
/-- V-O9: in place. -/
theorem test_reorder_in_place :
    leaves (step (machine [(0x100, [1, 2, 3, 4, 5, 6])] [0x00080021, 0x100, 2, 0x100, 0, 0xC6])) 0x100 6 =
      some ([2, 0, 0, 0], [3, 2, 1, 6, 5, 4]) := by decide +kernel
/-- V-I1. -/
theorem test_deinterleave :
    leaves (step (machine [(0x100, [0x10, 0x20, 0x30, 0x11, 0x21, 0x31]), (0x202, [0xEE, 0xEE])]
      [0x00080022, 0x100, 2, 0x200, 0, 4])) 0x200 10 =
      some ([2, 4, 0, 0], [0x10, 0x11, 0xEE, 0xEE, 0x20, 0x21, 0, 0, 0x30, 0x31]) := by decide +kernel
/-- V-I2. -/
theorem test_deinterleave_pitch :
    failsWith (step (machine [] [0x00080022, 0x100, 2, 0x200, 0, 1])) = some [0x404, 0x40, 1, 0x40] := by decide +kernel
/-- V-I4. -/
theorem test_interleave :
    leaves (step (machine [(0x200, [1, 2, 0, 0, 3, 4])] [0x00040023, 0x200, 2, 0x300, 0, 4])) 0x300 4 =
      some ([2, 4, 0, 0], [1, 3, 2, 4]) := by decide +kernel
/-- V-I5: the source hull holds the plane gap. -/
theorem test_interleave_overlap :
    failsWith (step (machine [] [0x00040023, 0x200, 2, 0x202, 0, 4])) = some [0x504, 0x40, 0x202, 0x40] := by
  decide +kernel
/-- V-F2: pad bytes stay. -/
theorem test_rowflip :
    leaves (step (machine [(0x100, [1, 2, 0xEE, 3, 4, 0xEE])] [0x24, 0, 0, 0x100, 2, 2, 3])) 0x100 6 =
      some ([1, 0, 0, 0], [3, 4, 0xEE, 1, 2, 0xEE]) := by decide +kernel
/-- V-F4: the middle row stays. -/
theorem test_rowflip_odd :
    leaves (step (machine [(0x100, [1, 2, 3, 4, 5, 6])] [0x24, 0, 0, 0x100, 3, 2])) 0x100 6 =
      some ([1, 0, 0, 0], [5, 6, 3, 4, 1, 2]) := by decide +kernel
/-- V-S4: two rows, default pitches. -/
theorem test_unpacksub :
    leaves (step (machine [(0x100, [0xF0, 0, 0, 0, 0x0F])] [0x00000025, 0x100, 8, 0x200, 2])) 0x200 16 =
      some ([16, 4, 8, 0], [1, 1, 1, 1, 0, 0, 0, 0, 0, 0, 0, 0, 1, 1, 1, 1]) := by decide +kernel
/-- V-S6: a sub-byte width of 8 reports W0. -/
theorem test_unpacksub_width :
    failsWith (step (machine [] [0x00030025, 0x100, 1, 0x200, 1])) = some [0x404, 0x40, 0x30025, 0x40] := by decide +kernel
/-- V-S10: LSB first, the row padded with zeros. -/
theorem test_packsub :
    leaves (step (machine [(0x100, [0, 1, 2, 3]), (0x200, [9, 9, 9, 9, 9])] [0x00050026, 0x100, 4, 0x200, 1])) 0x200 5 =
      some ([4, 4, 4, 0], [0xE4, 0, 0, 0, 9]) := by decide +kernel
/-- V-S11: high bits of the source bytes are dropped. -/
theorem test_packsub_masks :
    leaves (step (machine [(0x100, [0xFA, 5])] [0x00020026, 0x100, 2, 0x200, 1])) 0x200 4 =
      some ([2, 2, 4, 0], [0xA5, 0, 0, 0]) := by decide +kernel
/-- V-H2: big-endian and signed little-endian fields. -/
theorem test_hdrLoad :
    (after (step (machine [(0x600, [0x12, 0x34, 0x56, 0x78, 0xFF, 0xFE]), (0x500, [0, 0, 6, 0]), (0x510, [4, 0, 0x29, 0])]
      [0x30, 0x600, 6, 0, 0, 0x500, 2]))).map (fun t => (fieldReg t.f 0#5, fieldReg t.f 1#5, resultReg t.res 0#2)) =
      some (0x12345678#32, 0xFFFFFEFF#32, 2#32) := by decide +kernel
/-- V-H11: the second check fails, its write stays. -/
theorem test_hdrLoad_malformed :
    (after (step (machine [(0x600, [10, 0, 5, 0]), (0x500, [0, 0, 1, 0]), (0x510, [2, 0, 0x21, 0x14])]
      [0x30, 0x600, 4, 0, 0, 0x500, 2]))).map (fun t => (t.status.word, t.errInfo, fieldReg t.f 0#5, fieldReg t.f 1#5)) =
      some (0x804#32, 1#32, 10#32, 5#32) := by decide +kernel
/-- V-W4: the later entry wins. -/
theorem test_hdrStore :
    let s := machine [(0x600, [0xEE, 0xEE, 0xEE]), (0x500, [0, 0, 1, 0]), (0x510, [1, 0, 0x20, 0])]
      [0x31, 0, 0, 0x600, 2, 0x500, 2]
    leaves (step { s with f := setFieldReg (setFieldReg s.f 0#5 0x1111#32) 1#5 0x22#32 }) 0x600 3 =
      some ([2, 0, 0, 0], [0x11, 0x22, 0xEE]) := by decide +kernel
/-- V-W5: a field past the header is E_PARAM here. -/
theorem test_hdrStore_short :
    failsWith (step (machine [(0x500, [1, 0, 1, 0])] [0x31, 0, 0, 0x600, 2, 0x500, 1])) = some [0x404, 0x40, 0, 0x40] := by
  decide +kernel
/-- Region V-C1. -/
def regionC1 : List (Nat × List Nat) :=
  [(0x800, [0x41, 0x55, 0x54, 0x48, 0, 0, 0, 3, 0x41, 0x42, 0x43, 0]), (0x80C, [0x54, 0x42, 0x48, 0x44, 0, 0, 0, 8]),
    (0x81C, [0x44, 0x41, 0x54, 0x45, 0, 0, 0, 2, 1, 2])]
/-- V-C2. -/
theorem test_chunkFind :
    leaves (step (machine regionC1 [0x00020032, 0x800, 40, 0, 0, 0x54424844])) 0 0 =
      some ([0x814, 8, 0x81C, 0x54424844], []) := by decide +kernel
/-- V-C4. -/
theorem test_chunkFind_missing :
    failsWith (step (machine regionC1 [0x00020032, 0x800, 40, 0, 0, 0x52474241])) =
      some [0x804, 0x40, 0xFFFFFFFF, 0x40] := by decide +kernel

/-! ### HOST -/

/-- V-G1. -/
theorem test_host_reset_values :
    (after (step (hostNext State.reset (.regRead 0x000#12 4)))).map (·.hostData) = some 0x524C4531#32 ∧
    (after (step (hostNext State.reset (.regRead 0x030#12 4)))).map (·.hostData) = some 0x10000#32 := by decide
/-- 10_state.md R42, 60_exceptions.md R274: an error sets IRQ_STATUS bit 1 and no other. -/
theorem test_error_irq : (after (step (machine [] [0x205]))).map (·.irqStatus) = some 2#3 := by decide +kernel
/-- V-G4. -/
theorem test_host_w1c :
    (after (step (hostNext { State.reset with irqStatus := 7#3 } (.regWrite 0x018#12 4 5#32)))).map (·.irqStatus) =
      some 2#3 := by decide
/-- V-G9. -/
theorem test_host_busy_writes :
    (after (step (hostNext (running []) (.regWrite 0x00C#12 4 0x200#32)))).map (·.pc) = some 0x40#32 ∧
    (after (step (hostNext (running []) (.regWrite 0x114#12 4 1#32)))).map (fun t => fieldReg t.f 5#5) = some 0#32 := by
  decide
/-- V-G10. -/
theorem test_host_sreset_wins :
    (after (step (hostNext { running [(3, [7])] with irqStatus := 4#3 } (.regWrite 0x004#12 4 3#32)))).map
      (fun t => (t.status.word, t.irqStatus, t.pc, t.mem.read 3)) = some (0#32, 0#3, 0#32, 7#8) := by decide
/-- V-G11. -/
theorem test_host_restart :
    failsWith (step (hostNext { State.reset with
      status := ⟨false, false, true, .eMalformed⟩, errPc := 0x40#32, errInfo := 3#32 } (.regWrite 0x004#12 4 1#32))) =
      some [1, 0, 0, 0] := by decide
/-- 20_memory.md R86: little-endian, and bytes past MEM_BYTES ignored. -/
theorem test_host_window :
    (after (step (hostNext (loaded [(0xFFFE, [1, 2])]) (.memRead 0xFFFC#32 4)))).map (·.hostData) = some 0x02010000#32 ∧
    (after (step (hostNext State.reset (.memWrite 0x10000#32 4 7#32)))).map (·.mem.cells) = some [] := by decide
/-- The host's placement runs exactly the descriptor it places. -/
theorem test_withFetchWord :
    failsWith (step (State.reset.withFetchWord 32 0x00240003)) = some [0x404, 0, 4, 0] := by decide +kernel
/-- 30_encoding.md R125's BGR2RGB is V-O1's word. -/
theorem test_pseudo_bgr2rgb :
    (encode (Pseudo.expand (.bgr2rgb 1 0x200#32 0x100#32 2#32))).w0 = 0x00080021#32 ∧
    (encode (Pseudo.expand (.bgr2rgb 1 0x200#32 0x100#32 2#32))).w5 = 0xC6#32 := by decide

/-! ### Witnesses: the hypotheses of each statement met by a concrete state and operands, each clause at a
boundary of its range -/

/-- A next state with a property, from a computation. -/
theorem exists_of_after {o : Out} (p : State → Bool) (h : (after o).any p = true) : ∃ t, o = .next t ∧ p t = true := by
  cases o with
  | next t => exact ⟨t, rfl, by simpa [after] using h⟩
  | fault r => simp [after] at h
  | refused r => simp [after] at h

/-- A stream that ends between packets breaks there. -/
theorem breaksAfter_end {inp : List Byte} {l : Nat} {ps : List Packet} (h1 : ∀ p ∈ ps, p.legal = true)
    (h2 : packetBytes ps <+: inp) (h3 : (expandAll ps).length < l) (h4 : inp[(packetBytes ps).length]? = none) :
    breaksAfter inp l ps := ⟨h1, h2, h3, by rw [h4]; trivial⟩

/-- A stream breaks at a packet that does not fit. -/
theorem breaksAfter_count {inp : List Byte} {l : Nat} {ps : List Packet} (c : Byte) (h1 : ∀ p ∈ ps, p.legal = true)
    (h2 : packetBytes ps <+: inp) (h3 : (expandAll ps).length < l) (h4 : inp[(packetBytes ps).length]? = some c)
    (h5 : l < (expandAll ps).length + (c.toNat % 128 + 1) ∨ (128 ≤ c.toNat ∧ inp.length < (packetBytes ps).length + 2) ∨
      (c.toNat < 128 ∧ inp.length < (packetBytes ps).length + 1 + (c.toNat % 128 + 1))) :
    breaksAfter inp l ps := ⟨h1, h2, h3, by rw [h4]; exact h5⟩

/-- DecodeInvertsEncode: both ends of a count. -/
theorem witness_DecodeInvertsEncode :
    (Instr.bitconv true 1 4 false true false true 1 2 3 4 5).wf = true ∧
    (Instr.rleEncp false 4 true false true 1 2 3 4 5).wf = true := by decide

/-- UndefinedOpcodesRejected: every end of the undefined ranges, and each neighbour. -/
theorem witness_UndefinedOpcodesRejected :
    (∀ op ∈ [0x05, 0x07, 0x0A, 0x0F, 0x14, 0x1F, 0x27, 0x2F, 0x33, 0xFF],
      decode (words [op]) = .error (.undefinedOp (BitVec.ofNat 32 op))) ∧
    ∀ op ∈ [0x04, 0x08, 0x09, 0x10, 0x13, 0x20, 0x26, 0x30, 0x32],
      decode (words [op]) ≠ .error (.undefinedOp (BitVec.ofNat 32 op)) := by decide

/-- UnusedWordsIgnored: FILL with other high bits in W5 and other unused words, and NOP with every word changed. -/
theorem witness_UnusedWordsIgnored :
    let d := words [9, 0, 0, 0x300, 4, 0xAB]
    let e := words [9, 1, 2, 0x300, 4, 0x1AB, 6, 7]
    opcodeOf d.op = some .fill ∧ e.w0 = d.w0 ∧
      (∀ k ∈ Opcode.fill.usedWords, k = 5 ∧ Opcode.fill = .fill ∨ e.word k = d.word k) ∧
      e.w5.toNat % 256 = d.w5.toNat % 256 ∧ opcodeOf (words [0, 1, 2, 3, 4, 5, 6, 7]).op = some .nop := by decide

/-- StepRunsTheDescriptor: the last descriptor of `M`. -/
theorem witness_StepRunsTheDescriptor :
    let s := { running [(0xFFE0, [1, 1])] with pc := 0xFFE0#32 }
    s.engineNext = true ∧ s.status.busy = true ∧ s.pc.toNat % 32 = 0 ∧ s.pc.toNat + 32 ≤ s.mem.size ∧
      decodeBytes (s.mem.readBytes s.pc.toNat 32) = .ok (.stop true) ∧ (Instr.stop true).wf = true := by decide +kernel

/-- FetchAndDecodeOrder: the premises, and a state for each outcome (RLE_ENC's FLAGS bit 5, one past its mask, and bit 4,
its one bit). -/
theorem witness_FetchAndDecodeOrder :
    let w0 := fun s : State => s.mem.readUInt s.pc.toNat 4 false
    let undef := machine [] [0x33]
    let rsv := machine [] [0x200]
    let flag := machine [] [0x00200011]
    let good := machine [] [0x00100111]
    (∀ s ∈ [undef, rsv, flag, good], s.engineNext = true ∧ s.status.busy = true ∧ s.pc.toNat % 32 = 0 ∧
      s.pc.toNat + 32 ≤ s.mem.size) ∧
    ({ good with pc := 0x1F#32 } : State).pc.toNat % 32 ≠ 0 ∧
    ({ good with pc := 0x10000#32 } : State).mem.size < 0x10000 + 32 ∧
    opcodeOf (BitVec.ofNat 8 (w0 undef % 2 ^ 8)) = none ∧
    opcodeOf (BitVec.ofNat 8 (w0 rsv % 2 ^ 8)) = some .nop ∧ w0 rsv / 2 ^ 9 % 2 ^ 7 ≠ 0 ∧
    opcodeOf (BitVec.ofNat 8 (w0 flag % 2 ^ 8)) = some .rleEnc ∧ w0 flag / 2 ^ 9 % 2 ^ 7 = 0 ∧
    w0 flag / 2 ^ 16 &&& (~~~Opcode.rleEnc.flagMask).toNat ≠ 0 ∧
    opcodeOf (BitVec.ofNat 8 (w0 good % 2 ^ 8)) = some .rleEnc ∧ w0 good / 2 ^ 9 % 2 ^ 7 = 0 ∧
    w0 good / 2 ^ 16 &&& (~~~Opcode.rleEnc.flagMask).toNat = 0 := by decide +kernel

theorem witness_IdleEngineHoldsState : State.reset.engineNext = true ∧ State.reset.status.busy = false := by decide

/-- ChainRunsDescriptorsAsWritten: a COPY of a SETF over the next descriptor, and of one over itself. -/
theorem witness_ChainRunsDescriptorsAsWritten :
    let s := machine [(0x1000, [4, 0, 0x1F, 0])] [8, 0x1000, 32, 0x60]
    let u := machine [(0x1000, [4, 0, 0x1F, 0])] [8, 0x1000, 32, 0x40]
    (∀ v ∈ [s, u], v.inv = true ∧ v.turns = [] ∧ v.status.busy = true ∧ v.pc.toNat % 32 = 0 ∧
      v.pc.toNat + 64 ≤ v.mem.size ∧ v.mem.readBytes 0x1000 32 = encodeBytes (.setf false 31#5 0#32)) ∧
    decodeBytes (s.mem.readBytes s.pc.toNat 32) = .ok (.copy false 0x1000#32 32#32 (s.pc + 32#32)) ∧
    overlap ⟨0x1000, 32⟩ ⟨s.pc.toNat + 32, 32⟩ = false ∧
    decodeBytes (u.mem.readBytes u.pc.toNat 32) = .ok (.copy false 0x1000#32 32#32 u.pc) ∧
    overlap ⟨0x1000, 32⟩ ⟨u.pc.toNat, 32⟩ = false := by decide +kernel

/-- JumpSetsDescPc: a target off by one word, and the first one past `M`. -/
theorem witness_JumpSetsDescPc :
    let s := running []
    s.status.busy = true ∧ s.engineNext = true ∧ (0x1F#32).toNat % 32 ≠ 0 ∧ (0x10000#32).toNat % 32 = 0 ∧
      s.mem.size < (0x10000#32).toNat + 32 := by decide

/-- BrfBranches: RES3 is the last register it may compare, RES4 the first it may not; each condition at equality. -/
theorem witness_BrfBranches :
    let s : State := { running [] with res := #v[0, 1, 2, 0xFFFFFFFF] }
    (3#5).toNat ≤ 3 ∧ 3 < (4#5).toNat ∧
    (resultReg s.res ((3#5).setWidth 2)).toNat = (0xFFFFFFFF#32).toNat ∧
    ¬ (resultReg s.res ((3#5).setWidth 2)).toNat < (0xFFFFFFFF#32).toNat ∧
    (fieldReg s.f 31#5).toNat < (1#32).toNat := by decide

/-- CopyMovesBytes: up to the last byte of `M`, and no byte at its end. -/
theorem witness_CopyMovesBytes :
    let s := loaded [(0xFFFC, [1, 2, 3, 4])]
    s.mem.wf = true ∧ s.spanOK ⟨0xFFFC, 4⟩ = true ∧ s.spanOK ⟨0xFFF8, 4⟩ = true ∧
      overlap ⟨0xFFFC, 4⟩ ⟨0xFFF8, 4⟩ = false ∧ s.spanOK ⟨0x10000, 0⟩ = true ∧
      overlap ⟨0x10000, 0⟩ ⟨0x10000, 0⟩ = false := by decide

/-- FillStoresOneValue: the last range that fits, the first that does not. -/
theorem witness_FillStoresOneValue :
    State.reset.mem.wf = true ∧ State.reset.spanOK ⟨0xFFFF, 1⟩ = true ∧ State.reset.spanOK ⟨0xFFFF, 2⟩ = false := by decide

/-- DecAcceptsPacketStreams: both sides of both equivalences occur (V-R7, V-R8). -/
theorem witness_DecAcceptsPacketStreams :
    (1 ≤ (bytes [7]).length ∧ (List.replicate 128 0#8).length ≤ 128) ∧
    decodesTo (bytes [0x81, 0x41, 0xAA]) 2 [.repeated 2 0x41#8] ∧
    breaksAfter (bytes [0x81, 0x41, 5]) 8 [.repeated 2 0x41#8] :=
  ⟨by decide +kernel, ⟨by decide, by decide, by decide⟩,
    breaksAfter_count 5#8 (by decide) (by decide) (by decide) (by decide) (by decide)⟩

/-- DecInvertsEnc and EncPacketAndLengthBounds: the ends of Lmax and R, a run exactly Lmax long and one ended by
another byte, and a source with no two equal neighbours. -/
theorem witness_encoder_parameters :
    (1 ≤ 1 ∧ 1 ≤ 128 ∧ (2 = 2 ∨ 2 = 3)) ∧ (1 ≤ 128 ∧ 128 ≤ 128 ∧ (3 = 2 ∨ 3 = 3)) ∧
    (bytes [1, 2, 1, 2]).IsChain (· ≠ ·) ∧ (3 ≤ 4 ∧ 4 ≤ 4 ∧ (4 = 4 ∨ (bytes [7]).head? ≠ some 7#8)) ∧
    (3 ≤ 3 ∧ 3 ≤ 4 ∧ (3 = 4 ∨ (bytes [8]).head? ≠ some 7#8)) := by decide

/-- EncPacketAndLengthBounds, its literal packets: one ended by a run, one that is full, one that ends the source with a
pair too short to repeat, and one where no run fits in a packet. -/
theorem witness_literal_packets :
    ((∀ i < 2, 8 < 2 ∨ ∀ b : Byte, ¬ List.replicate 2 b <+: (bytes [1, 2, 5, 5]).drop i) ∧
      2 ≤ 8 ∧ List.replicate 2 5#8 <+: bytes [5, 5]) ∧
    (∀ i < 2, 2 < 2 ∨ ∀ b : Byte, ¬ List.replicate 2 b <+: (bytes [1, 2, 3]).drop i) ∧
    (∀ i < 2, 8 < 3 ∨ ∀ b : Byte, ¬ List.replicate 3 b <+: (bytes [1, 1]).drop i) ∧
    (∀ i < 1, 1 < 2 ∨ ∀ b : Byte, ¬ List.replicate 2 b <+: (bytes [1, 1]).drop i) := by decide +kernel

theorem witness_RleDecDecodes :
    let s := loaded [(0x1000, [0x82, 0x41, 1, 0x42, 0x43])]
    s.mem.wf = true ∧ checksPass (.rleDec true 0x1000#32 5#32 0xFFFB#32 5#32) s = true ∧
      decodesTo (s.mem.readBytes 0x1000 5) 5 [.repeated 3 0x41#8, .verbatim (bytes [0x42, 0x43])] :=
  ⟨by decide, by decide, by decide, by decide +kernel, by decide⟩

theorem witness_RleDecpDecodes :
    let s := loaded [(0x1000, [0x82, 0x12, 2, 0x34, 0x35, 0x36])]
    s.mem.wf = true ∧ countOK 2 = true ∧ checksPass (.rleDecp true 2 true false 0x1000#32 6#32 0x2000#32 3#32) s = true ∧
      [[Packet.repeated 3 0x12#8], [.verbatim (bytes [0x34, 0x35, 0x36])]].length = 2 ∧
      planesDecode (s.mem.readBytes 0x1000 6) 3
        [[Packet.repeated 3 0x12#8], [.verbatim (bytes [0x34, 0x35, 0x36])]] :=
  ⟨by decide, by decide, by decide, by decide, by decide, by decide +kernel⟩

/-- BrokenStreamsRaiseCorrupt: no input left, running past L, a missing repeat byte, a missing literal; and the same in
the second plane. -/
theorem witness_BrokenStreamsRaiseCorrupt :
    let s := loaded [(0x1000, [0x81, 0x11, 0x82, 0x22])]
    checksPass (.rleDec false 0x1000#32 2#32 0x2000#32 3#32) s = true ∧
    breaksAfter (s.mem.readBytes 0x1000 2) 3 [.repeated 2 0x11#8] ∧
    checksPass (.rleDec false 0x1000#32 4#32 0x2000#32 4#32) s = true ∧
    breaksAfter (s.mem.readBytes 0x1000 4) 4 [.repeated 2 0x11#8] ∧
    breaksAfter (bytes [0x81]) 2 [] ∧ breaksAfter (bytes [1, 0x41]) 2 [] ∧
    checksPass (.rleDecp false 2 false false 0x1000#32 4#32 0x2000#32 2#32) s = true ∧ 1 < 2 ∧
    planesDecode (s.mem.readBytes 0x1000 4) 2 [[.repeated 2 0x11#8]] ∧
    breaksAfter ((s.mem.readBytes 0x1000 4).drop 2) 2 [] :=
  ⟨by decide, breaksAfter_end (by decide) (by decide +kernel) (by decide) (by decide +kernel), by decide,
    breaksAfter_count 0x82#8 (by decide) (by decide +kernel) (by decide) (by decide +kernel) (by decide +kernel),
    breaksAfter_count 0x81#8 (by decide) (by decide) (by decide) (by decide) (by decide),
    breaksAfter_count 1#8 (by decide) (by decide) (by decide) (by decide) (by decide), by decide, by decide,
    ⟨by decide, by decide +kernel⟩,
    breaksAfter_count 0x82#8 (by decide) (by decide +kernel) (by decide) (by decide +kernel) (by decide +kernel)⟩

/-- RleEncEncodes: the coded and the raw form, each with a capacity that just fits and one byte less (V-E15, V-E16,
V-E12). -/
theorem witness_RleEncEncodes :
    let s := loaded [(0x1000, [1, 2, 3])]
    let len := (packetBytes (enc (s.mem.readBytes 0x1000 3) 128 3)).length
    s.mem.wf = true ∧ encParams 0x300#32 = some (128, 3) ∧
    checksPass (.rleEnc false false 0x1000#32 3#32 0x2000#32 4#32 0x300#32) s = true ∧ len ≤ 4 ∧
    checksPass (.rleEnc false false 0x1000#32 3#32 0x2000#32 3#32 0x300#32) s = true ∧ 3 < len ∧
    (true = true ∧ 3 ≤ len) ∧ checksPass (.rleEnc false true 0x1000#32 3#32 0x2000#32 3#32 0x300#32) s = true ∧
    checksPass (.rleEnc false true 0x1000#32 3#32 0x2000#32 2#32 0x300#32) s = true := by decide +kernel

/-- RleEncpEncodesPlanes: as above, on two planes (V-P12, V-P14). -/
theorem witness_RleEncpEncodesPlanes :
    let s := loaded [(0x1000, [0, 1, 0, 2])]
    let len := (packetBytes (encPlanes s.mem 0x1000 2 2 false false 128 2)).length
    s.mem.wf = true ∧ countOK 2 = true ∧ encParams 0x200#32 = some (128, 2) ∧ len = 5 ∧
    checksPass (.rleEncp false 2 false false false 0x1000#32 2#32 0x2000#32 5#32 0x200#32) s = true ∧
    checksPass (.rleEncp false 2 false false false 0x1000#32 2#32 0x2000#32 4#32 0x200#32) s = true ∧
    (true = true ∧ 2 * 2 ≤ len) ∧
    checksPass (.rleEncp false 2 false false true 0x1000#32 2#32 0x2000#32 4#32 0x200#32) s = true := by decide +kernel

theorem witness_RleDecRestoresWhatRleEncStored :
    let s := loaded [(0x1000, [1, 2, 3])]
    s.inv = true ∧ encParams 0x300#32 = some (128, 3) ∧
    checksPass (.rleEnc false false 0x1000#32 3#32 0x2000#32 4#32 0x300#32) s = true ∧
    (packetBytes (enc (s.mem.readBytes 0x1000 3) 128 3)).length ≤ 4 ∧ s.spanOK ⟨0x2004, 3⟩ = true ∧
    overlap ⟨0x2000, 4⟩ ⟨0x2004, 3⟩ = false := by decide +kernel

theorem witness_RleDecpRestoresWhatRleEncpStored :
    let s := loaded [(0x1000, [0, 1, 0, 2])]
    s.inv = true ∧ countOK 2 = true ∧ encParams 0x200#32 = some (128, 2) ∧
    checksPass (.rleEncp false 2 true false false 0x1000#32 2#32 0x2000#32 5#32 0x200#32) s = true ∧
    (packetBytes (encPlanes s.mem 0x1000 2 2 true false 128 2)).length ≤ 5 ∧ s.spanOK ⟨0x2005, 2 * 2⟩ = true ∧
    overlap ⟨0x2000, 5⟩ ⟨0x2005, 2 * 2⟩ = false := by decide +kernel

/-- RoundIsNearestLevel and RepReplicatesBits: the ends of N, M and v, and the threshold 127/128. -/
theorem witness_depths :
    (1 ≤ 1 ∧ 1 ≤ 32 ∧ 1 ≤ 32 ∧ 32 ≤ 32 ∧ 1 < 2 ^ 1) ∧ (1 ≤ 32 ∧ 32 ≤ 32 ∧ 1 ≤ 1 ∧ 1 ≤ 32 ∧ 2 ^ 32 - 1 < 2 ^ 32 ∧ 1 < 32) ∧
    convRound 127 8 1 = 0 ∧ convRound 128 8 1 = 1 := by decide +kernel

/-- BitconvConverts: default and strided containers, ROUND and REP, at the end of `M`. -/
theorem witness_BitconvConverts :
    let s := loaded [(0x100, [0, 0x1F, 0x10, 3])]
    s.mem.wf = true ∧ countOK 1 = true ∧ countOK 4 = true ∧
    checksPass (.bitconv false 1 4 true true false true 0x100#32 4#32 0xFFF0#32 0x2005#32 0#32) s = true ∧
    checksPass (.bitconv false 1 1 false false true false 0x100#32 2#32 0x200#32 0x808#32 0x30003#32) s = true := by
  decide

/-- ReorderPermutesChannels: in place, and beside the source. -/
theorem witness_ReorderPermutesChannels :
    let s := loaded [(0x100, [1, 2, 3, 4, 5, 6])]
    s.mem.wf = true ∧ checksPass (.reorder false 1 3 0x100#32 2#32 0x100#32 0xC6#32) s = true ∧
    checksPass (.reorder false 2 3 0x100#32 1#32 0x106#32 0xC6#32) s = true := by decide

/-- DeinterleaveMakesPlanes: the smallest pitch, given and by default. -/
theorem witness_DeinterleaveMakesPlanes :
    let s := loaded [(0x100, [1, 2, 3, 4, 5, 6])]
    s.mem.wf = true ∧ checksPass (.deinterleave false 1 3 0x100#32 2#32 0xFFFA#32 2#32) s = true ∧
    checksPass (.deinterleave false 1 3 0x100#32 2#32 0xFFFA#32 0#32) s = true := by decide

theorem witness_InterleaveMakesPixels :
    let s := loaded [(0x200, [1, 2, 0, 0, 3, 4])]
    s.mem.wf = true ∧ checksPass (.interleave false 1 2 0x200#32 2#32 0x206#32 4#32) s = true ∧
    checksPass (.interleave false 1 2 0x200#32 2#32 0xFFFC#32 0#32) s = true := by decide

theorem witness_InterleaveRestoresDeinterleaved :
    let s := loaded [(0x100, [1, 2, 3, 4, 5, 6])]
    s.mem.wf = true ∧ checksPass (.deinterleave false 1 3 0x100#32 2#32 0x200#32 4#32) s = true ∧
    checksPass (.interleave true 1 3 0x200#32 2#32 0x300#32 4#32) s = true := by decide

/-- RowflipReversesRows: a pitch equal to the row, the last base that fits, the first that does not. -/
theorem witness_RowflipReversesRows :
    let s := loaded [(0x100, [1, 2, 3, 4])]
    s.mem.wf = true ∧ 2 ≤ 2 ∧ 0xFFFC + ((2 - 1) * 2 + 2) ≤ s.mem.size ∧ s.mem.size < 0xFFFD + ((2 - 1) * 2 + 2) := by
  decide

/-- UnpacksubExpandsElements: default pitches, and the smallest ones given. -/
theorem witness_UnpacksubExpandsElements :
    let s := loaded [(0x100, [0xF0, 0x0F])]
    s.mem.wf = true ∧ checksPass (.unpacksub false 0#2 false 0x100#32 9#32 0x200#32 2#32 0#32 0#32) s = true ∧
    checksPass (.unpacksub false 2#2 true 0x100#32 3#32 0x200#32 2#32 2#32 3#32) s = true := by decide

theorem witness_PacksubPacksElements :
    let s := loaded [(0x100, [1, 0, 1])]
    s.mem.wf = true ∧ checksPass (.packsub false 0#2 false 0x100#32 9#32 0x200#32 2#32 0#32 0#32) s = true ∧
    checksPass (.packsub false 2#2 true 0x100#32 3#32 0x200#32 2#32 3#32 2#32) s = true := by decide

theorem witness_UnpacksubRestoresPacked :
    let s := loaded [(0x100, [1, 0, 1])]
    s.mem.wf = true ∧ checksPass (.packsub false 1#2 false 0x100#32 9#32 0x200#32 2#32 0#32 0#32) s = true ∧
    checksPass (.unpacksub false 1#2 false 0x200#32 9#32 0x300#32 2#32 0#32 0#32) s = true := by decide

/-- LoadedFieldKeepsItsBytes: a ZMAP entry over a zero byte, a signed entry at both ends of its range, a plain one. -/
theorem witness_LoadedFieldKeepsItsBytes :
    let m := (loaded [(1, [0x80, 0x7F])]).mem
    let z : Entry := ⟨0x00100000#32, 0, 0⟩
    let n : Entry := ⟨0x00080001#32, 0, 0⟩
    let p : Entry := ⟨0x00080002#32, 0, 0⟩
    (z.ok = true ∧ z.zmap = true ∧ m.readUInt (0 + z.off) z.width z.be = 0) ∧
    (n.ok = true ∧ n.signed = true ∧ m.readUInt (0 + n.off) n.width n.be = 0x80) ∧
    (p.ok = true ∧ p.signed = true ∧ m.readUInt (0 + p.off) p.width p.be = 0x7F) ∧
    (Entry.mk 0x00000001#32 0 0).signed = false ∧ (Entry.mk 0x00000001#32 0 0).zmap = false := by decide

/-- Two u16 entries at 0 and 2 into F0 and F1, the second checked against F0 (V-H11, V-H12). -/
def twoFields (hdr : List Nat) : State :=
  loaded [(0x600, hdr), (0x500, [0, 0, 1, 0]), (0x510, [2, 0, 0x21, 0x14])]

/-- HdrLoadAcceptsHeader: the header's last byte is the last field's; no other register is named. -/
theorem witness_HdrLoadAcceptsHeader :
    let s := twoFields [5, 0, 5, 0]
    s.spanOK ⟨0x500, 16 * 2⟩ = true ∧ s.spanOK ⟨0x600, 4⟩ = true ∧ (∀ j < 2, entryFits s.mem 0x500 4 j = true) ∧
    (∀ j < 2, entryPasses s.mem 0x600 0x500 s.f j = true) ∧ ∀ j < 2, (entryAt s.mem 0x500 j).idx ≠ 2#5 := by
  decide +kernel

/-- HdrLoadRejectsHeader: each range, a bad entry, a field one byte too long, a failing check. -/
theorem witness_HdrLoadRejectsHeader :
    let s := twoFields [10, 0, 5, 0]
    let bad := loaded [(0x500, [0, 0, 1, 0]), (0x510, [0, 0, 3, 0])]
    s.spanOK ⟨0xFFF1, 16 * 1⟩ = false ∧ s.spanOK ⟨0xFFF0, 16 * 1⟩ = true ∧ s.spanOK ⟨0xFFFD, 4⟩ = false ∧
    s.spanOK ⟨0x500, 16 * 2⟩ = true ∧ s.spanOK ⟨0x600, 4⟩ = true ∧
    (∀ j < 1, entryFits bad.mem 0x500 4 j = true) ∧ (entryAt bad.mem 0x500 1).ok = false ∧
    (∀ j < 1, entryFits s.mem 0x500 3 j = true) ∧ (entryAt s.mem 0x500 1).ok = true ∧ entryFits s.mem 0x500 3 1 = false ∧
    (∀ j < 2, entryFits s.mem 0x500 4 j = true) ∧ (∀ j < 1, entryPasses s.mem 0x600 0x500 s.f j = true) ∧
    entryPasses s.mem 0x600 0x500 s.f 1 = false := by decide +kernel

/-- ChecksAsTabled: one entry per CHK value, the last register named for LEF; each width; and an entry on each side of
every condition of EntryOK. -/
theorem witness_ChecksAsTabled :
    ((Entry.mk 0x00000000#32 0 0).width = 1 ∧ (Entry.mk 0x00010000#32 0 0).width = 2 ∧
      (Entry.mk 0x00020000#32 0 0).width = 4) ∧
    ([(Entry.mk 0x1FE9FFFF#32 0 0), ⟨0x20000000#32, 0, 0⟩, ⟨0x00030000#32, 0, 0⟩, ⟨0x18000000#32, 0, 0⟩,
        ⟨0x00180000#32, 0, 0⟩, ⟨0x00120000#32, 0, 0⟩, ⟨0x10000000#32, 32, 0⟩, ⟨0x14000000#32, 32, 0⟩].all
      fun e => !e.ok) = true ∧
    ([(Entry.mk 0x17E9FFFF#32 31 0), ⟨0x00020000#32, 0, 0⟩, ⟨0x00080000#32, 0, 0⟩, ⟨0x00110000#32, 0, 0⟩,
        ⟨0x10000000#32, 31, 0⟩, ⟨0x0C000000#32, 32, 0⟩].all Entry.ok) = true ∧
    (Entry.mk 0x00000000#32 0 0).chk = 0 ∧ (Entry.mk 0x04000000#32 0 0).chk = 1 ∧ (Entry.mk 0x08090000#32 0 0).chk = 2 ∧
    (Entry.mk 0x0C000000#32 0 0).chk = 3 ∧ (Entry.mk 0x10000000#32 31 0).chk = 4 ∧
    (Entry.mk 0x10000000#32 31 0).a.toNat = (31#5).toNat ∧ (Entry.mk 0x14000000#32 0 0).chk = 5 := by decide

/-- HdrStoreSerializesFields: an entry whose second byte no later entry covers, and the first entry that fails. -/
theorem witness_HdrStoreSerializesFields :
    let s := twoFields [1, 2, 3, 4]
    s.mem.wf = true ∧ checksPass (.hdrStore false 0x600#32 4#32 0x500#32 2#32) s = true ∧
    (∀ j < 2, entryFits s.mem 0x500 4 j = true) ∧ 1 < (entryAt s.mem 0x500 0).width ∧
    (∀ x < 2, 0 < x → (Span.mk (entryAt s.mem 0x500 x).off (entryAt s.mem 0x500 x).width).has
      ((entryAt s.mem 0x500 0).off + 1) = false) ∧
    checksPass (.hdrStore false 0x600#32 3#32 0x500#32 2#32) s = true ∧ (∀ j < 1, entryFits s.mem 0x500 3 j = true) ∧
    entryFits s.mem 0x500 3 1 = false := by decide +kernel

/-- HdrStoreReproducesLoadedHeader: two fields that tile a four-byte header. -/
theorem witness_HdrStoreReproducesLoadedHeader :
    let s := twoFields [5, 0, 5, 0]
    s.mem.wf = true ∧ s.spanOK ⟨0x500, 16 * 2⟩ = true ∧ s.spanOK ⟨0x600, 4⟩ = true ∧ s.spanOK ⟨0x700, 4⟩ = true ∧
    overlap ⟨0x500, 16 * 2⟩ ⟨0x700, 4⟩ = false ∧ (∀ j < 2, entryFits s.mem 0x500 4 j = true) ∧
    (∀ j < 2, entryPasses s.mem 0x600 0x500 s.f j = true) ∧
    (∀ j < 2, ∀ k < 2, (entryAt s.mem 0x500 j).idx = (entryAt s.mem 0x500 k).idx → j = k) ∧
    ∀ x < 4, ∃ j < 2, (Span.mk (entryAt s.mem 0x500 j).off (entryAt s.mem 0x500 j).width).has x = true ∧
      ∀ k < 2, (Span.mk (entryAt s.mem 0x500 k).off (entryAt s.mem 0x500 k).width).has x = true → k = j := by
  decide +kernel

/-- ChunkFindFindsFirst: the second chunk of V-C1 after one that is skipped, and any chunk at all. -/
theorem witness_ChunkFindFindsFirst :
    let s := loaded regionC1
    s.mem.wf = true ∧ s.spanOK ⟨0x800, 40⟩ = true ∧ chunksSkipped s.mem 4 0x800 (0x800 + 40) 0x54424844 1 ∧
    chunkFits s.mem (0x800 + 40) (chunkAddr s.mem 4 0x800 (0x800 + 40) 1) ∧
    chunkTag s.mem (chunkAddr s.mem 4 0x800 (0x800 + 40) 1) = 0x54424844 ∧
    chunksSkipped s.mem 4 0x800 (0x800 + 40) 0 0 ∧ chunkFits s.mem (0x800 + 40) (chunkAddr s.mem 4 0x800 (0x800 + 40) 0) := by
  refine ⟨by decide, by decide, ?_, ⟨by decide +kernel, by decide +kernel⟩, by decide +kernel, ?_,
    ⟨by decide +kernel, by decide +kernel⟩⟩
  · intro j hj
    obtain rfl : j = 0 := by omega
    exact ⟨⟨by decide +kernel, by decide +kernel⟩, by decide, by decide +kernel⟩
  · intro j hj
    omega

/-- ChunkFindEndsWithoutMatch: a region past `M`, 7 bytes left after a chunk, and a length that overruns by one. -/
theorem witness_ChunkFindEndsWithoutMatch :
    let s := loaded [(0x800, [0x41, 0x55, 0x54, 0x48, 0, 0, 0, 4])]
    s.spanOK ⟨0xFFFF, 2⟩ = false ∧ s.spanOK ⟨0x800, 19⟩ = true ∧
    chunksSkipped s.mem 4 0x800 (0x800 + 19) 1 1 ∧ 0x800 + 19 - chunkAddr s.mem 4 0x800 (0x800 + 19) 1 = 7 ∧
    8 ≤ 0x800 + 11 - chunkAddr s.mem 4 0x800 (0x800 + 11) 0 ∧
    0x800 + 11 - chunkAddr s.mem 4 0x800 (0x800 + 11) 0 - 8 < chunkLen s.mem (chunkAddr s.mem 4 0x800 (0x800 + 11) 0) := by
  refine ⟨by decide, by decide, ?_, by decide +kernel, by decide +kernel, by decide +kernel⟩
  intro j hj
  obtain rfl : j = 0 := by omega
  exact ⟨⟨by decide +kernel, by decide +kernel⟩, by decide, by decide +kernel⟩

/-- BadParametersRaiseFirst: a bad parameter of each kind. -/
theorem witness_BadParametersRaiseFirst :
    paramError (.brf false true .eq 4#5 0 0) = some (.eParam, 4) ∧
    paramError (.rleEnc false false 0 0 0 0 0x381#32) = some (.eParam, 0x381) ∧
    paramError (.bitconv false 2 1 false false false false 0 1 0 0x800#32 1#32) = some (.eType, 0x800) ∧
    paramError (.bitconv false 2 1 false false false false 0 1 0 0x808#32 1#32) = some (.eParam, 1) ∧
    paramError (.reorder false 1 3 0 1 0 7#32) = some (.eParam, 7) ∧
    paramError (.unpacksub false 3#2 false 0 1 0 1 0 0) = some (.eParam, 0x30025) ∧
    paramError (.rowflip false 0 2 3#32 2#32) = some (.eParam, 2) := by decide

/-- BadParametersRaiseFirst, each limit on both sides: MAXRUN 128 and 129, RMIN 1, 2, 3 and 4 (V-E18, V-E19). -/
theorem witness_BadParametersRaiseFirst_encoders :
    let code := fun p0 : Word => paramError (.rleEnc false true 0 0 0 0 p0)
    encParams 0x280#32 = some (128, 2) ∧ encParams 0x300#32 = some (128, 3) ∧ encParams 0x301#32 = some (1, 3) ∧
    code 0x380#32 = none ∧ code 0x281#32 = some (.eParam, 0x281) ∧ code 0x100#32 = some (.eParam, 0x100) ∧
    code 0x400#32 = some (.eParam, 0x400) := by decide

/-- BadParametersRaiseFirst: N 0, 1, 32, 33; S + N = 8*Wi and one more; M = 8*Wo and one more; a stride of Wi - 1. -/
theorem witness_BadParametersRaiseFirst_bitconv :
    let code := fun (wi wo : Nat) (p0 p1 : Word) => paramError (.bitconv false wi wo false false false false 0 1 0 p0 p1)
    code 4 4 0x2020#32 0 = none ∧ code 4 4 0x2021#32 0 = some (.eType, 0x2021) ∧ code 4 4 0x2100#32 0 = some (.eType, 0x2100) ∧
    code 1 1 0x00070101#32 0 = none ∧ code 1 1 0x00080101#32 0 = some (.eType, 0x80101) ∧
    code 1 1 0x0801#32 0 = none ∧ code 1 1 0x0901#32 0 = some (.eType, 0x901) ∧
    code 2 2 0x0808#32 0x00020002#32 = none ∧ code 2 2 0x0808#32 0x00010002#32 = some (.eParam, 0x10002) := by decide

/-- BadParametersRaiseFirst: RES3 and RES4; a map entry in use and one out of use that equals c; a pitch of the row and
one byte less; W0 of BC = 3 with every bit it has. -/
theorem witness_BadParametersRaiseFirst_pitches :
    paramError (.brf false true .eq 3#5 0 0) = none ∧ paramError (.brf false false .eq 31#5 0 0) = none ∧
    paramError (.reorder false 1 3 0 1 0 0xC6#32) = none ∧ paramError (.reorder false 1 3 0 1 0 0x36#32) = some (.eParam, 0x36) ∧
    paramError (.deinterleave false 2 3 0 3 0 6#32) = none ∧ paramError (.interleave false 2 3 0 3 0 5#32) = some (.eParam, 5) ∧
    paramError (.rowflip false 0 2 3#32 3#32) = none ∧
    paramError (.unpacksub false 0#2 false 0 9 0 1 2#32 9#32) = none ∧
    paramError (.unpacksub false 0#2 false 0 9 0 1 1#32 9#32) = some (.eParam, 1) ∧
    paramError (.packsub false 2#2 false 0 3 0 1 3#32 1#32) = some (.eParam, 1) ∧
    paramError (.packsub true 3#2 true 0 1 0 1 0 0) = some (.eParam, 0x70126) := by decide

/-- BadRangesRaiseInOrder: hulls with a stride past the element, with no element, and rows with a pitch past the row. -/
theorem witness_BadRangesRaiseInOrder_hulls :
    checkedRanges (.bitconv false 2 1 false false false false 0x100#32 3#32 0x200#32 0x808#32 0x00040003#32) =
      some (⟨0x100, 8⟩, ⟨0x200, 9⟩) ∧
    checkedRanges (.bitconv false 2 1 false false false false 0x100#32 0#32 0x200#32 0x808#32 0#32) =
      some (⟨0x100, 0⟩, ⟨0x200, 0⟩) ∧
    checkedRanges (.deinterleave false 1 3 0x100#32 2#32 0x200#32 4#32) = some (⟨0x100, 6⟩, ⟨0x200, 10⟩) ∧
    checkedRanges (.unpacksub false 0#2 false 0x100#32 9#32 0x200#32 2#32 0#32 10#32) =
      some (⟨0x100, 6⟩, ⟨0x200, 19⟩) ∧
    checkedRanges (.packsub false 0#2 false 0x100#32 9#32 0x200#32 2#32 10#32 0#32) =
      some (⟨0x100, 19⟩, ⟨0x200, 8⟩) ∧
    runsInPlace (.reorder false 1 3 0x100#32 2#32 0x100#32 0xC6#32) = true := by decide

/-- BadRangesRaiseInOrder: one byte past `M` as a source and as a destination, and ranges that share one byte. -/
theorem witness_BadRangesRaiseInOrder :
    let s := State.reset
    let i := fun src dst : Word => Instr.copy false src 4#32 dst
    paramError (i 0xFFFD#32 0) = none ∧ checkedRanges (i 0xFFFD#32 0) = some (⟨0xFFFD, 4⟩, ⟨0, 4⟩) ∧
    s.mem.size < 0xFFFD + 4 ∧ checkedRanges (i 0 0xFFFD#32) = some (⟨0, 4⟩, ⟨0xFFFD, 4⟩) ∧ 0 + 4 ≤ s.mem.size ∧
    checkedRanges (i 0xFFF9#32 0xFFFC#32) = some (⟨0xFFF9, 4⟩, ⟨0xFFFC, 4⟩) ∧ 0xFFF9 + 4 ≤ s.mem.size ∧
    0xFFFC + 4 ≤ s.mem.size ∧ runsInPlace (i 0xFFF9#32 0xFFFC#32) = false ∧ 0 < 4 ∧ 0xFFF9 < 0xFFFC + 4 ∧
    0xFFFC < 0xFFF9 + 4 := by decide

/-- ErrorsArePrecise: E_CORRUPT of RLE_DEC and of CHUNK_FIND, E_MALFORMED of HDR_LOAD in both passes, and another. -/
theorem witness_ErrorsArePrecise :
    let s := { twoFields [10, 0, 5, 0] with status := ⟨true, false, false, .noError⟩ }
    s.status.legal = true ∧ s.status.busy = true ∧
    (∃ t, exec (.rleDec false 0x1000#32 0#32 0x2000#32 3#32) s = .next t ∧
      (t.status.err && t.status.code == .eCorrupt) = true) ∧
    (∃ t, exec (.chunkFind false 0#2 false 0x5FC#32 9#32 1#32) s = .next t ∧
      (t.status.err && t.status.code == .eCorrupt) = true) ∧
    (∃ t, exec (.hdrLoad false 0x600#32 3#32 0x500#32 2#32) s = .next t ∧
      (t.status.err && t.status.code == .eMalformed) = true) ∧
    (∃ t, exec (.hdrLoad false 0x600#32 4#32 0x500#32 2#32) s = .next t ∧
      (t.status.err && t.status.code == .eMalformed) = true) ∧
    (∃ t, exec (.copy false 0#32 2#32 1#32) s = .next t ∧ (t.status.err && t.status.code == .eOverlap) = true) ∧
    (machine [] [5]).engineNext = true ∧ (machine [] [5]).status.busy = true ∧
    (machine [] [5]).fetchDecode = .error (.eIllegal, 5) ∧
    ({ machine [] [5] with pc := 0x41#32 } : State).fetchDecode = .error (.eAlign, 0x41) ∧
    ({ machine [] [5] with pc := 0x10000#32 } : State).fetchDecode = .error (.eRange, 0x10000) ∧
    ∃ t, step (machine [] [5]) = .next t ∧ t.status.err = true :=
  ⟨by decide, by decide, exists_of_after _ (by decide +kernel), exists_of_after _ (by decide +kernel),
    exists_of_after _ (by decide +kernel), exists_of_after _ (by decide +kernel), exists_of_after _ (by decide +kernel),
    by decide, by decide, by decide +kernel, by decide +kernel, by decide +kernel, exists_of_after _ (by decide +kernel)⟩

/-- StepKeepsInvariant: a state with the invariant and a step. -/
theorem witness_StepKeepsInvariant :
    (machine [] [8, 0x100, 3, 0x200]).inv = true ∧
    ∃ t, step (machine [(0x100, [1, 2, 3])] [8, 0x100, 3, 0x200]) = .next t ∧ (t.mem.read 0x202 == 3#8) = true :=
  ⟨by decide +kernel, exists_of_after _ (by decide +kernel)⟩

/-- BusyChangesOnlyAsListed: a start, a STOP, an error, an SRESET and a hardware reset. -/
theorem witness_BusyChangesOnlyAsListed :
    (State.reset.status.busy = false ∧
      ∃ t, step (hostNext State.reset (.regWrite 0x004#12 4 1#32)) = .next t ∧ t.status.busy = true) ∧
    ((running []).status.busy = true ∧ (∃ t, step (machine [] [1]) = .next t ∧ (!t.status.busy) = true) ∧
      (∃ t, step (machine [] [5]) = .next t ∧ (!t.status.busy) = true) ∧
      (∃ t, step (hostNext (running []) (.regWrite 0x004#12 4 2#32)) = .next t ∧ (!t.status.busy) = true) ∧
      ∃ t, step (hostNext (running []) .hardReset) = .next t ∧ (!t.status.busy) = true) :=
  ⟨⟨by decide, exists_of_after _ (by decide +kernel)⟩, by decide, exists_of_after _ (by decide +kernel),
    exists_of_after _ (by decide +kernel), exists_of_after _ (by decide +kernel), exists_of_after _ (by decide +kernel)⟩

/-- RegistersChangeOnlyAsListed: F written by SETF and by HDR_LOAD, RES by COPY, STATUS by STOP and by an error. -/
theorem witness_RegistersChangeOnlyAsListed :
    let s := twoFields [5, 0, 5, 0]
    (∃ t, exec (.setf false 31#5 7#32) s = .next t ∧ (t.f != s.f) = true) ∧
    (∃ t, exec (.hdrLoad false 0x600#32 4#32 0x500#32 2#32) s = .next t ∧ (t.f != s.f) = true) ∧
    (∃ t, exec (.copy false 0#32 2#32 8#32) s = .next t ∧ (t.res != s.res) = true) ∧
    (∃ t, exec (.stop false) s = .next t ∧ (t.status != s.status) = true) ∧
    ∃ t, exec (.copy false 0#32 2#32 1#32) s = .next t ∧ (t.status != s.status) = true :=
  ⟨exists_of_after _ (by decide +kernel), exists_of_after _ (by decide +kernel), exists_of_after _ (by decide +kernel),
    exists_of_after _ (by decide +kernel), exists_of_after _ (by decide +kernel)⟩

/-- IrqBitOnlyLatchesDesc: a descriptor that completes, and one that raises W0 itself. -/
theorem witness_IrqBitOnlyLatchesDesc :
    (running []).status.legal = true ∧ (running []).status.busy = true ∧
    (∃ t, exec (.stop true) (running []) = .next t ∧ (t.irqStatus == 5#3) = true) ∧
    (∃ u, exec (Instr.noIrq (.stop true)) (running []) = .next u ∧ (!u.status.err && u.irqStatus == 1#3) = true) ∧
    (∃ t, exec (.packsub true 3#2 false 0 0 0 0 0 0) (running []) = .next t ∧ (t.errInfo == 0x30126#32) = true) ∧
    ∃ u, exec (Instr.noIrq (.packsub true 3#2 false 0 0 0 0 0 0)) (running []) = .next u ∧
      (u.status.err && u.errInfo == 0x30026#32) = true :=
  ⟨by decide, by decide, exists_of_after _ (by decide +kernel), exists_of_after _ (by decide +kernel),
    exists_of_after _ (by decide +kernel), exists_of_after _ (by decide +kernel)⟩

/-- RunEndsAsStatusShows: one step of each kind. -/
theorem witness_RunEndsAsStatusShows :
    (∀ s ∈ [machine [] [0], machine [] [1], machine [] [5]], s.inv = true ∧ s.status.busy = true ∧ s.engineNext = true) ∧
    (∃ t, step (machine [] [0]) = .next t ∧ (t.status.word == 1#32) = true) ∧
    (∃ t, step (machine [] [1]) = .next t ∧ (t.status.word == 2#32) = true) ∧
    ∃ t, step (machine [] [5]) = .next t ∧ (t.status.word == 0x104#32) = true :=
  ⟨by decide +kernel, exists_of_after _ (by decide +kernel), exists_of_after _ (by decide +kernel),
    exists_of_after _ (by decide +kernel)⟩

/-- OnlyBrokenDutiesStop: turns that keep their duties and turns that break each of them, by width, alignment and BUSY. -/
theorem witness_OnlyBrokenDutiesStop :
    State.reset.nextTurnOK = true ∧ (hostNext State.reset (.memRead 0xFFFFFFFC#32 4)).nextTurnOK = true ∧
    (hostNext (running []) (.memRead 0#32 4)).nextTurnOK = false ∧
    (hostNext State.reset (.regRead 2#12 4)).nextTurnOK = false ∧
    (hostNext State.reset (.regRead 4#12 2)).nextTurnOK = false ∧
    (hostNext State.reset (.memWrite 2#32 2 0#32)).nextTurnOK = true ∧
    (hostNext State.reset (.memWrite 2#32 4 0#32)).nextTurnOK = false ∧
    (hostNext State.reset (.memRead 6#32 3)).nextTurnOK = false ∧
    (hostNext (running []) (.memRead 0#32 4)).status.busy = true ∧
    (hostNext (running []) (.regRead 0xFFC#12 4)).nextTurnOK = true := by decide

/-- IdIsConstant, CtrlStartsOrResets, HostWritesFollowMap, InterruptRegistersAct: the turn each is about comes next, and
the four cases of CTRL, START with and without BUSY. -/
theorem witness_host_turns :
    (∀ act ∈ [HostAct.regRead 0x000#12 4, .regWrite 0x000#12 4 7#32, .regWrite 0x004#12 4 1#32, .regWrite 0x00C#12 4 7#32,
        .regWrite 0x018#12 4 7#32, .regWrite 0x01C#12 4 7#32, .regRead 0x01C#12 4, .regWrite (BitVec.ofNat 12 (0x100 + 4 * (31#5).toNat)) 4 7#32],
      (hostNext State.reset act).turns = .host act :: []) ∧
    (2#32).getLsbD 1 = true ∧ ((1#32).getLsbD 1 = false ∧ (1#32).getLsbD 0 = true) ∧
    ((0xFFFFFFFC#32).getLsbD 1 = false ∧ (0xFFFFFFFC#32).getLsbD 0 = false) ∧
    State.reset.status.busy = false ∧ (running []).status.busy = true := by decide

/-- HostWritesFollowMap's third clause: the offsets just outside the window of F, and a read-only one. -/
theorem witness_HostWritesFollowMap :
    [0x0FC#12, 0x180#12, 0xFFC#12, 0x030#12, 0x008#12].all (fun off => off.toNat % 4 == 0 &&
      !([0x004, 0x00C, 0x018, 0x01C].contains off.toNat) && (off.toNat < 0x100 || 0x180 ≤ off.toNat)) = true := by
  decide +kernel

/-- RegisterReadsFollowMap: every offset it names is a multiple of 4; the ends of the windows of RES and F, and the
unlisted offsets beside them. -/
theorem witness_RegisterReadsFollowMap :
    [0x000#12, 0x004#12, 0x008#12, 0x00C#12, 0x010#12, 0x014#12, 0x018#12, 0x01C#12, 0x020#12, 0x02C#12, 0x030#12,
      0x034#12, 0x0FC#12, 0x100#12, 0x17C#12, 0x180#12, 0xFFC#12].all (fun off => off.toNat % 4 == 0) = true ∧
    (∀ off, (hostNext State.reset (.regRead off 4)).turns = .host (.regRead off 4) :: []) ∧
    (0x02C#12).toNat = 0x020 + 4 * (3#2).toNat ∧ (0x17C#12).toNat = 0x100 + 4 * (31#5).toNat ∧
    State.reset.mem.size < 2 ^ 32 ∧ (0x030 < (0x034#12).toNat ∧ (0x0FC#12).toNat < 0x100) ∧
    0x180 ≤ (0x180#12).toNat :=
  ⟨by decide +kernel, fun _ => rfl, by decide, by decide, by decide, by decide, by decide⟩

/-- WindowAccessesBytes: the last word of `M`, and the last word of the address space. -/
theorem witness_WindowAccessesBytes :
    let s := loaded [(0xFFFC, [1, 2, 3, 4])]
    s.mem.wf = true ∧ s.status.busy = false ∧ (0xFFFC#32).toNat % 4 = 0 ∧ (0xFFFFFFFF#32).toNat % 1 = 0 ∧
    (0xFFFFFFFE#32).toNat % 2 = 0 ∧
    (hostNext s (.memRead 0xFFFC#32 4)).turns = .host (.memRead 0xFFFC#32 4) :: [] ∧
    (hostNext s (.memWrite 0xFFFFFFFE#32 2 7#32)).turns = .host (.memWrite 0xFFFFFFFE#32 2 7#32) :: [] := by decide

/-- ResetsSetRegisters: both resets as the next turn, and contents of `M` up to its last byte. -/
theorem witness_ResetsSetRegisters :
    (∃ s, step (hostNext (running [(3, [7])]) .hardReset) = .next s ∧ (s.mem.read 3 == 7#8) = true) ∧
    (∃ s, step (hostNext (running [(3, [7])]) (.powerOn [(4, 8#8)])) = .next s ∧ (s.mem.read 3 == 0#8) = true) ∧
    (4096 ≤ State.reset.mem.size ∧ State.reset.mem.size ≤ 2 ^ 31 ∧ State.reset.mem.size % 32 = 0) ∧
    ([(0, 0#8), (4, 8#8), (0xFFFF, 1#8)] : List Host.Cell).Pairwise (fun c d => c.1 < d.1) ∧ 0xFFFF < State.reset.mem.size :=
  ⟨exists_of_after _ (by decide +kernel), exists_of_after _ (by decide +kernel), by decide, by decide, by decide⟩

end Sys2Proof.Tests
end

/-! The control word's fields in numbers, the descriptor the fetch reads, and the checks of the fetch and the decoder
one by one (30_encoding.md R110, R111, R113, R115, R119, R120). -/

namespace Sys2Proof

/-! ### The fields of W0 in numbers (30_encoding.md R110, R113) -/

theorem extractLsb'_eq_ofNat_mod {w : Nat} (x : BitVec w) (lo n : Nat) :
    x.extractLsb' lo n = BitVec.ofNat n (x.toNat / 2 ^ lo % 2 ^ n) := by
  apply BitVec.eq_of_toNat_eq
  simp [Nat.shiftRight_eq_div_pow]

theorem getLsbD_eq_decide_div {w : Nat} (x : BitVec w) (k : Nat) :
    x.getLsbD k = decide (x.toNat / 2 ^ k % 2 = 1) := by
  rw [← BitVec.testBit_toNat, Nat.testBit_eq_decide_div_mod_eq]

theorem Desc.op_eq_ofNat (d : Desc) : d.op = BitVec.ofNat 8 (d.w0.toNat % 2 ^ 8) := by
  rw [Desc.op, extractLsb'_eq_ofNat_mod, pow_zero, Nat.div_one]

theorem Desc.irq_eq_decide (d : Desc) : d.irq = decide (d.w0.toNat / 2 ^ 8 % 2 = 1) :=
  getLsbD_eq_decide_div _ _

theorem Desc.rsv_eq_zero_iff (d : Desc) : d.rsv = 0#7 ↔ d.w0.toNat / 2 ^ 9 % 2 ^ 7 = 0 := by
  rw [Desc.rsv, extractLsb'_eq_ofNat_mod, BitVec.toNat_eq]
  simp

theorem Desc.flags_toNat (d : Desc) : d.flags.toNat = d.w0.toNat / 2 ^ 16 := by
  have := d.w0.isLt
  rw [Desc.flags, extractLsb'_eq_ofNat_mod, BitVec.toNat_ofNat]
  omega

theorem Desc.flags_masked_eq_zero_iff (d : Desc) (mask : BitVec 16) :
    d.flags &&& ~~~mask = 0#16 ↔ d.w0.toNat / 2 ^ 16 &&& (~~~mask).toNat = 0 := by
  rw [BitVec.toNat_eq, BitVec.toNat_and, d.flags_toNat, BitVec.toNat_zero]

/-! ### The operands in FLAGS, in numbers (30_encoding.md R120, R122) -/

theorem Desc.flags_getLsbD (d : Desc) (k : Nat) :
    d.flags.getLsbD k = decide (d.w0.toNat / 2 ^ (16 + k) % 2 = 1) := by
  rw [getLsbD_eq_decide_div, d.flags_toNat, Nat.div_div_eq_div_mul, pow_add]

theorem Desc.flags_extractLsb' (d : Desc) (k n : Nat) :
    d.flags.extractLsb' k n = BitVec.ofNat n (d.w0.toNat / 2 ^ (16 + k) % 2 ^ n) := by
  rw [extractLsb'_eq_ofNat_mod, d.flags_toNat, Nat.div_div_eq_div_mul, pow_add]

/-- BC and G, and the bits of COND. -/
theorem Desc.flags_twoBits (d : Desc) (k : Nat) :
    d.flags.extractLsb' k 2 = BitVec.ofNat 2 (d.w0.toNat / 2 ^ (16 + k) % 4) := d.flags_extractLsb' k 2

/-- The register index A of BRF and SETF. -/
theorem Desc.flags_index (d : Desc) :
    d.flags.extractLsb' 0 5 = BitVec.ofNat 5 (d.w0.toNat / 2 ^ 16 % 32) := d.flags_extractLsb' 0 5

theorem Desc.flagCount_flags (d : Desc) (k : Nat) :
    flagCount d.flags k = d.w0.toNat / 2 ^ (16 + k) % 4 + 1 := by
  rw [flagCount, d.flags_twoBits, BitVec.toNat_ofNat]
  omega

theorem condOf_ofNat_mod (n : Nat) :
    condOf (BitVec.ofNat 2 (n % 4)) =
      if n % 4 = 0 then Cond.eq else if n % 4 = 1 then .ne else if n % 4 = 2 then .ltu else .geu := by
  have : n % 4 < 4 := Nat.mod_lt n (by decide)
  interval_cases n % 4 <;> rfl

/-- FILL's value (R119). -/
theorem extractLsb'_lowByte (w : Word) : w.extractLsb' 0 8 = BitVec.ofNat 8 (w.toNat % 256) := by
  simpa using extractLsb'_eq_ofNat_mod w 0 8

theorem countOK_flagCount (fl : BitVec 16) (lo : Nat) : countOK (flagCount fl lo) = true := by
  have h : (fl.extractLsb' lo 2).toNat < 4 := BitVec.isLt _
  simpa [countOK, flagCount] using h

/-- The counts are the only operands with a bound, and two FLAGS bits cannot break it (R122). -/
theorem operandsOf_wf (d : Desc) (op : Opcode) : (operandsOf d op).wf = true := by
  cases op <;> simp [operandsOf, Instr.wf, countOK_flagCount]

/-! ### The decoder's checks in their order (30_encoding.md R111) -/

theorem decode_of_opcode_none {d : Desc} (h : opcodeOf d.op = none) : decode d = .error (.undefinedOp d.w0) := by
  simp [decode, h]

theorem decode_of_rsv {d : Desc} {op : Opcode} (h : opcodeOf d.op = some op) (hr : d.rsv ≠ 0#7) :
    decode d = .error (.reservedBits d.w0) := by
  simp [decode, h, hr]

theorem decode_of_flagBits {d : Desc} {op : Opcode} (h : opcodeOf d.op = some op) (hr : d.rsv = 0#7)
    (hf : d.flags &&& ~~~op.flagMask ≠ 0#16) : decode d = .error (.flagBits d.w0) := by
  simp [decode, h, hr, hf]

theorem decode_of_legal {d : Desc} {op : Opcode} (h : opcodeOf d.op = some op) (hr : d.rsv = 0#7)
    (hf : d.flags &&& ~~~op.flagMask = 0#16) : decode d = .ok (operandsOf d op) := by
  simp [decode, h, hr, hf]

end Sys2Proof

namespace Sys2Proof.Machine

/-! ### The eight words at an address (00_scope.md R11, 30_encoding.md R110) -/

theorem Memory.readUInt_lt (m : Memory) (a w : Nat) (be : Bool) : m.readUInt a w be < 256 ^ w := by
  have h := leNat_lt (if be then (m.readBytes a w).reverse else m.readBytes a w)
  cases be <;> simpa [Memory.readUInt, uintOfBytes] using h

theorem Memory.take_drop_readBytes (m : Memory) {a n off k : Nat} (h : off + k ≤ n) :
    ((m.readBytes a n).drop off).take k = m.readBytes (a + off) k := by
  apply List.ext_getElem
  · simp; omega
  · simp [Memory.readBytes, Nat.add_assoc]

theorem wordAt_readBytes (m : Memory) {a n off : Nat} (h : off + 4 ≤ n) :
    wordAt (m.readBytes a n) off = BitVec.ofNat 32 (m.readUInt (a + off) 4 false) := by
  rw [wordAt, m.take_drop_readBytes h]
  rfl

/-- The descriptor whose eight little-endian words stand at an address. -/
def Memory.descAt (m : Memory) (a : Nat) : Desc :=
  let word := fun k : Nat => BitVec.ofNat 32 (m.readUInt (a + 4 * k) 4 false)
  ⟨word 0, word 1, word 2, word 3, word 4, word 5, word 6, word 7⟩

theorem Memory.descAt_w0_toNat (m : Memory) (a : Nat) : (m.descAt a).w0.toNat = m.readUInt a 4 false :=
  Nat.mod_eq_of_lt (m.readUInt_lt a 4 false)

theorem decodeBytes_readBytes (m : Memory) (a : Nat) : decodeBytes (m.readBytes a 32) = decode (m.descAt a) := by
  simp [decodeBytes, descOfBytes, wordAt_readBytes, Memory.descAt]

/-! ### The fetch's checks in their order (30_encoding.md R111) -/

theorem fetchDecode_of_misaligned {s : State} (h : s.pc.toNat % 32 ≠ 0) :
    s.fetchDecode = .error (.eAlign, s.pc.toNat) := by
  simp [State.fetchDecode, h]

theorem fetchDecode_of_outside {s : State} (ha : s.pc.toNat % 32 = 0) (h : s.mem.size < s.pc.toNat + 32) :
    s.fetchDecode = .error (.eRange, s.pc.toNat) := by
  simp [State.fetchDecode, Memory.rangeOK, ha, h]

theorem fetchDecode_of_decode_error {s : State} {e : DecodeError} (ha : s.pc.toNat % 32 = 0)
    (hm : s.pc.toNat + 32 ≤ s.mem.size) (hd : decode (s.mem.descAt s.pc.toNat) = .error e) :
    s.fetchDecode = .error (.eIllegal, e.info) := by
  simp [State.fetchDecode, State.fetchBytes, Memory.rangeOK, decodeBytes_readBytes, ha, hm, hd]

theorem fetchDecode_of_decode_ok {s : State} {i : Instr} (ha : s.pc.toNat % 32 = 0)
    (hm : s.pc.toNat + 32 ≤ s.mem.size) (hd : decode (s.mem.descAt s.pc.toNat) = .ok i) :
    s.fetchDecode = .ok i := by
  simp [State.fetchDecode, State.fetchBytes, Memory.rangeOK, decodeBytes_readBytes, ha, hm, hd]

/-! ### The busy ENGINE's turn (70_reset_and_hazards.md R311) -/

theorem engineNext_of_host {s : State} {act : HostAct} {rest : List Turn} (h : s.turns = .host act :: rest) :
    s.engineNext = false := by
  simp [State.engineNext, h]

theorem step_of_fetchDecode_error {s : State} {code : ErrCode} {info : Nat} (he : s.engineNext = true)
    (hb : s.status.busy = true) (hd : s.fetchDecode = .error (code, info)) :
    step s = .next (s.turnTaken.raise code info) := by
  rcases step_cases s with ⟨-, hi, -⟩ | ⟨-, -, ⟨c, n, hf, hs⟩ | ⟨i, hf, -⟩⟩ | ⟨act, rest, ht, -⟩
  · simp [hb] at hi
  · cases hf.symm.trans hd
    exact hs
  · cases hf.symm.trans hd
  · simp [engineNext_of_host ht] at he

theorem step_of_fetchDecode_ok {s : State} {i : Instr} (he : s.engineNext = true)
    (hb : s.status.busy = true) (hd : s.fetchDecode = .ok i) : step s = exec i s.turnTaken := by
  rcases step_cases s with ⟨-, hi, -⟩ | ⟨-, -, ⟨c, n, hf, -⟩ | ⟨j, hf, hs⟩⟩ | ⟨act, rest, ht, -⟩
  · simp [hb] at hi
  · cases hf.symm.trans hd
  · cases hf.symm.trans hd
    exact hs
  · simp [engineNext_of_host ht] at he

/-- A descriptor the decoder rejects raises E_ILLEGAL with whatever its error reports (60_exceptions.md R272). -/
theorem step_of_decode_error {s : State} {e : DecodeError} {n : Nat} (he : s.engineNext = true)
    (hb : s.status.busy = true) (ha : s.pc.toNat % 32 = 0) (hm : s.pc.toNat + 32 ≤ s.mem.size)
    (hd : decode (s.mem.descAt s.pc.toNat) = .error e) (hn : e.info = n) :
    step s = .next (s.turnTaken.raise .eIllegal n) :=
  step_of_fetchDecode_error he hb (hn ▸ fetchDecode_of_decode_error ha hm hd)

/-- Settles O6: each outcome of R111 is one of the checks above, read in numbers; each operand is one of W0's fields
in numbers or a whole word. -/
theorem fetchAndDecodeOrder : Obligations.FetchAndDecodeOrder := by
  unfold Obligations.FetchAndDecodeOrder
  refine ⟨by decide, operandsOf_wf, ?operands, ?steps⟩
  case operands =>
    intro w0 w1 w2 w3 w4 w5 w6 w7
    simp only [operandsOf, Desc.irq_eq_decide, Desc.flags_getLsbD, Desc.flags_twoBits, Desc.flags_index,
      Desc.flagCount_flags, condOf_ofNat_mod, extractLsb'_lowByte, and_self]
  case steps =>
    intro s he hb a t w
    have hw0 : (s.mem.descAt a).w0.toNat = w 0 := s.mem.descAt_w0_toNat a
    have hop : (s.mem.descAt a).op = BitVec.ofNat 8 (w 0 % 2 ^ 8) := hw0 ▸ Desc.op_eq_ofNat _
    have hrsv : (s.mem.descAt a).rsv = 0#7 ↔ w 0 / 2 ^ 9 % 2 ^ 7 = 0 := hw0 ▸ Desc.rsv_eq_zero_iff _
    have hflags (mask : BitVec 16) :
        (s.mem.descAt a).flags &&& ~~~mask = 0#16 ↔ w 0 / 2 ^ 16 &&& (~~~mask).toNat = 0 :=
      hw0 ▸ Desc.flags_masked_eq_zero_iff _ mask
    rw [← hop]
    refine ⟨fun ha => step_of_fetchDecode_error he hb (fetchDecode_of_misaligned ha),
      fun ha hm => step_of_fetchDecode_error he hb (fetchDecode_of_outside ha hm),
      fun ha hm => ⟨fun hnone => ?undefined, fun op hsome => ⟨fun hr => ?reserved, fun hr hf => ?flags,
        fun hr hf => ?legal⟩⟩⟩
    case undefined => exact step_of_decode_error he hb ha hm (decode_of_opcode_none hnone) hw0
    case reserved => exact step_of_decode_error he hb ha hm (decode_of_rsv hsome (mt hrsv.mp hr)) hw0
    case flags =>
      exact step_of_decode_error he hb ha hm (decode_of_flagBits hsome (hrsv.mpr hr) (mt (hflags _).mp hf)) hw0
    case legal =>
      exact step_of_fetchDecode_ok he hb
        (fetchDecode_of_decode_ok ha hm (decode_of_legal hsome (hrsv.mpr hr) ((hflags _).mpr hf)))

end Sys2Proof.Machine

/-! Layout-table entries: the words of an entry in bytes, E0's fields in numbers, EntryOK and the six checks, each said
once (42_header.md R200 to R204). -/

namespace Sys2Proof.Machine

/-! ### The words of an entry (R200) -/

/-- A little-endian word by its four bytes (00_scope.md R11). -/
theorem Memory.readUInt_four_le (m : Memory) (a : Nat) :
    m.readUInt a 4 false = (m.read a).toNat + 2 ^ 8 * (m.read (a + 1)).toNat + 2 ^ 16 * (m.read (a + 2)).toNat +
      2 ^ 24 * (m.read (a + 3)).toNat := by
  have hbytes : m.readBytes a 4 = [m.read a, m.read (a + 1), m.read (a + 2), m.read (a + 3)] := rfl
  simp only [Memory.readUInt, uintOfBytes, hbytes, leNat, Bool.false_eq_true, if_false]
  ring

theorem Memory.leWord_toNat (m : Memory) (a : Nat) :
    (BitVec.ofNat 32 (m.readUInt a 4 false)).toNat = (m.read a).toNat + 2 ^ 8 * (m.read (a + 1)).toNat +
      2 ^ 16 * (m.read (a + 2)).toNat + 2 ^ 24 * (m.read (a + 3)).toNat :=
  (Nat.mod_eq_of_lt (m.readUInt_lt a 4 false)).trans (m.readUInt_four_le a)

/-! ### E0's fields and EntryOK (R201, R202) -/

theorem Entry.be_iff (e : Entry) : e.be = true ↔ e.e0.toNat / 2 ^ 18 % 2 = 1 := by
  rw [Entry.be, getLsbD_eq_decide_div, decide_eq_true_iff]

theorem Entry.signed_iff (e : Entry) : e.signed = true ↔ e.e0.toNat / 2 ^ 19 % 2 = 1 := by
  rw [Entry.signed, getLsbD_eq_decide_div, decide_eq_true_iff]

theorem Entry.zmap_iff (e : Entry) : e.zmap = true ↔ e.e0.toNat / 2 ^ 20 % 2 = 1 := by
  rw [Entry.zmap, getLsbD_eq_decide_div, decide_eq_true_iff]

theorem Entry.idx_toNat (e : Entry) : e.idx.toNat = e.e0.toNat / 2 ^ 21 % 32 := by
  simp [Entry.idx, extractLsb'_eq_ofNat_mod]

/-- EntryOK as R202's list of conditions. -/
theorem Entry.ok_iff (e : Entry) :
    e.ok = true ↔ e.rsv = 0 ∧ e.wc ≠ 3 ∧ e.chk ≤ 5 ∧ ¬ (e.signed = true ∧ e.zmap = true) ∧
      ¬ (e.zmap = true ∧ e.wc = 2) ∧ (e.chk = 4 ∨ e.chk = 5 → e.a.toNat ≤ 31) := by
  simp only [Entry.ok, Bool.and_eq_true, Bool.or_eq_true, Bool.not_eq_true', beq_iff_eq, bne_iff_ne,
    decide_eq_true_iff, ← Bool.not_eq_true, imp_iff_not_or, and_assoc]

/-! ### The six checks (R204) -/

theorem Entry.check_none {e : Entry} (h : e.chk = 0) (v : Word) (f : Vector Word 32) : e.check v f = true := by
  simp [Entry.check, h]

theorem Entry.check_eq {e : Entry} (h : e.chk = 1) (v : Word) (f : Vector Word 32) :
    e.check v f = true ↔ v = e.a := by
  simp [Entry.check, h]

theorem Entry.check_range {e : Entry} (h : e.chk = 2) (v : Word) (f : Vector Word 32) :
    e.check v f = true ↔
      interp e.signed e.a ≤ interp e.signed v ∧ interp e.signed v ≤ interp e.signed e.b := by
  simp [Entry.check, h]

/-- A bit of the 64-bit set whose low word is `lo` and whose high word is `hi`. -/
theorem testBit_word_pair (hi lo : Word) (k : Nat) :
    (hi.toNat * 2 ^ 32 + lo.toNat).testBit k = if k < 32 then lo.getLsbD k else hi.getLsbD (k - 32) := by
  rw [mul_comm, Nat.testBit_two_pow_mul_add _ lo.isLt]
  simp only [BitVec.testBit_toNat]

theorem Entry.check_set {e : Entry} (h : e.chk = 3) (v : Word) (f : Vector Word 32) :
    e.check v f = true ↔
      (v.toNat < 32 ∧ e.a.getLsbD v.toNat = true) ∨
        (32 ≤ v.toNat ∧ v.toNat < 64 ∧ e.b.getLsbD (v.toNat - 32) = true) := by
  simp only [Entry.check, h, testBit_word_pair, Bool.and_eq_true, decide_eq_true_iff]
  by_cases hv : v.toNat < 32
  · have h64 : v.toNat < 64 := by omega
    simp [hv, h64]
  · simp [hv, Nat.le_of_not_lt hv]

/-- The register that A names, for LEF and GEF. -/
theorem setWidth_five_eq {x : Word} {a : BitVec 5} (h : x.toNat = a.toNat) : x.setWidth 5 = a := by
  apply BitVec.eq_of_toNat_eq
  rw [BitVec.toNat_setWidth, h, Nat.mod_eq_of_lt a.isLt]

theorem Entry.check_lef {e : Entry} (h : e.chk = 4) (v : Word) (f : Vector Word 32) :
    e.check v f = true ↔ interp e.signed v ≤ interp e.signed (fieldReg f (e.a.setWidth 5)) := by
  simp [Entry.check, h]

theorem Entry.check_gef {e : Entry} (h : e.chk = 5) (v : Word) (f : Vector Word 32) :
    e.check v f = true ↔ interp e.signed (fieldReg f (e.a.setWidth 5)) ≤ interp e.signed v := by
  simp [Entry.check, h]

/-- Settles O39: the three words in bytes, each field of E0 and EntryOK in numbers, and each check by its row of
R204. -/
theorem checksAsTabled : Obligations.ChecksAsTabled := by
  unfold Obligations.ChecksAsTabled
  refine ⟨?words, ?fields, ?checks⟩
  case words =>
    intro m tbl j
    exact ⟨m.leWord_toNat _, m.leWord_toNat _, m.leWord_toNat _⟩
  case fields =>
    intro e x wc chk
    have hwidth {c : Nat} (h : wc = c) : e.width = 2 ^ c := congrArg (2 ^ ·) h
    have hok := e.ok_iff
    rw [e.signed_iff, e.zmap_iff] at hok
    exact ⟨rfl, hwidth, hwidth, hwidth, e.be_iff, e.signed_iff, e.zmap_iff, e.idx_toNat, rfl, hok⟩
  case checks =>
    intro e v f num
    refine ⟨fun h => Entry.check_none h v f, fun h => Entry.check_eq h v f, fun h => Entry.check_range h v f,
      fun h => Entry.check_set h v f, fun a ha => ?_⟩
    obtain rfl := setWidth_five_eq ha
    exact ⟨fun h => Entry.check_lef h v f, fun h => Entry.check_gef h v f⟩

end Sys2Proof.Machine

/-! What HDR_LOAD can do, case by case, and what error entry leaves of memory and field registers, whichever step
took it (42_header.md R205, 60_exceptions.md R274, R275). -/

namespace Sys2Proof.Machine

/-! ### HDR_LOAD by its first failing entry (42_header.md R205) -/

/-- A test passes at every index below `k`, or there is a first one where it fails. -/
theorem forall_or_first_false (p : Nat → Bool) (k : Nat) :
    (∀ j < k, p j = true) ∨ ∃ j < k, (∀ x < j, p x = true) ∧ p j = false := by
  by_cases hall : ∀ j < k, p j = true
  · exact .inl hall
  · push Not at hall
    obtain ⟨hlt, hfail⟩ := Nat.find_spec hall
    refine .inr ⟨Nat.find hall, hlt, fun x hx => ?_, Bool.eq_false_iff.mpr hfail⟩
    have hmin := Nat.find_min hall hx
    by_contra hne
    exact hmin ⟨hx.trans hlt, hne⟩

/-- Everything HDR_LOAD can do: a range error, an entry that does not fit, an entry whose check fails after the writes
up to its own, or completion. -/
theorem exec_hdrLoad_cases (irq : Bool) (hdr hlen tbl k : Word) (s : State) :
    exec (.hdrLoad irq hdr hlen tbl k) s = .next (s.raise .eRange tbl.toNat) ∨
    exec (.hdrLoad irq hdr hlen tbl k) s = .next (s.raise .eRange hdr.toNat) ∨
    (∃ j < k.toNat, entryFits s.mem tbl.toNat hlen.toNat j = false ∧
      exec (.hdrLoad irq hdr hlen tbl k) s =
        .next (s.raise (if (entryAt s.mem tbl.toNat j).ok = true then .eMalformed else .eParam) j)) ∨
    (∃ j < k.toNat, entryPasses s.mem hdr.toNat tbl.toNat s.f j = false ∧
      exec (.hdrLoad irq hdr hlen tbl k) s =
        .next ((s.setFields (fieldsAfter s.mem hdr.toNat tbl.toNat s.f (j + 1))).raise .eMalformed j)) ∨
    exec (.hdrLoad irq hdr hlen tbl k) s =
      (s.setFields (fieldsAfter s.mem hdr.toNat tbl.toNat s.f k.toNat)).finish irq k.toNat 0 0 0 := by
  rcases htbl : s.spanOK ⟨tbl.toNat, 16 * k.toNat⟩ with _ | _
  · rw [State.spanOK] at htbl
    exact .inl (by simp [exec, execHdrLoad, State.fail_eq, htbl])
  rcases hhdr : s.spanOK ⟨hdr.toNat, hlen.toNat⟩ with _ | _
  · rw [State.spanOK] at htbl hhdr
    exact .inr (.inl (by simp [exec, execHdrLoad, State.fail_eq, htbl, hhdr]))
  rw [exec_hdrLoad_of_ok htbl hhdr]
  rcases forall_or_first_false (entryFits s.mem tbl.toNat hlen.toNat) k.toNat with hfit | ⟨j, hj, hbefore, hbad⟩
  · rw [firstBadEntry_none fun j hj => hfit j (List.mem_range.mp hj)]
    rcases forall_or_first_false (entryPasses s.mem hdr.toNat tbl.toNat s.f) k.toNat with
      hpass | ⟨j, hj, hbefore, hbad⟩
    · rw [loadEntries_all hpass]
      exact .inr (.inr (.inr (.inr rfl)))
    · rw [loadEntries_stops hj hbefore hbad]
      exact .inr (.inr (.inr (.inl ⟨j, hj, hbad, rfl⟩)))
  · rw [firstBadEntry_range hj hbefore hbad]
    exact .inr (.inr (.inl ⟨j, hj, hbad, rfl⟩))

/-- E_MALFORMED of HDR_LOAD names the failing entry, and leaves F as the writes up to that entry left it (R275). -/
theorem exec_hdrLoad_malformed {irq : Bool} {hdr hlen tbl k : Word} {s t : State}
    (h : exec (.hdrLoad irq hdr hlen tbl k) s = .next t) (hs : s.status.err = false) (he : t.status.err = true)
    (hc : t.status.code = .eMalformed) :
    ∃ j < k.toNat, t.errInfo.toNat = j ∧
      ((entryFits s.mem tbl.toNat hlen.toNat j = false ∧ t.f = s.f) ∨
        (entryPasses s.mem hdr.toNat tbl.toNat s.f j = false ∧
          t.f = fieldsAfter s.mem hdr.toNat tbl.toNat s.f (j + 1))) := by
  have info_toNat {j : Nat} (hj : j < k.toNat) : (BitVec.ofNat 32 j).toNat = j :=
    Nat.mod_eq_of_lt (hj.trans k.isLt)
  rcases exec_hdrLoad_cases irq hdr hlen tbl k s with
    e | e | ⟨j, hj, hbad, e⟩ | ⟨j, hj, hbad, e⟩ | e <;> cases h.symm.trans e
  case inl => simp at hc
  case inr.inl => simp at hc
  case inr.inr.inl => exact ⟨j, hj, by simpa using info_toNat hj, .inl ⟨hbad, rfl⟩⟩
  case inr.inr.inr.inl => exact ⟨j, hj, by simpa using info_toNat hj, .inr ⟨hbad, rfl⟩⟩
  case inr.inr.inr.inr => simp [hs] at he

/-! ### What error entry leaves (60_exceptions.md R274, R275) -/

/-- While the ENGINE runs there is no error (10_state.md R37). -/
theorem Status.err_eq_false_of_busy {st : Status} (hl : st.legal = true) (hb : st.busy = true) : st.err = false := by
  simp only [Status.legal, hb, Bool.true_and, Bool.and_eq_true, Bool.not_eq_true', Bool.or_eq_false_iff] at hl
  obtain ⟨⟨-, -, herr⟩, -⟩ := hl
  exact herr

theorem sameOutside_of_eq {m m' : Memory} (h : m' = m) (r : Span) : sameOutside m m' r :=
  h ▸ ⟨rfl, fun _ _ => rfl⟩

/-- An execution that ends with ERR = 1 where there was none took an error: neither kind of completion sets ERR. -/
theorem errorEffect_of_exec {i : Instr} {s t : State} (h : exec i s = .next t) (hs : s.status.err = false)
    (he : t.status.err = true) : errorEffect i s t := by
  rcases effect_of_exec h with ⟨-, ⟨irq, -, ht⟩ | ⟨ht, -⟩⟩ | ⟨-, cs, f, r0, r1, r2, r3, ht, -⟩ | herr
  case inr.inr => exact herr
  all_goals
    rw [ht] at he
    simp [hs] at he

theorem errored_of_errorEffect {i : Instr} {s t : State} (h : errorEffect i s t) :
    errored s t t.status.code t.errInfo.toNat ∧ t.status.code ≠ .noError := by
  obtain ⟨cs, f, n, code, info, hcode, rfl, -⟩ := h
  exact ⟨by simp only [errored, State.raise, BitVec.ofNat_toNat, BitVec.setWidth_eq], hcode⟩

/-- R275's list: the memory and the field registers are kept, but for E_CORRUPT of the two RLE decoders, which keeps the
memory outside the destination range, and E_MALFORMED of HDR_LOAD, which keeps the memory. -/
theorem kept_of_errorEffect {i : Instr} {s t : State} (h : errorEffect i s t) :
    (t.mem = s.mem ∧ t.f = s.f) ∨
    (t.status.code = .eCorrupt ∧ t.f = s.f ∧
      ((∃ irq src slen dst len, i = .rleDec irq src slen dst len ∧
          sameOutside s.mem t.mem ⟨dst.toNat, len.toNat⟩) ∨
        ∃ irq b dbe plsb src slen dst n, i = .rleDecp irq b dbe plsb src slen dst n ∧
          sameOutside s.mem t.mem ⟨dst.toNat, n.toNat * b⟩)) ∨
    (t.status.code = .eMalformed ∧ t.mem = s.mem ∧ ∃ irq hdr hlen tbl k, i = .hdrLoad irq hdr hlen tbl k) := by
  obtain ⟨cs, f, n, code, info, -, rfl, hkept⟩ := h
  rcases hkept with ⟨rfl, rfl, -⟩ | ⟨rfl, rfl, -, hdec⟩ | ⟨rfl, rfl, -, hload⟩
  · exact .inl ⟨rfl, rfl⟩
  · refine .inr (.inl ⟨rfl, rfl, ?_⟩)
    rcases hdec with ⟨irq, src, slen, dst, len, hi, hcs⟩ | ⟨irq, b, dbe, plsb, src, slen, dst, m, hi, hcs⟩
    · exact .inl ⟨irq, src, slen, dst, len, hi, sameOutside_writeCells hcs⟩
    · exact .inr ⟨irq, b, dbe, plsb, src, slen, dst, m, hi, sameOutside_writeCells hcs⟩
  · exact .inr (.inr ⟨rfl, rfl, hload⟩)

/-- The codes a fetch or a decode can fail with (30_encoding.md R111). -/
theorem fetchDecode_error_code {s : State} {code : ErrCode} {info : Nat} (h : s.fetchDecode = .error (code, info)) :
    code = .eAlign ∨ code = .eRange ∨ code = .eIllegal := by
  by_cases ha : s.pc.toNat % 32 = 0
  · by_cases hm : s.pc.toNat + 32 ≤ s.mem.size
    · rcases hd : decode (s.mem.descAt s.pc.toNat) with e | i
      · cases h.symm.trans (fetchDecode_of_decode_error ha hm hd)
        exact .inr (.inr rfl)
      · cases h.symm.trans (fetchDecode_of_decode_ok ha hm hd)
    · cases h.symm.trans (fetchDecode_of_outside ha (Nat.lt_of_not_le hm))
      exact .inr (.inl rfl)
  · cases h.symm.trans (fetchDecode_of_misaligned ha)
    exact .inl rfl

/-- Settles O46: an execution that ends with ERR = 1 is error entry, so each clause reads off R275's list; HDR_LOAD's
failing entry comes from its own cases, and a failed fetch or decode raises at once. -/
theorem errorsArePrecise : Obligations.ErrorsArePrecise := by
  unfold Obligations.ErrorsArePrecise
  refine ⟨fun _ _ _ => rfl, fun i s t hlegal hbusy hexec herr => ?descriptor,
    fun s t code info hnext hbusy hd hstep => ?fetch⟩
  case descriptor =>
    have hs : s.status.err = false := Status.err_eq_false_of_busy hlegal hbusy
    have heff : errorEffect i s t := errorEffect_of_exec hexec hs herr
    obtain ⟨hentry, hcode⟩ := errored_of_errorEffect heff
    refine ⟨hentry, hcode, ?_⟩
    have hcorrupt_ne (hc : t.status.code = .eCorrupt) : t.status.code ≠ .eMalformed := hc ▸ by decide
    rcases kept_of_errorEffect heff with ⟨hmem, hf⟩ |
      ⟨hcorrupt, hf, ⟨_, _, _, _, _, rfl, hout⟩ | ⟨_, _, _, _, _, _, _, _, rfl, hout⟩⟩ |
      ⟨hmalformed, hmem, _, _, _, _, _, rfl⟩
    · refine ⟨fun _ => ⟨hmem, hf⟩, fun _ _ _ _ _ _ _ => ⟨hmem, hf⟩, fun _ => ⟨hf, ?_, ?_⟩,
        fun hc => ⟨hmem, ?_⟩⟩
      · exact fun _ _ _ _ _ _ => sameOutside_of_eq hmem _
      · exact fun _ _ _ _ _ _ _ _ _ => sameOutside_of_eq hmem _
      · rintro _ _ _ _ _ rfl
        exact exec_hdrLoad_malformed hexec hs herr hc
    · refine ⟨fun hne => absurd hcorrupt hne.1, nofun, fun _ => ⟨hf, ?_, nofun⟩,
        fun hc => absurd hc (hcorrupt_ne hcorrupt)⟩
      rintro _ _ _ _ _ ⟨⟩
      exact hout
    · refine ⟨fun hne => absurd hcorrupt hne.1, nofun, fun _ => ⟨hf, nofun, ?_⟩,
        fun hc => absurd hc (hcorrupt_ne hcorrupt)⟩
      rintro _ _ _ _ _ _ _ _ ⟨⟩
      exact hout
    · refine ⟨fun hne => absurd hmalformed hne.2, nofun, fun hc => absurd hmalformed (hcorrupt_ne hc),
        fun hc => ⟨hmem, ?_⟩⟩
      rintro _ _ _ _ _ ⟨⟩
      exact exec_hdrLoad_malformed hexec hs herr hc
  case fetch =>
    cases hstep.symm.trans (step_of_fetchDecode_error hnext hbusy hd)
    exact ⟨State.raise_errored .., rfl, rfl, fetchDecode_error_code hd⟩

end Sys2Proof.Machine

/-! The encoder's FLAGS read back field by field, the opcode map as an `↔`, and the words an opcode uses: decoding
inverts encoding, and reads nothing else (30_encoding.md R110 to R123, R126). -/

namespace Sys2Proof

/-! ### FLAGS read back (30_encoding.md R120, R122) -/

theorem flagsBrf_fields (rsel : Bool) (cond : Cond) (a : BitVec 5) :
    (flagsBrf rsel cond a).extractLsb' 0 5 = a ∧ (flagsBrf rsel cond a).getLsbD 5 = rsel ∧
      (flagsBrf rsel cond a).extractLsb' 6 2 = cond.bits := by
  revert rsel a
  cases cond <;> decide

theorem flagsSetf_field (a : BitVec 5) : (flagsSetf a).extractLsb' 0 5 = a := by
  revert a
  decide

theorem flagsRleEnc_field (fb : Bool) : (flagsRleEnc fb).getLsbD 4 = fb := by
  revert fb
  decide

theorem flagsPlanes_fields (b : Nat) (be plsb fb : Bool) :
    (flagsPlanes b be plsb fb).extractLsb' 0 2 = countBits b ∧ (flagsPlanes b be plsb fb).getLsbD 2 = be ∧
      (flagsPlanes b be plsb fb).getLsbD 3 = plsb ∧ (flagsPlanes b be plsb fb).getLsbD 4 = fb := by
  unfold flagsPlanes
  generalize countBits b = x
  revert be plsb fb x
  decide

theorem flagsBitconv_fields (wi wo : Nat) (sbe dbe rep inv : Bool) :
    (flagsBitconv wi wo sbe dbe rep inv).extractLsb' 0 2 = countBits wi ∧
      (flagsBitconv wi wo sbe dbe rep inv).extractLsb' 2 2 = countBits wo ∧
      (flagsBitconv wi wo sbe dbe rep inv).getLsbD 4 = sbe ∧ (flagsBitconv wi wo sbe dbe rep inv).getLsbD 5 = dbe ∧
      (flagsBitconv wi wo sbe dbe rep inv).getLsbD 6 = rep ∧ (flagsBitconv wi wo sbe dbe rep inv).getLsbD 7 = inv := by
  unfold flagsBitconv
  generalize countBits wi = x
  generalize countBits wo = y
  revert sbe dbe rep inv x y
  decide

theorem flagsChannels_fields (w c : Nat) :
    (flagsChannels w c).extractLsb' 0 2 = countBits w ∧ (flagsChannels w c).extractLsb' 2 2 = countBits c := by
  unfold flagsChannels
  generalize countBits w = x
  generalize countBits c = y
  revert x y
  decide

theorem flagsTwoOne_fields (x : BitVec 2) (y : Bool) :
    (flagsTwoOne x y).extractLsb' 0 2 = x ∧ (flagsTwoOne x y).getLsbD 2 = y := by
  revert x y
  decide

/-- A count comes back from the FLAGS field that holds its two bits. -/
theorem flagCount_of_field {fl : BitVec 16} {lo w : Nat} (h : fl.extractLsb' lo 2 = countBits w)
    (hw : countOK w = true) : flagCount fl lo = w := by
  rw [flagCount, h, countBits_toNat hw]

/-! ### Decoding an encoded descriptor -/

theorem Desc.irq_of_encodeW0 {d : Desc} {op : Opcode} {irq : Bool} {fl : BitVec 16} (h : d.w0 = encodeW0 op irq fl) :
    d.irq = irq := by
  rw [Desc.irq, h, encodeW0_irq]

theorem Desc.flags_of_encodeW0 {d : Desc} {op : Opcode} {irq : Bool} {fl : BitVec 16}
    (h : d.w0 = encodeW0 op irq fl) : d.flags = fl := by
  rw [Desc.flags, h, encodeW0_flags]

/-- The operands of a descriptor whose control word was encoded, its IRQ bit and FLAGS given. -/
theorem decode_encoded {d : Desc} {op : Opcode} {irq : Bool} {fl : BitVec 16} {i : Instr}
    (h : d.w0 = encodeW0 op irq fl) (hm : fl &&& ~~~op.flagMask = 0#16)
    (hi : d.irq = irq → d.flags = fl → operandsOf d op = i) : decode d = .ok i :=
  (decode_of_encodeW0 h hm).trans (congrArg _ (hi (Desc.irq_of_encodeW0 h) (Desc.flags_of_encodeW0 h)))

theorem decode_encode (i : Instr) (h : i.wf = true) : decode (encode i) = .ok i := by
  cases i with
  | nop irq => exact decode_encoded rfl rfl fun h1 _ => congrArg Instr.nop h1
  | stop irq => exact decode_encoded rfl rfl fun h1 _ => congrArg Instr.stop h1
  | jump irq target => exact decode_encoded rfl rfl fun h1 _ => congrArg (Instr.jump · target) h1
  | brf irq rsel cond a target imm =>
    obtain ⟨ha, hr, hc⟩ := flagsBrf_fields rsel cond a
    refine decode_encoded rfl (flagsBrf_mask rsel cond a) fun h1 h2 => ?_
    rw [operandsOf, h1, h2, ha, hr, hc, condOf_bits]
    rfl
  | setf irq a imm =>
    refine decode_encoded rfl (flagsSetf_mask a) fun h1 h2 => ?_
    rw [operandsOf, h1, h2, flagsSetf_field]
    rfl
  | copy irq src len dst => exact decode_encoded rfl rfl fun h1 _ => congrArg (Instr.copy · src len dst) h1
  | fill irq dst len value =>
    refine decode_encoded rfl rfl fun h1 _ => ?_
    rw [operandsOf, h1]
    simp [encode, extractLsb'_lowByte, Nat.mod_eq_of_lt value.isLt]
  | rleDec irq src slen dst len =>
    exact decode_encoded rfl rfl fun h1 _ => congrArg (Instr.rleDec · src slen dst len) h1
  | rleEnc irq fb src n dst cap p0 =>
    refine decode_encoded rfl (flagsRleEnc_mask fb) fun h1 h2 => ?_
    rw [operandsOf, h1, h2, flagsRleEnc_field]
    rfl
  | rleDecp irq b dbe plsb src slen dst n =>
    obtain ⟨hb, hbe, hp, -⟩ := flagsPlanes_fields b dbe plsb false
    refine decode_encoded rfl (flagsPlanes_false_mask b dbe plsb) fun h1 h2 => ?_
    rw [operandsOf, h1, h2, hbe, hp, flagCount_of_field hb h]
    rfl
  | rleEncp irq b sbe plsb fb src n dst cap p0 =>
    obtain ⟨hb, hbe, hp, hf⟩ := flagsPlanes_fields b sbe plsb fb
    refine decode_encoded rfl (flagsPlanes_mask b sbe plsb fb) fun h1 h2 => ?_
    rw [operandsOf, h1, h2, hbe, hp, hf, flagCount_of_field hb h]
    rfl
  | bitconv irq wi wo sbe dbe rep inv src n dst p0 p1 =>
    obtain ⟨hwi, hwo⟩ := (Bool.and_eq_true _ _).mp h
    obtain ⟨h0, h2, h4, h5, h6, h7⟩ := flagsBitconv_fields wi wo sbe dbe rep inv
    refine decode_encoded rfl (flagsBitconv_mask wi wo sbe dbe rep inv) fun hi hf => ?_
    rw [operandsOf, hi, hf, h4, h5, h6, h7, flagCount_of_field h0 hwi, flagCount_of_field h2 hwo]
    rfl
  | reorder irq w c src n dst p0 =>
    obtain ⟨hw, hc⟩ := (Bool.and_eq_true _ _).mp h
    obtain ⟨h0, h2⟩ := flagsChannels_fields w c
    refine decode_encoded rfl (flagsChannels_mask w c) fun hi hf => ?_
    rw [operandsOf, hi, hf, flagCount_of_field h0 hw, flagCount_of_field h2 hc]
    rfl
  | deinterleave irq w c src n dst pp =>
    obtain ⟨hw, hc⟩ := (Bool.and_eq_true _ _).mp h
    obtain ⟨h0, h2⟩ := flagsChannels_fields w c
    refine decode_encoded rfl (flagsChannels_mask w c) fun hi hf => ?_
    rw [operandsOf, hi, hf, flagCount_of_field h0 hw, flagCount_of_field h2 hc]
    rfl
  | interleave irq w c src n dst pp =>
    obtain ⟨hw, hc⟩ := (Bool.and_eq_true _ _).mp h
    obtain ⟨h0, h2⟩ := flagsChannels_fields w c
    refine decode_encoded rfl (flagsChannels_mask w c) fun hi hf => ?_
    rw [operandsOf, hi, hf, flagCount_of_field h0 hw, flagCount_of_field h2 hc]
    rfl
  | rowflip irq base rows len pitch =>
    exact decode_encoded rfl rfl fun h1 _ => congrArg (Instr.rowflip · base rows len pitch) h1
  | unpacksub irq bc lsbf src n dst rows ps pd =>
    obtain ⟨h0, h2⟩ := flagsTwoOne_fields bc lsbf
    refine decode_encoded rfl (flagsTwoOne_mask bc lsbf) fun hi hf => ?_
    rw [operandsOf, hi, hf, h0, h2]
    rfl
  | packsub irq bc lsbf src n dst rows ps pd =>
    obtain ⟨h0, h2⟩ := flagsTwoOne_fields bc lsbf
    refine decode_encoded rfl (flagsTwoOne_mask bc lsbf) fun hi hf => ?_
    rw [operandsOf, hi, hf, h0, h2]
    rfl
  | hdrLoad irq hdr hlen tbl k =>
    exact decode_encoded rfl rfl fun h1 _ => congrArg (Instr.hdrLoad · hdr hlen tbl k) h1
  | hdrStore irq hdr hlen tbl k =>
    exact decode_encoded rfl rfl fun h1 _ => congrArg (Instr.hdrStore · hdr hlen tbl k) h1
  | chunkFind irq g opt region rlen tag =>
    obtain ⟨h0, h2⟩ := flagsTwoOne_fields g opt
    refine decode_encoded rfl (flagsTwoOne_mask g opt) fun hi hf => ?_
    rw [operandsOf, hi, hf, h0, h2]
    rfl

/-- Settles O1: the eight words come back from the 32 bytes, the control word's fields from W0, and FLAGS' fields from
FLAGS. -/
theorem decodeInvertsEncode : Obligations.DecodeInvertsEncode := by
  unfold Obligations.DecodeInvertsEncode
  intro i h
  rw [encodeBytes, decodeBytes_bytesOfDesc, decode_encode i h]

/-! ### The opcode map (30_encoding.md R117, R118) -/

/-- R118's ranges are exactly the OP values that name no opcode. -/
theorem opcodeOf_eq_none_iff (op : BitVec 8) :
    opcodeOf op = none ↔
      (0x05 ≤ op.toNat ∧ op.toNat ≤ 0x07) ∨ (0x0A ≤ op.toNat ∧ op.toNat ≤ 0x0F) ∨
        (0x14 ≤ op.toNat ∧ op.toNat ≤ 0x1F) ∨ (0x27 ≤ op.toNat ∧ op.toNat ≤ 0x2F) ∨ 0x33 ≤ op.toNat := by
  revert op
  decide

theorem decode_undefinedOp_iff (d : Desc) :
    decode d = .error (.undefinedOp d.w0) ↔ opcodeOf d.op = none := by
  refine ⟨fun h => ?_, decode_of_opcode_none⟩
  rcases hop : opcodeOf d.op with _ | op
  · rfl
  · unfold decode at h
    rw [hop] at h
    dsimp only at h
    split_ifs at h <;> simp at h

theorem decode_of_w0_zero {d : Desc} (h : d.w0 = 0#32) : decode d = .ok (.nop false) :=
  decode_encoded (op := .nop) (irq := false) (fl := 0#16) h rfl fun h1 _ => congrArg Instr.nop h1

/-- Settles O3. -/
theorem undefinedOpcodesRejected : Obligations.UndefinedOpcodesRejected := by
  unfold Obligations.UndefinedOpcodesRejected
  refine ⟨by decide, fun d => ?_, fun d => decode_of_w0_zero, ?_⟩
  · have hop : d.op.toNat = d.w0.toNat % 256 := by simp [Desc.op_eq_ofNat]
    rw [decode_undefinedOp_iff, opcodeOf_eq_none_iff, hop]
  · exact decode_encode (.nop false) rfl

/-! ### Only the used words are read (30_encoding.md R116, R119) -/

/-- The operands depend on W0's IRQ and FLAGS and on the words R119 lists, of FILL's W5 on its low byte. -/
theorem operandsOf_congr {d d' : Desc} {op : Opcode} (h0 : d'.w0 = d.w0)
    (hwords : ∀ k ∈ op.usedWords, k = 5 ∧ op = .fill ∨ d'.word k = d.word k)
    (hfill : op = .fill → d'.w5.toNat % 256 = d.w5.toNat % 256) : operandsOf d' op = operandsOf d op := by
  have hirq : d'.irq = d.irq := by rw [Desc.irq, h0, ← Desc.irq]
  have hflags : d'.flags = d.flags := by rw [Desc.flags, h0, ← Desc.flags]
  cases op
  case fill =>
    simp only [Opcode.usedWords, List.mem_cons, List.not_mem_nil, or_false, forall_eq_or_imp, forall_eq, Desc.word] at hwords
    obtain ⟨h3, h4, -⟩ := hwords
    have h3 : d'.w3 = d.w3 := by simpa using h3
    have h4 : d'.w4 = d.w4 := by simpa using h4
    rw [operandsOf, operandsOf, hirq, h3, h4, extractLsb'_lowByte, extractLsb'_lowByte, hfill rfl]
  all_goals
    simp only [Opcode.usedWords, List.mem_cons, List.not_mem_nil, or_false, forall_eq_or_imp, forall_eq, Desc.word,
      reduceCtorEq, and_false, false_or, false_imp_iff, implies_true] at hwords
    simp only [operandsOf, hirq, hflags, hwords]

/-- Settles O4: the decoder's checks read W0 alone, and the operands the used words. -/
theorem unusedWordsIgnored : Obligations.UnusedWordsIgnored := by
  unfold Obligations.UnusedWordsIgnored
  intro d d' op hop h0 hwords hfill
  have hop' : opcodeOf d'.op = some op := by rw [Desc.op, h0, ← Desc.op, hop]
  have hrsv : d'.rsv = d.rsv := by rw [Desc.rsv, h0, ← Desc.rsv]
  have hflags : d'.flags = d.flags := by rw [Desc.flags, h0, ← Desc.flags]
  simp only [decode, hop, hop', hrsv, hflags, h0, operandsOf_congr h0 hwords hfill]

/-! ### The worked encodings (30_encoding.md R126) -/

theorem decode_of_encode_eq {i : Instr} {d : Desc} (hd : encode i = d) (h : i.wf = true) : decode d = .ok i :=
  hd ▸ decode_encode i h

/-- Settles O2: the encoder computes each worked encoding, and what it computes decodes by O1's lemma. -/
theorem workedEncodings : Obligations.WorkedEncodings := by
  unfold Obligations.WorkedEncodings
  refine ⟨fun w1 w2 w3 w4 w5 w6 w7 => ?stop, rfl, decode_of_encode_eq rfl rfl, rfl,
    fun src n dst => ⟨rfl, decode_of_encode_eq rfl rfl⟩, rfl, rfl, rfl,
    fun t => ⟨rfl, decode_of_encode_eq rfl rfl⟩, rfl⟩
  case stop =>
    exact decode_encoded (op := .stop) (irq := false) (fl := 0#16) rfl rfl fun h1 _ => congrArg Instr.stop h1

end Sys2Proof

/-! The whole machine: what each turn keeps, what it may change, and when the machine stops (10_state.md,
70_reset_and_hazards.md R300 to R312). -/

namespace Sys2Proof.Machine

/-! ### Whose turn it is (70_reset_and_hazards.md R311) -/

theorem step_of_host {s : State} {act : HostAct} {rest : List Turn} (h : s.turns = .host act :: rest) :
    step s = hostTurn { s with turns := rest } act := by
  simp [step, h]

theorem step_of_idle {s : State} (he : s.engineNext = true) (hb : s.status.busy = false) :
    step s = .next s.turnTaken := by
  rcases step_cases s with ⟨-, -, hs⟩ | ⟨-, hi, -⟩ | ⟨act, rest, ht, -⟩
  · exact hs
  · simp [hb] at hi
  · simp [engineNext_of_host ht] at he

/-- A fetch that succeeds read at an aligned address inside `M` (30_encoding.md R111). -/
theorem fetchDecode_ok_range {s : State} {i : Instr} (h : s.fetchDecode = .ok i) :
    s.pc.toNat % 32 = 0 ∧ s.pc.toNat + 32 ≤ s.mem.size := by
  by_cases ha : s.pc.toNat % 32 = 0
  · by_cases hm : s.pc.toNat + 32 ≤ s.mem.size
    · exact ⟨ha, hm⟩
    · cases h.symm.trans (fetchDecode_of_outside ha (Nat.lt_of_not_le hm))
  · cases h.symm.trans (fetchDecode_of_misaligned ha)

theorem fetchDecode_of_decodeBytes {s : State} {i : Instr} (ha : s.pc.toNat % 32 = 0)
    (hm : s.pc.toNat + 32 ≤ s.mem.size) (hd : decodeBytes (s.mem.readBytes s.pc.toNat 32) = .ok i) :
    s.fetchDecode = .ok i :=
  fetchDecode_of_decode_ok ha hm (decodeBytes_readBytes s.mem _ ▸ hd)

/-- Settles O5. -/
theorem stepRunsTheDescriptor : Obligations.StepRunsTheDescriptor := by
  unfold Obligations.StepRunsTheDescriptor
  intro s i he hb ha hm hd _
  exact step_of_fetchDecode_ok he hb (fetchDecode_of_decodeBytes ha hm hd)

/-- Settles O7. -/
theorem idleEngineHoldsState : Obligations.IdleEngineHoldsState := by
  unfold Obligations.IdleEngineHoldsState
  exact fun _ => step_of_idle

/-! ### STATUS and the invariant (10_state.md R37) -/

theorem Status.eq_of_busy {st : Status} (hl : st.legal = true) (hb : st.busy = true) :
    st = ⟨true, false, false, .noError⟩ := by
  obtain ⟨busy, done, err, code⟩ := st
  subst hb
  cases done <;> cases err <;> cases code <;> simp [Status.legal] at hl ⊢

/-- A legal size, in numbers (00_scope.md R7). -/
theorem sizeLegal_iff {n : Nat} : sizeLegal n = true ↔ 4096 ≤ n ∧ n ≤ 2 ^ 31 ∧ n % 32 = 0 := by
  simp only [sizeLegal, Bool.and_eq_true, decide_eq_true_eq, beq_iff_eq, and_assoc]
  rfl

theorem Memory.sizeLegal_of_wf {m : Memory} (h : m.wf = true) : sizeLegal m.size = true := by
  simp only [Memory.wf, Bool.and_eq_true] at h
  exact h.1

theorem State.inv_iff {s : State} :
    s.inv = true ↔ s.mem.wf = true ∧ s.status.legal = true ∧
      (s.status.err = true ∨ s.errPc = 0#32 ∧ s.errInfo = 0#32) := by
  simp [State.inv, and_assoc]

/-- The invariant speaks of the memory, STATUS and the two error registers alone. -/
theorem State.inv_of_same {s t : State} (h : s.inv = true) (hm : t.mem.wf = true) (hst : t.status = s.status)
    (hpc : t.errPc = s.errPc) (hinfo : t.errInfo = s.errInfo) : t.inv = true := by
  obtain ⟨-, hl, he⟩ := State.inv_iff.mp h
  exact State.inv_iff.mpr ⟨hm, hst ▸ hl, by rwa [hst, hpc, hinfo]⟩

/-- Error entry makes STATUS legal, with ERR = 1 and a code (60_exceptions.md R274). -/
theorem State.inv_of_error {t : State} {code : ErrCode} (hm : t.mem.wf = true)
    (hst : t.status = ⟨false, false, true, code⟩) (hc : code ≠ .noError) : t.inv = true :=
  State.inv_iff.mpr ⟨hm, by simp [hst, Status.legal, hc], .inl (by rw [hst])⟩

theorem fetchDecode_error_ne_noError {s : State} {code : ErrCode} {info : Nat}
    (h : s.fetchDecode = .error (code, info)) : code ≠ .noError := by
  rcases fetchDecode_error_code h with rfl | rfl | rfl <;> decide

/-- An execution while BUSY = 1 keeps the invariant, whichever effect it has. -/
theorem effect_keeps_inv {i : Instr} {s t : State} (h : s.inv = true) (hb : s.status.busy = true)
    (he : effect i s t) : t.inv = true := by
  obtain ⟨hm, hl, -⟩ := State.inv_iff.mp h
  rcases he with ⟨-, ⟨irq, -, ht⟩ | ⟨ht, -⟩⟩ | ⟨-, cs, f, r0, r1, r2, r3, ht, -⟩ |
    ⟨cs, f, n, code, info, hcode, ht, -⟩
  · have hst := Status.eq_of_busy hl hb
    have hzero := (State.inv_iff.mp h).2.2
    rw [hst] at hzero
    rw [ht, State.inv_iff]
    exact ⟨hm, by rw [hst]; rfl, by simpa [hst] using hzero⟩
  · exact State.inv_of_same h (by rw [ht]; exact hm) (by rw [ht]) (by rw [ht]) (by rw [ht])
  · exact State.inv_of_same h (by rw [ht]; exact Memory.writeCells_wf hm cs) (by rw [ht]) (by rw [ht]) (by rw [ht])
  · exact State.inv_of_error (by rw [ht]; exact Memory.writeCells_wf hm cs) (by rw [ht]; rfl) hcode

/-! ### HOST's turns (10_state.md R31 to R47, 20_memory.md R86) -/

/-- Everything a HOST write of a register can do. -/
theorem hostRegStore_cases (s : State) (off : Nat) (v : Word) :
    (off = 0x004 ∧ hostRegStore s off v = hostCtrl s v) ∨
    (off = 0x00C ∧ hostRegStore s off v = whenIdle s { s with pc := v }) ∨
    (off = 0x018 ∧ hostRegStore s off v = { s with irqStatus := clearWritten s.irqStatus v }) ∨
    (off = 0x01C ∧ hostRegStore s off v = { s with irqEnable := v.setWidth 3 }) ∨
    (off ∉ [0x004, 0x00C, 0x018, 0x01C] ∧ hostRegStore s off v =
      if fieldOffset off then whenIdle s { s with f := setFieldReg s.f (fieldIndex off) v } else s) := by
  by_cases h1 : off = 0x004
  · exact .inl ⟨h1, by subst h1; rfl⟩
  by_cases h2 : off = 0x00C
  · exact .inr (.inl ⟨h2, by subst h2; rfl⟩)
  by_cases h3 : off = 0x018
  · exact .inr (.inr (.inl ⟨h3, by subst h3; rfl⟩))
  by_cases h4 : off = 0x01C
  · exact .inr (.inr (.inr (.inl ⟨h4, by subst h4; rfl⟩)))
  refine .inr (.inr (.inr (.inr ⟨by simp [h1, h2, h3, h4], ?_⟩)))
  unfold hostRegStore
  split
  · contradiction
  · contradiction
  · contradiction
  · contradiction
  · rfl

theorem whenIdle_cases (s t : State) : whenIdle s t = s ∨ whenIdle s t = t := by
  unfold whenIdle
  split
  · exact .inl rfl
  · exact .inr rfl

/-- Every register write but CTRL's leaves the memory, STATUS and the error registers. -/
theorem hostRegStore_frame {s : State} {off : Nat} (v : Word) (h : off ≠ 0x004) :
    (hostRegStore s off v).mem = s.mem ∧ (hostRegStore s off v).status = s.status ∧
      (hostRegStore s off v).errPc = s.errPc ∧ (hostRegStore s off v).errInfo = s.errInfo := by
  rcases hostRegStore_cases s off v with ⟨h4, -⟩ | ⟨-, e⟩ | ⟨-, e⟩ | ⟨-, e⟩ | ⟨-, e⟩
  · exact absurd h4 h
  · rcases whenIdle_cases s { s with pc := v } with hw | hw <;> rw [e, hw] <;> exact ⟨rfl, rfl, rfl, rfl⟩
  · rw [e]; exact ⟨rfl, rfl, rfl, rfl⟩
  · rw [e]; exact ⟨rfl, rfl, rfl, rfl⟩
  · rw [e]
    split
    · rcases whenIdle_cases s { s with f := setFieldReg s.f (fieldIndex off) v } with hw | hw <;>
        rw [hw] <;> exact ⟨rfl, rfl, rfl, rfl⟩
    · exact ⟨rfl, rfl, rfl, rfl⟩

theorem hostCtrl_of_reset {s : State} {v : Word} (h : v.getLsbD 1 = true) : hostCtrl s v = s.resetRegs :=
  if_pos h

theorem hostCtrl_of_start {s : State} {v : Word} (h1 : v.getLsbD 1 = false) (h0 : v.getLsbD 0 = true) :
    hostCtrl s v = s.start := by
  rw [hostCtrl, if_neg (Bool.eq_false_iff.mp h1), if_pos h0]

theorem hostCtrl_of_neither {s : State} {v : Word} (h1 : v.getLsbD 1 = false) (h0 : v.getLsbD 0 = false) :
    hostCtrl s v = s := by
  rw [hostCtrl, if_neg (Bool.eq_false_iff.mp h1), if_neg (Bool.eq_false_iff.mp h0)]

/-- Everything a HOST turn can do that goes on: a read, a register write, a window write, or one of the resets, each
with the duty it keeps (70_reset_and_hazards.md R312). -/
theorem hostTurn_next {s t : State} {act : HostAct} (h : hostTurn s act = .next t) :
    (∃ d, t = { s with hostData := d }) ∨
    (∃ off v, act = .regWrite off 4 v ∧ t = hostRegStore s off.toNat v) ∨
    (∃ cs, t = s.store cs ∧ s.status.busy = false) ∨
    (act = .hardReset ∧ t = s.resetRegs) ∨ ∃ m0, act = .powerOn m0 ∧ t = s.powerOn m0 := by
  have window : ∀ {a width} {u : State}, admitWindow s a width u = .next t → t = u ∧ s.status.busy = false := by
    intro a width u hu
    unfold admitWindow at hu
    split_ifs at hu with h1 h2
    exact ⟨(Host.Outcome.next.inj hu).symm, by simpa using h2⟩
  cases act with
  | regRead off width =>
    simp only [hostTurn] at h
    split_ifs at h
    exact .inl ⟨_, (Host.Outcome.next.inj h).symm⟩
  | regWrite off width v =>
    simp only [hostTurn] at h
    split_ifs at h with hok
    simp only [regAccessOK, Bool.and_eq_true, beq_iff_eq] at hok
    obtain ⟨rfl, -⟩ := hok
    exact .inr (.inl ⟨off, v, rfl, (Host.Outcome.next.inj h).symm⟩)
  | memRead a width => exact .inl ⟨_, (window h).1⟩
  | memWrite a width v => exact .inr (.inr (.inl ⟨_, window h⟩))
  | hardReset => exact .inr (.inr (.inr (.inl ⟨rfl, (Host.Outcome.next.inj h).symm⟩)))
  | powerOn m0 => exact .inr (.inr (.inr (.inr ⟨m0, rfl, (Host.Outcome.next.inj h).symm⟩)))

theorem emptyMemory_wf {n : Nat} (h : sizeLegal n = true) : (Memory.mk n []).wf = true := by
  simp [Memory.wf, h, cellsWf]

theorem powerOnMemory_wf {m : Memory} (h : sizeLegal m.size = true) (m0 : List Host.Cell) :
    (powerOnMemory m m0).wf = true :=
  Memory.writeCells_wf (emptyMemory_wf h) m0

theorem State.resetRegs_inv {s : State} (h : s.mem.wf = true) : s.resetRegs.inv = true :=
  State.inv_iff.mpr ⟨h, rfl, .inr ⟨rfl, rfl⟩⟩

/-- START makes STATUS legal and clears the error registers, or changes nothing (10_state.md R35). -/
theorem State.start_inv {s : State} (h : s.inv = true) : s.start.inv = true := by
  rcases hb : s.status.busy with _ | _
  · rw [State.start_of_idle s hb]
    exact State.inv_iff.mpr ⟨(State.inv_iff.mp h).1, rfl, .inr ⟨rfl, rfl⟩⟩
  · rwa [State.start_of_busy s hb]

theorem hostCtrl_inv {s : State} (v : Word) (h : s.inv = true) : (hostCtrl s v).inv = true := by
  rcases h1 : v.getLsbD 1 with _ | _
  · rcases h0 : v.getLsbD 0 with _ | _
    · rwa [hostCtrl_of_neither h1 h0]
    · rw [hostCtrl_of_start h1 h0]
      exact State.start_inv h
  · rw [hostCtrl_of_reset h1]
    exact State.resetRegs_inv (State.inv_iff.mp h).1

theorem hostTurn_keeps_inv {s t : State} {act : HostAct} (h : s.inv = true) (ht : hostTurn s act = .next t) :
    t.inv = true := by
  obtain ⟨hm, -, -⟩ := State.inv_iff.mp h
  rcases hostTurn_next ht with ⟨d, rfl⟩ | ⟨off, v, -, rfl⟩ | ⟨cs, rfl, -⟩ | ⟨-, rfl⟩ | ⟨m0, -, rfl⟩
  · exact State.inv_of_same h hm rfl rfl rfl
  · by_cases hoff : off.toNat = 0x004
    · rw [hoff]
      exact hostCtrl_inv v h
    · obtain ⟨hmem, hst, hpc, hinfo⟩ := hostRegStore_frame (s := s) v hoff
      exact State.inv_of_same h (hmem ▸ hm) hst hpc hinfo
  · exact State.inv_of_same h (Memory.writeCells_wf hm cs) rfl rfl rfl
  · exact State.resetRegs_inv hm
  · exact State.inv_iff.mpr ⟨powerOnMemory_wf (Memory.sizeLegal_of_wf hm) m0, rfl, .inr ⟨rfl, rfl⟩⟩

/-- Settles O47: the ENGINE's turn by its effect, HOST's turn by what it does. -/
theorem stepKeepsInvariant : Obligations.StepKeepsInvariant := by
  unfold Obligations.StepKeepsInvariant
  intro s t h hstep
  have htaken : s.turnTaken.inv = true := h
  rcases step_cases s with ⟨-, -, hs⟩ | ⟨-, hb, ⟨code, info, hf, hs⟩ | ⟨i, -, hs⟩⟩ | ⟨act, rest, -, hs⟩
  · cases hs.symm.trans hstep
    exact htaken
  · cases hs.symm.trans hstep
    exact State.inv_of_error (State.inv_iff.mp h).1 rfl (fetchDecode_error_ne_noError hf)
  · exact effect_keeps_inv htaken hb (effect_of_exec (hs.symm.trans hstep))
  · exact hostTurn_keeps_inv (s := { s with turns := rest }) h (hs.symm.trans hstep)

/-- Settles O48. -/
theorem resetHasInvariant : Obligations.ResetHasInvariant := by
  unfold Obligations.ResetHasInvariant
  rw [State.inv_iff]
  decide

/-! ### When the machine goes on (70_reset_and_hazards.md R312) -/

theorem regAccessOK_iff {off : BitVec 12} {width : Nat} :
    regAccessOK off width = true ↔ width = 4 ∧ off.toNat % 4 = 0 := by
  simp [regAccessOK]

theorem memAccessOK_iff {a : Word} {width : Nat} :
    memAccessOK a width = true ↔ (width = 1 ∨ width = 2 ∨ width = 4) ∧ a.toNat % width = 0 := by
  simp [memAccessOK, or_assoc]

/-- A window access goes on only if it is admitted while BUSY = 0; otherwise it stops, by name. -/
theorem admitWindow_of_ok {s : State} {a : Word} {width : Nat} (t : State) (h : memAccessOK a width = true)
    (hb : s.status.busy = false) : admitWindow s a width t = .next t := by
  simp [admitWindow, h, hb]

theorem admitWindow_of_refused {s : State} {a : Word} {width : Nat} (t : State) (h : memAccessOK a width = false) :
    admitWindow s a width t = .refused .hostMemoryAccess := by
  simp [admitWindow, h]

theorem admitWindow_of_busy {s : State} {a : Word} {width : Nat} (t : State) (h : memAccessOK a width = true)
    (hb : s.status.busy = true) : admitWindow s a width t = .fault .hostRace := by
  simp [admitWindow, h, hb]

theorem admitWindow_next_iff {s : State} {a : Word} {width : Nat} (t : State) :
    (∃ u, admitWindow s a width t = .next u) ↔ (memAccessOK a width && !s.status.busy) = true := by
  rcases h : memAccessOK a width with _ | _
  · simp [admitWindow_of_refused t h]
  · rcases hb : s.status.busy with _ | _
    · simp [admitWindow_of_ok t h hb]
    · simp [admitWindow_of_busy t h hb]

/-- A HOST turn goes on exactly when the access keeps its duties. -/
theorem hostTurn_next_iff (s : State) (act : HostAct) :
    (∃ t, hostTurn s act = .next t) ↔ act.keepsDuty s = true := by
  cases act with
  | regRead off width => rcases h : regAccessOK off width with _ | _ <;> simp [hostTurn, HostAct.keepsDuty, h]
  | regWrite off width v => rcases h : regAccessOK off width with _ | _ <;> simp [hostTurn, HostAct.keepsDuty, h]
  | memRead a width => exact admitWindow_next_iff _
  | memWrite a width v => exact admitWindow_next_iff _
  | hardReset => simp [hostTurn, HostAct.keepsDuty]
  | powerOn m0 => simp [hostTurn, HostAct.keepsDuty]

theorem nextTurnOK_of_engineNext {s : State} (h : s.engineNext = true) : s.nextTurnOK = true := by
  unfold State.engineNext at h
  unfold State.nextTurnOK
  split
  · next ht => simp [ht] at h
  · rfl

theorem nextTurnOK_of_host {s : State} {act : HostAct} {rest : List Turn} (h : s.turns = .host act :: rest) :
    s.nextTurnOK = act.keepsDuty s := by
  simp [State.nextTurnOK, h]

theorem step_next_iff (s : State) : (∃ t, step s = .next t) ↔ s.nextTurnOK = true := by
  rcases step_cases s with ⟨he, -, hs⟩ | ⟨he, -, ⟨code, info, -, hs⟩ | ⟨i, -, hs⟩⟩ | ⟨act, rest, ht, hs⟩
  · simp [nextTurnOK_of_engineNext he, hs]
  · simp [nextTurnOK_of_engineNext he, hs]
  · obtain ⟨t, ht, -⟩ := exec_effect i s.turnTaken
    simp [nextTurnOK_of_engineNext he, hs, ht]
  · rw [hs, hostTurn_next_iff, nextTurnOK_of_host ht]
    cases act <;> rfl

/-- Settles O49: an ENGINE turn always goes on, since every execution has an effect; a HOST turn exactly when it keeps
its duties. -/
theorem onlyBrokenDutiesStop : Obligations.OnlyBrokenDutiesStop := by
  unfold Obligations.OnlyBrokenDutiesStop
  refine ⟨step_next_iff, fun s => nextTurnOK_of_engineNext, fun s act rest ht => ⟨?register, ?window, ?reset⟩,
    fun i s => (exec_effect i s).imp fun t h => h.1⟩
  case register =>
    intro off width hact
    rw [step_of_host ht, nextTurnOK_of_host ht, ← regAccessOK_iff, Bool.not_eq_true]
    rcases hact with rfl | ⟨v, rfl⟩
    · exact ⟨Iff.rfl, fun h => by simp [hostTurn, h]⟩
    · exact ⟨Iff.rfl, fun h => by simp [hostTurn, h]⟩
  case window =>
    intro a width hact aligned
    have hal : aligned ↔ memAccessOK a width = true := memAccessOK_iff.symm
    rw [step_of_host ht, nextTurnOK_of_host ht, hal, Bool.not_eq_true]
    rcases hact with rfl | ⟨v, rfl⟩
    · exact ⟨by simp [HostAct.keepsDuty], fun h => admitWindow_of_refused _ h,
        fun h hb => admitWindow_of_busy (s := { s with turns := rest }) _ h hb⟩
    · exact ⟨by simp [HostAct.keepsDuty], fun h => admitWindow_of_refused _ h,
        fun h hb => admitWindow_of_busy (s := { s with turns := rest }) _ h hb⟩
  case reset =>
    intro hact
    rw [nextTurnOK_of_host ht]
    rcases hact with rfl | ⟨m0, rfl⟩ <;> rfl

/-! ### BUSY (10_state.md R38) -/

theorem hostCtrl_sets_busy {s : State} {v : Word} (hs : s.status.busy = false)
    (ht : (hostCtrl s v).status.busy = true) : v.getLsbD 0 = true ∧ v.getLsbD 1 = false := by
  rcases h1 : v.getLsbD 1 with _ | _
  · rcases h0 : v.getLsbD 0 with _ | _
    · rw [hostCtrl_of_neither h1 h0, hs] at ht
      exact absurd ht (by decide)
    · exact ⟨rfl, rfl⟩
  · rw [hostCtrl_of_reset h1] at ht
    exact absurd ht Bool.false_ne_true

theorem hostCtrl_clears_busy {s : State} {v : Word} (hs : s.status.busy = true)
    (ht : (hostCtrl s v).status.busy = false) : v.getLsbD 1 = true := by
  rcases h1 : v.getLsbD 1 with _ | _
  · rcases h0 : v.getLsbD 0 with _ | _
    · rw [hostCtrl_of_neither h1 h0, hs] at ht
      exact absurd ht (by decide)
    · rw [hostCtrl_of_start h1 h0, State.start_of_busy s hs, hs] at ht
      exact absurd ht (by decide)
  · rfl

/-- A HOST turn that changes BUSY is a write of CTRL or a reset. -/
theorem hostTurn_busy {s t : State} {act : HostAct} (h : hostTurn s act = .next t)
    (hb : t.status.busy ≠ s.status.busy) :
    (∃ v, act = .regWrite 0x004#12 4 v ∧ t = hostCtrl s v) ∨ act = .hardReset ∨ ∃ m0, act = .powerOn m0 := by
  rcases hostTurn_next h with ⟨d, rfl⟩ | ⟨off, v, hact, rfl⟩ | ⟨cs, rfl, -⟩ | ⟨hact, -⟩ | ⟨m0, hact, -⟩
  · exact absurd rfl hb
  · by_cases hoff : off.toNat = 0x004
    · obtain rfl : off = 0x004#12 := BitVec.eq_of_toNat_eq hoff
      exact .inl ⟨v, hact, rfl⟩
    · rw [(hostRegStore_frame v hoff).2.1] at hb
      exact absurd rfl hb
  · exact absurd rfl hb
  · exact .inr (.inl hact)
  · exact .inr (.inr ⟨m0, hact⟩)

/-- An execution that clears BUSY is STOP's or took an error. -/
theorem effect_clears_busy {i : Instr} {s t : State} (he : effect i s t) (hs : s.status.busy = true)
    (ht : t.status.busy = false) : (∃ irq, i = .stop irq) ∨ t.status.err = true := by
  rcases he with ⟨-, ⟨irq, hi, -⟩ | ⟨e, -⟩⟩ | ⟨-, cs, f, r0, r1, r2, r3, e, -⟩ | ⟨cs, f, n, code, info, -, e, -⟩
  · exact .inl ⟨irq, hi⟩
  · rw [e, hs] at ht
    exact absurd ht (by decide)
  · rw [e, hs] at ht
    exact absurd ht (by decide)
  · exact .inr (by rw [e]; rfl)

/-- Settles O50: the idle ENGINE changes nothing, an execution only clears BUSY, and HOST's turns are CTRL's write or a
reset. -/
theorem busyChangesOnlyAsListed : Obligations.BusyChangesOnlyAsListed := by
  unfold Obligations.BusyChangesOnlyAsListed
  intro s t hstep
  rcases step_cases s with ⟨-, hb, hs⟩ | ⟨hnext, hb, hengine⟩ | ⟨act, rest, hturns, hs⟩
  case inl =>
    cases hs.symm.trans hstep
    have hsame : s.turnTaken.status.busy = false := hb
    exact ⟨fun _ ht => absurd ht (by rw [hsame]; decide), fun hs => absurd hs (by rw [hb]; decide)⟩
  case inr.inl =>
    refine ⟨fun hs => absurd hs (by rw [hb]; decide), fun _ ht => .inl ⟨hnext, ?_⟩⟩
    rcases hengine with ⟨code, info, -, hs⟩ | ⟨i, hf, hs⟩
    · cases hs.symm.trans hstep
      exact .inr rfl
    · rcases effect_clears_busy (effect_of_exec (hs.symm.trans hstep)) hb ht with ⟨irq, rfl⟩ | herr
      · exact .inl ⟨irq, hf⟩
      · exact .inr herr
  case inr.inr =>
    have hturn : hostTurn { s with turns := rest } act = .next t := hs.symm.trans hstep
    have cases_of_change (hne : t.status.busy ≠ s.status.busy) := hostTurn_busy hturn hne
    rw [hturns]
    constructor
    · intro hidle hbusy
      rcases cases_of_change (by rw [hidle, hbusy]; decide) with ⟨v, rfl, ht⟩ | rfl | ⟨m0, rfl⟩
      · exact ⟨v, rest, rfl, hostCtrl_sets_busy (s := { s with turns := rest }) hidle (ht ▸ hbusy)⟩
      · cases hturn
        exact absurd hbusy Bool.false_ne_true
      · cases hturn
        exact absurd hbusy Bool.false_ne_true
    · intro hbusy hidle
      rcases cases_of_change (by rw [hidle, hbusy]; decide) with ⟨v, rfl, ht⟩ | rfl | ⟨m0, rfl⟩
      · exact .inr (.inl ⟨v, rest, rfl, hostCtrl_clears_busy (s := { s with turns := rest }) hbusy (ht ▸ hidle)⟩)
      · exact .inr (.inr (.inl ⟨rest, rfl⟩))
      · exact .inr (.inr (.inr ⟨m0, rest, rfl⟩))

/-! ### How an ENGINE step ends (70_reset_and_hazards.md R310) -/

/-- STATUS after an error, as HOST reads it. -/
theorem Status.word_error (code : ErrCode) :
    (Status.mk false false true code).word = 4#32 ||| (BitVec.ofNat 32 code.num <<< 8) := by
  cases code <;> decide

/-- Settles O53: completion keeps STATUS, STOP sets DONE, and an error sets ERR and its code. -/
theorem runEndsAsStatusShows : Obligations.RunEndsAsStatusShows := by
  unfold Obligations.RunEndsAsStatusShows
  intro s t hinv hb he hstep
  obtain ⟨hm, hl, -⟩ := State.inv_iff.mp hinv
  have hst := Status.eq_of_busy hl hb
  have running (ht : t.status = s.status) : t.status.word = 1#32 := by rw [ht, hst]; decide
  rcases hd : s.fetchDecode with ⟨code, info⟩ | i
  · cases (step_of_fetchDecode_error he hb hd).symm.trans hstep
    exact .inr (.inr ⟨rfl, rfl, code, fetchDecode_error_ne_noError hd, Status.word_error code⟩)
  · have hexec := (step_of_fetchDecode_ok he hb hd).symm.trans hstep
    rcases effect_of_exec hexec with ⟨-, ⟨irq, rfl, ht⟩ | ⟨ht, -⟩⟩ | ⟨-, cs, f, r0, r1, r2, r3, ht, -⟩ |
      ⟨cs, f, n, code, info, hcode, ht, -⟩
    · refine .inr (.inl ⟨by rw [ht]; simp only [State.turnTaken_status, hst]; decide, ?_, irq, rfl⟩)
      have hrange := (fetchDecode_ok_range hd).2
      obtain ⟨-, hmax, -⟩ := sizeLegal_iff.mp (Memory.sizeLegal_of_wf hm)
      rw [ht]
      simp only [State.turnTaken_pc, BitVec.toNat_add, BitVec.toNat_ofNat]
      omega
    · exact .inl (running (by rw [ht]; rfl))
    · exact .inl (running (by rw [ht]; rfl))
    · exact .inr (.inr ⟨by rw [ht]; rfl, by rw [ht]; rfl, code, hcode, by rw [ht]; exact Status.word_error code⟩)

/-! ### Who writes F, RES and STATUS (10_state.md R45, R46, R49) -/

/-- The ENGINE never clears an IRQ_STATUS bit (60_exceptions.md R280). -/
theorem and_not_or_self (x y : BitVec 3) : x &&& ~~~(x ||| y) = 0#3 := by
  revert x y
  decide

theorem State.irqAfter_eq_or (s : State) (irq : Bool) :
    s.irqAfter irq = s.irqStatus ||| (if irq then irqDesc else 0#3) := by
  cases irq <;> simp [State.irqAfter]

/-- Settles O51: read off the three effects of an execution. -/
theorem registersChangeOnlyAsListed : Obligations.RegistersChangeOnlyAsListed := by
  unfold Obligations.RegistersChangeOnlyAsListed
  intro i s t hexec
  have keeps_bits (y : BitVec 3) (ht : t.irqStatus = s.irqStatus ||| y) : s.irqStatus &&& ~~~t.irqStatus = 0#3 :=
    ht ▸ and_not_or_self _ _
  rcases effect_of_exec hexec with ⟨-, ⟨irq, hi, ht⟩ | ⟨ht, hf⟩⟩ | ⟨hdata, cs, f, r0, r1, r2, r3, ht, hf⟩ |
    ⟨cs, f, n, code, info, hcode, ht, hf⟩
  case inl.inl =>
    refine ⟨fun hne => absurd (by rw [ht]) hne, fun hne => absurd (by rw [ht]) hne, fun _ => .inl ⟨irq, hi⟩,
      by rw [ht], by rw [ht], by rw [ht], by rw [ht], ?_⟩
    exact keeps_bits (irqDone ||| if irq then irqDesc else 0#3) (by rw [ht, BitVec.or_assoc])
  case inl.inr =>
    refine ⟨fun hne => .inl (hf.resolve_left hne), fun hne => absurd (by rw [ht]) hne,
      fun hne => absurd (by rw [ht]) hne, by rw [ht], by rw [ht], by rw [ht], by rw [ht], ?_⟩
    exact keeps_bits _ (by rw [ht]; exact s.irqAfter_eq_or _)
  case inr.inl =>
    refine ⟨fun hne => .inr ?_, fun _ => ⟨hdata, by rw [ht]⟩, fun hne => absurd (by rw [ht]) hne,
      by rw [ht], by rw [ht], by rw [ht], by rw [ht]; exact Memory.writeCells_size _ _, ?_⟩
    · rcases hf with rfl | ⟨-, hload⟩
      · exact absurd (by rw [ht]) hne
      · exact hload
    · exact keeps_bits _ (by rw [ht]; exact s.irqAfter_eq_or _)
  case inr.inr =>
    refine ⟨fun hne => .inr ?_, fun hne => absurd (by rw [ht]; rfl) hne, fun _ => .inr ?_,
      by rw [ht]; rfl, by rw [ht]; rfl, by rw [ht]; rfl, by rw [ht]; exact Memory.writeCells_size _ _, ?_⟩
    · rcases hf with ⟨-, rfl, -⟩ | ⟨-, rfl, -⟩ | ⟨-, -, -, hload⟩
      · exact absurd (by rw [ht]) hne
      · exact absurd (by rw [ht]) hne
      · exact hload
    · rw [ht]
      simp only [State.raise, BitVec.ofNat_toNat, BitVec.setWidth_eq]
    · exact keeps_bits irqErr (by rw [ht]; rfl)

end Sys2Proof.Machine

/-! What W0.IRQ changes, the control descriptors, and HOST's side of the machine (30_encoding.md R113, R114,
40_control_move.md, 10_state.md R31 to R47, 20_memory.md R86, 70_reset_and_hazards.md R300 to R303). -/

namespace Sys2Proof.Machine

/-! ### W0.IRQ (30_encoding.md R113, R114) -/

/-- Two outcomes of one descriptor, with and without its IRQ bit: the same error entry, or completions that differ in
IRQ_STATUS.DESC alone. -/
def agreeButIrq (s : State) (irq : Bool) (o o' : Out) : Prop :=
  (∃ u, o' = .next u ∧ o = .next (u.complete irq) ∧ u.status.err = s.status.err) ∨
    ∃ u, o = .next u ∧ o' = .next u ∧ u.status.err = true

theorem State.complete_false_complete (s : State) (irq : Bool) :
    (s.complete false).complete irq = s.complete irq := by
  simp [State.complete, State.latch]

theorem agreeButIrq_complete {s t : State} (irq : Bool) (h : t.status.err = s.status.err) :
    agreeButIrq s irq (.next (t.complete irq)) (.next (t.complete false)) :=
  .inl ⟨_, rfl, by rw [State.complete_false_complete], h⟩

theorem agreeButIrq_raise (s t : State) (irq : Bool) (code : ErrCode) (info : Nat) :
    agreeButIrq s irq (.next (t.raise code info)) (.next (t.raise code info)) :=
  .inr ⟨_, rfl, rfl, rfl⟩

theorem agreeButIrq_checked {s : State} {irq : Bool} {src dst : Span} {k k' : State → Out}
    (h : agreeButIrq s irq (k s) (k' s)) : agreeButIrq s irq (s.checked src dst k) (s.checked src dst k') := by
  unfold State.checked
  split
  · exact agreeButIrq_raise ..
  split
  · exact agreeButIrq_raise ..
  split
  · exact agreeButIrq_raise ..
  · exact h

theorem agreeButIrq_storeEncoded (s : State) (irq fb : Bool) (dst cap : Nat) (source : List Byte)
    (ps : List Packet) :
    agreeButIrq s irq (storeEncoded irq fb dst cap source ps s) (storeEncoded false fb dst cap source ps s) := by
  have fit (out : List Byte) (raw e packets : Nat) : agreeButIrq s irq
      (storeFit irq dst cap out raw e packets s) (storeFit false dst cap out raw e packets s) := by
    unfold storeFit
    split
    · exact agreeButIrq_raise ..
    · exact agreeButIrq_complete irq rfl
  rw [storeEncoded_eq, storeEncoded_eq]
  split
  · exact fit ..
  · exact fit ..

/-- W0 of a sub-byte descriptor of width 8 is the one thing an error reports that holds the IRQ bit (log 19). -/
def reportsIrq (i : Instr) : Prop :=
  ∃ lsbf src n dst rows ps pd,
    i = .unpacksub true 3#2 lsbf src n dst rows ps pd ∨ i = .packsub true 3#2 lsbf src n dst rows ps pd

theorem exec_agreeButIrq (i : Instr) (s : State) (h : ¬ reportsIrq i) :
    agreeButIrq s i.irqBit (exec i s) (exec i.noIrq s) := by
  cases i with
  | nop irq => exact agreeButIrq_complete irq rfl
  | stop irq => exact agreeButIrq_complete irq rfl
  | jump irq target => exact agreeButIrq_complete irq rfl
  | brf irq rsel cond a target imm =>
    simp only [Instr.irqBit, Instr.noIrq, exec, execBrf]
    split
    · exact agreeButIrq_raise ..
    · refine agreeButIrq_complete irq ?_
      split <;> rfl
  | setf irq a imm => exact agreeButIrq_complete irq rfl
  | copy irq src len dst =>
    simp only [Instr.irqBit, Instr.noIrq, exec, execCopy]
    exact agreeButIrq_checked (agreeButIrq_complete irq rfl)
  | fill irq dst len value =>
    simp only [Instr.irqBit, Instr.noIrq, exec, execFill]
    split
    · exact agreeButIrq_raise ..
    · exact agreeButIrq_complete irq rfl
  | rleDec irq src slen dst len =>
    simp only [Instr.irqBit, Instr.noIrq, exec, execRleDec]
    refine agreeButIrq_checked ?_
    split
    · exact agreeButIrq_raise ..
    · exact agreeButIrq_complete irq rfl
  | rleEnc irq fb src n dst cap p0 =>
    simp only [Instr.irqBit, Instr.noIrq, exec, execRleEnc]
    split
    · exact agreeButIrq_raise ..
    · exact agreeButIrq_checked (agreeButIrq_storeEncoded ..)
  | rleDecp irq b dbe plsb src slen dst n =>
    simp only [Instr.irqBit, Instr.noIrq, exec, execRleDecp]
    refine agreeButIrq_checked ?_
    split
    · exact agreeButIrq_raise ..
    · exact agreeButIrq_complete irq rfl
  | rleEncp irq b sbe plsb fb src n dst cap p0 =>
    simp only [Instr.irqBit, Instr.noIrq, exec, execRleEncp]
    split
    · exact agreeButIrq_raise ..
    · exact agreeButIrq_checked (agreeButIrq_storeEncoded ..)
  | bitconv irq wi wo sbe dbe rep inv src n dst p0 p1 =>
    simp only [Instr.irqBit, Instr.noIrq, exec, execBitconv]
    split
    · exact agreeButIrq_raise ..
    split
    · exact agreeButIrq_raise ..
    · exact agreeButIrq_checked (agreeButIrq_complete irq rfl)
  | reorder irq w c src n dst p0 =>
    simp only [Instr.irqBit, Instr.noIrq, exec, execReorder]
    split
    · exact agreeButIrq_raise ..
    split
    · exact agreeButIrq_raise ..
    split
    · exact agreeButIrq_raise ..
    split
    · exact agreeButIrq_raise ..
    · exact agreeButIrq_complete irq rfl
  | deinterleave irq w c src n dst pp =>
    simp only [Instr.irqBit, Instr.noIrq, exec, execDeinterleave]
    split
    · exact agreeButIrq_raise ..
    · exact agreeButIrq_checked (agreeButIrq_complete irq rfl)
  | interleave irq w c src n dst pp =>
    simp only [Instr.irqBit, Instr.noIrq, exec, execInterleave]
    split
    · exact agreeButIrq_raise ..
    · exact agreeButIrq_checked (agreeButIrq_complete irq rfl)
  | rowflip irq base rows len pitch =>
    simp only [Instr.irqBit, Instr.noIrq, exec, execRowflip]
    split
    · exact agreeButIrq_raise ..
    split
    · exact agreeButIrq_raise ..
    · exact agreeButIrq_complete irq rfl
  | unpacksub irq bc lsbf src n dst rows ps pd =>
    simp only [Instr.irqBit, Instr.noIrq, exec, execUnpacksub]
    split
    · next hbc =>
      subst hbc
      cases irq
      · exact agreeButIrq_raise ..
      · exact absurd ⟨lsbf, src, n, dst, rows, ps, pd, .inl rfl⟩ h
    split
    · exact agreeButIrq_raise ..
    split
    · exact agreeButIrq_raise ..
    · exact agreeButIrq_checked (agreeButIrq_complete irq rfl)
  | packsub irq bc lsbf src n dst rows ps pd =>
    simp only [Instr.irqBit, Instr.noIrq, exec, execPacksub]
    split
    · next hbc =>
      subst hbc
      cases irq
      · exact agreeButIrq_raise ..
      · exact absurd ⟨lsbf, src, n, dst, rows, ps, pd, .inr rfl⟩ h
    split
    · exact agreeButIrq_raise ..
    split
    · exact agreeButIrq_raise ..
    · exact agreeButIrq_checked (agreeButIrq_complete irq rfl)
  | hdrLoad irq hdr hlen tbl k =>
    simp only [Instr.irqBit, Instr.noIrq, exec, execHdrLoad]
    split
    · exact agreeButIrq_raise ..
    split
    · exact agreeButIrq_raise ..
    split
    · exact agreeButIrq_raise ..
    split
    · exact agreeButIrq_raise ..
    · exact agreeButIrq_complete irq rfl
  | hdrStore irq hdr hlen tbl k =>
    simp only [Instr.irqBit, Instr.noIrq, exec, execHdrStore]
    refine agreeButIrq_checked ?_
    split
    · exact agreeButIrq_raise ..
    · exact agreeButIrq_complete irq rfl
  | chunkFind irq g opt region rlen tag =>
    simp only [Instr.irqBit, Instr.noIrq, exec, execChunkFind]
    split
    · exact agreeButIrq_raise ..
    split
    · exact agreeButIrq_complete irq rfl
    · exact agreeButIrq_raise ..
    split
    · exact agreeButIrq_complete irq rfl
    · exact agreeButIrq_raise ..

/-- E_PARAM of a sub-byte width of 8 reports W0, so bit 8 is the IRQ bit. -/
theorem exec_reportsIrq {i : Instr} {s t u : State} (h : reportsIrq i) (ht : exec i s = .next t)
    (hu : exec i.noIrq s = .next u) : u.status.err = true ∧ t = { u with errInfo := u.errInfo ||| 0x100#32 } := by
  have word (op : Opcode) (lsbf : Bool) (hop : op = .unpacksub ∨ op = .packsub) :
      BitVec.ofNat 32 (subWord op true 3#2 lsbf).toNat =
        BitVec.ofNat 32 (subWord op false 3#2 lsbf).toNat ||| 0x100#32 := by
    rcases hop with rfl | rfl <;> cases lsbf <;> decide
  obtain ⟨lsbf, src, n, dst, rows, ps, pd, rfl | rfl⟩ := h
  · cases ht
    cases hu
    exact ⟨rfl, by simp only [State.raise, word _ lsbf (.inl rfl)]⟩
  · cases ht
    cases hu
    exact ⟨rfl, by simp only [State.raise, word _ lsbf (.inr rfl)]⟩

/-- Settles O52: with and without the IRQ bit an execution takes the same branch; only W0 itself, reported by the
sub-byte descriptors, tells the two apart. -/
theorem irqBitOnlyLatchesDesc : Obligations.IrqBitOnlyLatchesDesc := by
  unfold Obligations.IrqBitOnlyLatchesDesc
  intro i s t u hl hb ht hu
  have hs : s.status.err = false := Status.err_eq_false_of_busy hl hb
  by_cases hrep : reportsIrq i
  · obtain ⟨herr, he⟩ := exec_reportsIrq hrep ht hu
    refine ⟨fun h => absurd (herr.symm.trans h) (by decide), fun _ => ⟨fun _ _ _ _ _ _ _ _ => he, fun hne => ?_⟩⟩
    obtain ⟨lsbf, src, n, dst, rows, ps, pd, hi⟩ := hrep
    obtain ⟨h1, h2⟩ := hne lsbf src n dst rows ps pd
    exact absurd hi (by simp [h1, h2])
  · rcases exec_agreeButIrq i s hrep with ⟨v, hv, hv', herr⟩ | ⟨v, hv, hv', herr⟩
    · cases hv.symm.trans hu
      cases hv'.symm.trans ht
      rw [hs] at herr
      exact ⟨fun _ => rfl, fun h => absurd (herr.symm.trans h) (by decide)⟩
    · cases hv'.symm.trans hu
      cases hv.symm.trans ht
      refine ⟨fun h => absurd (herr.symm.trans h) (by decide), fun _ => ⟨fun lsbf src n dst rows ps pd hi => ?_,
        fun _ => rfl⟩⟩
      exact absurd ⟨lsbf, src, n, dst, rows, ps, pd, hi⟩ hrep

/-! ### Control descriptors (40_control_move.md R141 to R145) -/

/-- Settles O9. -/
theorem nopAndStopComplete : Obligations.NopAndStopComplete := by
  unfold Obligations.NopAndStopComplete
  intro s irq
  exact ⟨congrArg Host.Outcome.next (State.complete_eq s.advance irq), rfl⟩

theorem exec_jump (irq : Bool) (target : Word) (s : State) :
    exec (.jump irq target) s = .next { s with pc := target, irqStatus := s.irqAfter irq } :=
  congrArg Host.Outcome.next (State.complete_eq (s.setPc target) irq)

/-- Settles O10: JUMP leaves the turns, so the next ENGINE turn fetches at its target. -/
theorem jumpSetsDescPc : Obligations.JumpSetsDescPc := by
  unfold Obligations.JumpSetsDescPc
  intro s irq target
  refine ⟨_, exec_jump irq target s, rfl, fun hb he => ⟨fun hmis => ?_, fun hal hout => ?_, rfl, rfl⟩⟩
  · exact step_of_fetchDecode_error (s := { s with pc := target, irqStatus := s.irqAfter irq }) he hb
      (fetchDecode_of_misaligned hmis)
  · exact step_of_fetchDecode_error (s := { s with pc := target, irqStatus := s.irqAfter irq }) he hb
      (fetchDecode_of_outside hal hout)

/-- BRF's comparison in numbers (R144). -/
theorem condHolds_iff (cond : Cond) (x y : Word) :
    condHolds cond x y = true ↔ (cond = .eq ∧ x.toNat = y.toNat) ∨ (cond = .ne ∧ x.toNat ≠ y.toNat) ∨
      (cond = .ltu ∧ x.toNat < y.toNat) ∨ (cond = .geu ∧ y.toNat ≤ x.toNat) := by
  cases cond <;> simp [condHolds, BitVec.toNat_eq, BitVec.ult, BitVec.ule]

/-- BRF with a register that exists: one of the two next addresses. -/
theorem exec_brf_of_ok {irq rsel : Bool} {cond : Cond} {a : BitVec 5} {target imm : Word} {s : State}
    (h : rsel = false ∨ a.toNat ≤ 3) :
    exec (.brf irq rsel cond a target imm) s =
      .next { s with
        pc := if condHolds cond (branchOperand s rsel a) imm then target else s.pc + 32#32
        irqStatus := s.irqAfter irq } := by
  have hok : (rsel && decide (3 < a.toNat)) = false := by
    rcases h with rfl | h
    · rfl
    · simp [Nat.not_lt.mpr h]
  simp only [exec, execBrf, hok, Bool.false_eq_true, if_false, State.complete_eq]
  split <;> rfl

/-- Settles O11. -/
theorem brfBranches : Obligations.BrfBranches := by
  unfold Obligations.BrfBranches
  intro s irq rsel cond a target imm
  refine ⟨?_, fun hrsel ha => ?_⟩
  · intro hok x y taken
    have htaken : taken ↔ condHolds cond (branchOperand s rsel a) imm = true := (condHolds_iff ..).symm
    rw [exec_brf_of_ok hok]
    exact ⟨fun h => by rw [if_pos (htaken.mp h)], fun h => by rw [if_neg (mt htaken.mpr h)]⟩
  · simp [exec, execBrf, hrsel, ha, State.fail_eq]

/-- Settles O12. -/
theorem setfWritesOneField : Obligations.SetfWritesOneField := by
  unfold Obligations.SetfWritesOneField
  intro s irq a imm
  refine ⟨_, congrArg Host.Outcome.next (State.complete_eq _ irq), rfl, fieldReg_setFieldReg_same .., fun b hb => ?_⟩
  exact fieldReg_setFieldReg_ne s.f imm hb

/-! ### HOST's register reads (10_state.md R31, R32) -/

theorem step_of_regRead {s : State} {off : BitVec 12} {rest : List Turn} (h : s.turns = .host (.regRead off 4) :: rest)
    (hoff : off.toNat % 4 = 0) :
    step s = .next { s with turns := rest, hostData := hostRegValue s off.toNat } := by
  rw [step_of_host h, hostTurn, if_pos (regAccessOK_iff.mpr ⟨rfl, hoff⟩)]
  rfl

theorem step_of_regWrite {s : State} {off : BitVec 12} {v : Word} {rest : List Turn}
    (h : s.turns = .host (.regWrite off 4 v) :: rest) (hoff : off.toNat % 4 = 0) :
    step s = .next (hostRegStore { s with turns := rest } off.toNat v) := by
  rw [step_of_host h, hostTurn, if_pos (regAccessOK_iff.mpr ⟨rfl, hoff⟩)]

/-- Above MEM_BYTES' offset only the field registers read as anything but 0. -/
theorem hostRegValue_of_gt {off : Nat} (s : State) (h : 0x030 < off) :
    hostRegValue s off = if fieldOffset off then fieldReg s.f (fieldIndex off) else 0#32 := by
  unfold hostRegValue
  split
  case h_14 => rfl
  all_goals omega

theorem fieldOffset_iff {off : Nat} : fieldOffset off = true ↔ 0x100 ≤ off ∧ off < 0x180 := by
  simp [fieldOffset]

/-- The field register at its own offset. -/
theorem fieldIndex_of_offset {off : Nat} {i : BitVec 5} (h : off = 0x100 + 4 * i.toNat) :
    fieldOffset off = true ∧ fieldIndex off = i := by
  have hi := i.isLt
  refine ⟨fieldOffset_iff.mpr (by omega), BitVec.eq_of_toNat_eq ?_⟩
  rw [fieldIndex, BitVec.toNat_ofNat]
  omega

theorem resultReg_read {off : Nat} {i : BitVec 2} (s : State) (h : off = 0x020 + 4 * i.toNat) :
    hostRegValue s off = resultReg s.res i := by
  have cases_of_two : ∀ i : BitVec 2, i = 0#2 ∨ i = 1#2 ∨ i = 2#2 ∨ i = 3#2 := by decide
  subst h
  rcases cases_of_two i with rfl | rfl | rfl | rfl <;> rfl

theorem ErrCode.num_le (c : ErrCode) : c.num ≤ 9 := by
  cases c <;> decide

/-- STATUS as a number: no field reaches into another (R37). -/
theorem Status.word_toNat (st : Status) :
    st.word.toNat = st.busy.toNat + 2 * st.done.toNat + 4 * st.err.toNat + 256 * st.code.num := by
  have hcode := st.code.num_le
  have hbusy := st.busy.toNat_le
  have hdone := st.done.toNat_le
  have herr := st.err.toNat_le
  rw [Status.word, BitVec.toNat_ofNat]
  omega

/-- Settles O54. -/
theorem idIsConstant : Obligations.IdIsConstant := by
  unfold Obligations.IdIsConstant
  exact ⟨fun s rest h => step_of_regRead h rfl, fun s v rest h => step_of_regWrite h rfl, by decide⟩

/-- Settles O55: one read, whose value is the map's entry at each offset. -/
theorem registerReadsFollowMap : Obligations.RegisterReadsFollowMap := by
  unfold Obligations.RegisterReadsFollowMap
  refine ⟨by decide, fun s off rest hoff hturns => ⟨_, step_of_regRead hturns hoff, ?_⟩⟩
  refine ⟨?id, ?ctrl, ?status, ?pc, ?errPc, ?errInfo, ?irqStatus, ?irqEnable, fun i => resultReg_read s, ?memBytes,
    ?field, ?gap, ?above⟩
  case status =>
    rintro rfl
    have hword : (hostRegValue s 0x008).toNat = _ := s.status.word_toNat
    have hbusy := s.status.busy.toNat_le
    have hdone := s.status.done.toNat_le
    have herr := s.status.err.toNat_le
    simp only [BitVec.toNat_ofNat, hword]
    omega
  case irqStatus =>
    rintro rfl
    exact BitVec.toNat_setWidth_of_le (by decide)
  case irqEnable =>
    rintro rfl
    exact BitVec.toNat_setWidth_of_le (by decide)
  case memBytes =>
    rintro rfl hsize
    exact Nat.mod_eq_of_lt hsize
  case field =>
    intro i hi
    obtain ⟨hin, hidx⟩ := fieldIndex_of_offset hi
    rw [hostRegValue_of_gt s (by omega), if_pos hin, hidx]
  case gap =>
    intro hlo hhi
    rw [hostRegValue_of_gt s hlo, if_neg (by rw [fieldOffset_iff]; omega)]
  case above =>
    intro hlo
    rw [hostRegValue_of_gt s (by omega), if_neg (by rw [fieldOffset_iff]; omega)]
  all_goals
    rintro rfl
    rfl

/-! ### HOST's register writes (10_state.md R34 to R36, R39, R42, R43, R46, R47) -/

/-- Settles O56: SRESET wins over START, and START acts on an idle engine alone. -/
theorem ctrlStartsOrResets : Obligations.CtrlStartsOrResets := by
  unfold Obligations.CtrlStartsOrResets
  intro s v rest hturns
  have hstep : step s = .next (hostCtrl { s with turns := rest } v) := step_of_regWrite hturns rfl
  refine ⟨fun h1 => ?_, fun h1 h0 hb => ?_, fun h1 h0 hb => ?_, fun h1 h0 => ?_⟩
  · rw [hstep, hostCtrl_of_reset h1, State.resetRegs_eq]
  · rw [hstep, hostCtrl_of_start h1 h0, State.start_of_idle { s with turns := rest } hb]
  · rw [hstep, hostCtrl_of_start h1 h0, State.start_of_busy { s with turns := rest } hb]
  · rw [hstep, hostCtrl_of_neither h1 h0]

/-- A write that BUSY may hold off, field by field: the field register written and the others. -/
theorem whenIdle_setField (s : State) (i : BitVec 5) (v : Word) :
    ∃ t, whenIdle s { s with f := setFieldReg s.f i v } = t ∧ t = { s with f := t.f } ∧
      fieldReg t.f i = (if s.status.busy then fieldReg s.f i else v) ∧
      ∀ j : BitVec 5, j ≠ i → fieldReg t.f j = fieldReg s.f j := by
  refine ⟨_, rfl, ?_⟩
  rcases hb : s.status.busy with _ | _
  · simp only [whenIdle, hb, Bool.false_eq_true, if_false]
    exact ⟨trivial, fieldReg_setFieldReg_same .., fun j hj => fieldReg_setFieldReg_ne _ _ hj⟩
  · simp [whenIdle, hb]

/-- Settles O57. -/
theorem hostWritesFollowMap : Obligations.HostWritesFollowMap := by
  unfold Obligations.HostWritesFollowMap
  intro s v rest
  refine ⟨fun hturns => ?pc, fun i hturns => ?field, fun off hturns hal hnot hout => ?elsewhere⟩
  case pc =>
    rw [step_of_regWrite hturns rfl]
    change Host.Outcome.next (whenIdle { s with turns := rest } { s with turns := rest, pc := v }) = _
    rcases hb : s.status.busy with _ | _ <;> simp [whenIdle, hb]
  case field =>
    have hi := i.isLt
    have hoff : (BitVec.ofNat 12 (0x100 + 4 * i.toNat)).toNat = 0x100 + 4 * i.toNat := by
      rw [BitVec.toNat_ofNat]
      omega
    obtain ⟨hin, hidx⟩ := fieldIndex_of_offset hoff
    rw [step_of_regWrite hturns (by omega)]
    rcases hostRegStore_cases { s with turns := rest } (BitVec.ofNat 12 (0x100 + 4 * i.toNat)).toNat v with
      ⟨h, -⟩ | ⟨h, -⟩ | ⟨h, -⟩ | ⟨h, -⟩ | ⟨-, e⟩
    case inr.inr.inr.inr =>
      obtain ⟨t, ht, hframe, hsame, hother⟩ := whenIdle_setField { s with turns := rest } i v
      rw [e, if_pos hin, hidx, ht]
      exact ⟨t, rfl, hframe, hsame, hother⟩
    all_goals omega
  case elsewhere =>
    rw [step_of_regWrite hturns hal]
    simp only [List.mem_cons, List.not_mem_nil, or_false, not_or] at hnot
    obtain ⟨h1, h2, h3, h4⟩ := hnot
    rcases hostRegStore_cases { s with turns := rest } off.toNat v with
      ⟨h, -⟩ | ⟨h, -⟩ | ⟨h, -⟩ | ⟨h, -⟩ | ⟨-, e⟩
    · exact absurd h h1
    · exact absurd h h2
    · exact absurd h h3
    · exact absurd h h4
    · rw [e, if_neg (by rw [fieldOffset_iff]; omega)]

theorem bitVec3_ne_zero_iff (x : BitVec 3) : x ≠ 0#3 ↔ ∃ i < 3, x.getLsbD i = true := by
  revert x
  decide

/-- Settles O58: the writes and the read bit by bit, and the output as some bit set in both. -/
theorem interruptRegistersAct : Obligations.InterruptRegistersAct := by
  unfold Obligations.InterruptRegistersAct
  refine ⟨by decide, fun s v rest => ⟨fun h => ?clear, fun h => ?enable, fun h => ?read, ?irq⟩, rfl⟩
  case clear =>
    refine ⟨_, step_of_regWrite h rfl, rfl, fun i hi => ?_⟩
    change (clearWritten s.irqStatus v).getLsbD i = _
    simp [clearWritten, hi]
  case enable =>
    refine ⟨_, step_of_regWrite h rfl, rfl, fun i hi => ?_⟩
    change (v.setWidth 3).getLsbD i = _
    simp [hi]
  case read =>
    refine ⟨s.irqEnable.setWidth 32, step_of_regRead h rfl, fun i hi => ?_, fun i hi => ?_⟩
    · have : i < 32 := by omega
      simp [this]
    · simp [BitVec.getLsbD_setWidth, BitVec.getLsbD_of_ge s.irqEnable i hi]
  case irq =>
    rw [State.irq, bne_iff_ne, bitVec3_ne_zero_iff]
    simp only [BitVec.getLsbD_and, Bool.and_eq_true]

end Sys2Proof.Machine

namespace Sys2Proof

/-! ### Numbers digit by digit (00_scope.md R11) -/

theorem leNat_digit {bs : List Byte} {k : Nat} (h : k < bs.length) : leNat bs / 256 ^ k % 256 = bs[k].toNat := by
  induction bs generalizing k with
  | nil => simp at h
  | cons b bs ih =>
    have hb : b.toNat < 256 := b.isLt
    cases k with
    | zero =>
      simp only [leNat, pow_zero, Nat.div_one, List.getElem_cons_zero]
      omega
    | succ k =>
      rw [leNat, pow_succ', ← Nat.div_div_eq_div_mul, show (b.toNat + 256 * leNat bs) / 256 = leNat bs by omega]
      exact ih (by simpa using h)

theorem leBytes_getElem? {w v k : Nat} (h : k < w) :
    (leBytes w v)[k]? = some (BitVec.ofNat 8 (v / 256 ^ k)) := by
  induction w generalizing v k with
  | zero => omega
  | succ w ih =>
    cases k with
    | zero => simp [leBytes]
    | succ k =>
      rw [leBytes, List.getElem?_cons_succ, ih (by omega), Nat.div_div_eq_div_mul, ← pow_succ']

end Sys2Proof

namespace Sys2Proof.Machine

/-! ### HOST's window (20_memory.md R86) -/

theorem Memory.readBytes_getElem {m : Memory} {a n k : Nat} (h : k < (m.readBytes a n).length) :
    (m.readBytes a n)[k] = m.read (a + k) := by
  simp [Memory.readBytes]

/-- A little-endian number read from `M`, digit by digit. -/
theorem Memory.readUInt_le_digit (m : Memory) {a w k : Nat} (h : k < w) :
    m.readUInt a w false / 256 ^ k % 256 = (m.read (a + k)).toNat := by
  have hk : k < (m.readBytes a w).length := by simpa using h
  rw [Memory.readUInt, uintOfBytes, if_neg (by decide), leNat_digit hk, Memory.readBytes_getElem]

/-- Some bytes of a stored sequence may lie at and above MEM_BYTES; those below it are stored. -/
theorem Memory.read_writeCells_cellsAt_below {m : Memory} {a k : Nat} {v : Byte} {bs : List Byte} (hwf : m.wf = true)
    (hk : bs[k]? = some v) (ha : a + k < m.size) : (m.writeCells (cellsAt a bs)).read (a + k) = v := by
  refine Memory.read_writeCells_of_mem hwf ha (mem_cellsAt.mpr ⟨k, rfl, hk⟩) fun w hw => ?_
  obtain ⟨k', he, hk'⟩ := mem_cellsAt.mp hw
  obtain rfl : k' = k := by omega
  exact Option.some.inj (hk'.symm.trans hk)

/-- Settles O59: the window's number has the bytes as its digits, and its bytes are the digits of the number. -/
theorem windowAccessesBytes : Obligations.WindowAccessesBytes := by
  unfold Obligations.WindowAccessesBytes
  intro s a v width rest hwf hb hw hal
  have hok : memAccessOK a width = true := memAccessOK_iff.mpr ⟨hw, hal⟩
  refine ⟨fun hturns => ?read, fun hturns => ?write⟩
  case read =>
    have hlt := s.mem.readUInt_lt a.toNat width false
    have hword : 256 ^ width ≤ 2 ^ 32 := by rcases hw with rfl | rfl | rfl <;> decide
    have hd : (hostMemValue s a width).toNat = s.mem.readUInt a.toNat width false :=
      Nat.mod_eq_of_lt (lt_of_lt_of_le hlt hword)
    refine ⟨hostMemValue s a width, ?_, hd ▸ hlt, fun k hk => ?_, fun k _ hsize => Memory.read_of_size_le hsize⟩
    · rw [step_of_host hturns, hostTurn, admitWindow_of_ok (s := { s with turns := rest }) _ hok hb]
      rfl
    · apply BitVec.eq_of_toNat_eq
      rw [BitVec.toNat_ofNat, hd]
      exact Memory.readUInt_le_digit s.mem hk
  case write =>
    refine ⟨_, by rw [step_of_host hturns, hostTurn, admitWindow_of_ok (s := { s with turns := rest }) _ hok hb], rfl, fun k hk hsize => ?_, ?_, ?_⟩
    · exact Memory.read_writeCells_cellsAt_below hwf (leBytes_getElem? hk) hsize
    · have h := sameOutside_cellsAt s.mem a.toNat (uintBytes width false v.toNat)
      rwa [uintBytes_length] at h
    · exact Memory.writeCells_wf hwf _

/-! ### Resets (70_reset_and_hazards.md R300, R301, R303) -/

/-- Every register at the value R300 gives it. -/
theorem registers_after_reset {s : State} (hst : s.status = Status.reset) (hres : s.res = Vector.replicate 4 0#32)
    (hf : s.f = Vector.replicate 32 0#32) (hirq : s.irqStatus = 0#3) :
    s.status.word = 0#32 ∧ (∀ i, resultReg s.res i = 0#32) ∧ (∀ i, fieldReg s.f i = 0#32) ∧ s.irq = false := by
  refine ⟨by rw [hst]; decide, fun i => ?_, fun i => ?_, by simp [State.irq, hirq]⟩
  · simp [hres, resultReg]
  · simp [hf, fieldReg]

/-- In a list of cells with rising addresses an address names one byte. -/
theorem cell_unique {cs : List Host.Cell} (h : cs.Pairwise (fun c d => c.1 < d.1)) {a : Nat} {v w : Byte}
    (hv : (a, v) ∈ cs) (hw : (a, w) ∈ cs) : w = v := by
  induction h with
  | nil => simp at hv
  | cons hlt _ ih =>
    rcases List.mem_cons.mp hv with rfl | hv' <;> rcases List.mem_cons.mp hw with he | hw'
    · exact congrArg Prod.snd he
    · exact absurd (hlt _ hw') (Nat.lt_irrefl a)
    · subst he
      exact absurd (hlt _ hv') (Nat.lt_irrefl a)
    · exact ih hv' hw'

/-- Settles O60. -/
theorem resetsSetRegisters : Obligations.ResetsSetRegisters := by
  unfold Obligations.ResetsSetRegisters
  refine ⟨fun s hs => ?registers, fun s rest hturns => ⟨_, step_of_host hturns, rfl⟩,
    fun s m0 rest hturns hmin hmax hmod hm0 => ⟨_, step_of_host hturns, ?size, ?wf, fun c hc hlt => ?byte⟩⟩
  case registers =>
    rcases hs with rfl | ⟨s₀, rest, hturns, hstep⟩ | ⟨s₀, m0, rest, hturns, hstep⟩
    · obtain ⟨hword, hres, hf, hirq⟩ := registers_after_reset (s := State.reset) rfl rfl rfl rfl
      exact ⟨hword, rfl, rfl, rfl, rfl, rfl, hres, hf, hirq⟩
    · rw [step_of_host hturns] at hstep
      cases hstep
      obtain ⟨hword, hres, hf, hirq⟩ :=
        registers_after_reset (s := State.resetRegs { s₀ with turns := rest }) rfl rfl rfl rfl
      exact ⟨hword, rfl, rfl, rfl, rfl, rfl, hres, hf, hirq⟩
    · rw [step_of_host hturns] at hstep
      cases hstep
      obtain ⟨hword, hres, hf, hirq⟩ :=
        registers_after_reset (s := State.powerOn { s₀ with turns := rest } m0) rfl rfl rfl rfl
      exact ⟨hword, rfl, rfl, rfl, rfl, rfl, hres, hf, hirq⟩
  case size => exact Memory.writeCells_size _ _
  case wf => exact powerOnMemory_wf (sizeLegal_iff.mpr ⟨hmin, hmax, hmod⟩) m0
  case byte =>
    exact Memory.read_writeCells_of_mem (emptyMemory_wf (sizeLegal_iff.mpr ⟨hmin, hmax, hmod⟩)) hlt hc
      fun w hw => cell_unique hm0 hc hw

end Sys2Proof.Machine

/-! Parameter and range checks in their order, in numbers (60_exceptions.md R271 to R273, 20_memory.md R82 to R84), and
the raw moves (40_control_move.md R146, R147). -/

namespace Sys2Proof.Machine

/-! ### Parameter limits in numbers (30_encoding.md R122, 41_rle.md R173, 43_pack.md R233 to R242) -/

/-- A field that may take a default that is large enough is too small only if it is given. -/
theorem orDefault_lt_iff {v d limit : Nat} (h : limit ≤ d) : orDefault v d < limit ↔ v ≠ 0 ∧ v < limit := by
  unfold orDefault
  split
  · next hv => simp [hv, Nat.not_lt.mpr h]
  · next hv => simp [hv]

theorem packedRow_le_packedPitch (n b : Nat) : packedRow n b ≤ packedPitch n b := by
  unfold packedRow packedPitch
  omega

theorem encParams_eq_none_iff {p0 : Word} :
    encParams p0 = none ↔
      128 < p0.toNat % 2 ^ 8 ∨ (p0.toNat / 2 ^ 8 % 2 ^ 8 ≠ 2 ∧ p0.toNat / 2 ^ 8 % 2 ^ 8 ≠ 3) := by
  simp only [encParams, ← not_or, Nat.reducePow]
  split_ifs with h1 h2
  · simp [h1]
  · simp [h1, h2]
  · simp [h1, h2]

theorem encParams_of_ok {p0 : Word} (h1 : p0.toNat % 2 ^ 8 ≤ 128)
    (h2 : p0.toNat / 2 ^ 8 % 2 ^ 8 = 2 ∨ p0.toNat / 2 ^ 8 % 2 ^ 8 = 3) :
    encParams p0 = some (if p0.toNat % 2 ^ 8 = 0 then 128 else p0.toNat % 2 ^ 8, p0.toNat / 2 ^ 8 % 2 ^ 8) := by
  simp only [Nat.reducePow] at h1 h2 ⊢
  simp only [encParams, Nat.not_lt.mpr h1, if_false, h2, if_true]
  rfl

theorem convTypeOK_eq_false_iff {wi wo : Nat} {p0 : Word} :
    convTypeOK wi wo p0 = false ↔ convN p0 = 0 ∨ 32 < convN p0 ∨ convM p0 = 0 ∨ 32 < convM p0 ∨
      8 * wi < convS p0 + convN p0 ∨ 8 * wo < convM p0 := by
  simp only [convTypeOK, Bool.and_eq_false_iff, decide_eq_false_iff_not]
  omega

theorem mapOK_iff {p0 : Word} {c : Nat} : mapOK p0 c = true ↔ ∀ k < c, mapEntry p0 k < c := by
  simp [mapOK]

/-- W0 of a sub-byte descriptor of width 8, as a number (30_encoding.md R110, R117, R120). -/
theorem subWord_toNat (irq lsbf : Bool) :
    (subWord .unpacksub irq 3#2 lsbf).toNat = 0x25 + (2 ^ 8 * irq.toNat + 2 ^ 16 * (3 + 4 * lsbf.toNat)) ∧
      (subWord .packsub irq 3#2 lsbf).toNat = 0x26 + (2 ^ 8 * irq.toNat + 2 ^ 16 * (3 + 4 * lsbf.toNat)) := by
  revert irq lsbf
  decide

/-! ### Parameter errors raise first (60_exceptions.md R273) -/

/-- A bad parameter raises in every state, whatever the ranges are. -/
theorem exec_of_paramError {i : Instr} {code : ErrCode} {info : Nat} (s : State)
    (h : paramError i = some (code, info)) : exec i s = .next (s.raise code info) := by
  cases i with
  | brf irq rsel cond a target imm =>
    simp only [paramError] at h
    split_ifs at h with hbad
    cases h
    simp [exec, execBrf, hbad, State.fail_eq]
  | rleEnc irq fb src n dst cap p0 =>
    simp only [paramError] at h
    split_ifs at h with hbad
    cases h
    simp [exec, execRleEnc, hbad, State.fail_eq]
  | rleEncp irq b sbe plsb fb src n dst cap p0 =>
    simp only [paramError] at h
    split_ifs at h with hbad
    cases h
    simp [exec, execRleEncp, hbad, State.fail_eq]
  | bitconv irq wi wo sbe dbe rep inv src n dst p0 p1 =>
    simp only [paramError] at h
    split_ifs at h with htype hstride
    · cases h
      rw [exec, execBitconv, if_pos htype, State.fail_eq]
    · cases h
      rw [exec, execBitconv, if_neg htype, if_pos hstride, State.fail_eq]
  | reorder irq w c src n dst p0 =>
    simp only [paramError] at h
    split_ifs at h with hbad
    cases h
    rw [exec, execReorder, if_pos hbad, State.fail_eq]
  | deinterleave irq w c src n dst pp =>
    simp only [paramError] at h
    split_ifs at h with hbad
    cases h
    simp only [exec, execDeinterleave, hbad, if_true, State.fail_eq]
  | interleave irq w c src n dst pp =>
    simp only [paramError] at h
    split_ifs at h with hbad
    cases h
    simp only [exec, execInterleave, hbad, if_true, State.fail_eq]
  | rowflip irq base rows len pitch =>
    simp only [paramError] at h
    split_ifs at h with hbad
    cases h
    simp only [exec, execRowflip, hbad, if_true, State.fail_eq]
  | unpacksub irq bc lsbf src n dst rows ps pd =>
    simp only [paramError] at h
    split_ifs at h with hbc hps hpd
    · cases h
      simp only [exec, execUnpacksub, hbc, if_true, State.fail_eq]
    · cases h
      simp only [exec, execUnpacksub, hbc, hps, if_true, if_false, State.fail_eq]
    · cases h
      simp only [exec, execUnpacksub, hbc, hps, hpd, if_true, if_false, State.fail_eq]
  | packsub irq bc lsbf src n dst rows ps pd =>
    simp only [paramError] at h
    split_ifs at h with hbc hps hpd
    · cases h
      simp only [exec, execPacksub, hbc, if_true, State.fail_eq]
    · cases h
      simp only [exec, execPacksub, hbc, hps, if_true, if_false, State.fail_eq]
    · cases h
      simp only [exec, execPacksub, hbc, hps, hpd, if_true, if_false, State.fail_eq]
  | _ => cases h

theorem paramError_code {i : Instr} {code : ErrCode} {info : Nat} (h : paramError i = some (code, info)) :
    code = .eParam ∨ code = .eType := by
  cases i <;> simp only [paramError, reduceCtorEq] at h
  all_goals
    split_ifs at h <;> cases h <;> simp

/-- Settles O44: each descriptor's check, its limits in numbers. -/
theorem badParametersRaiseFirst : Obligations.BadParametersRaiseFirst := by
  unfold Obligations.BadParametersRaiseFirst
  refine ⟨fun i s code info h => ⟨exec_of_paramError s h, paramError_code h⟩, ?brf, ?rle, ?bitconv, ?reorder, ?planes,
    ?rowflip, ?subByte, ?none⟩
  case brf =>
    intro irq rsel cond a target imm
    simp only [paramError, Bool.and_eq_true, decide_eq_true_eq]
  case rle =>
    intro irq fb b sbe plsb src n dst cap p0 maxrun rmin
    refine ⟨fun h => ?_, fun h1 h2 => ?_⟩
    · have hnone : encParams p0 = none := encParams_eq_none_iff.mpr h
      exact ⟨if_pos hnone, if_pos hnone⟩
    · have hsome := encParams_of_ok h1 h2
      have hne : encParams p0 ≠ none := by simp [hsome]
      exact ⟨hsome, if_neg hne, if_neg hne⟩
  case bitconv =>
    intro irq wi wo sbe dbe rep inv src n dst p0 p1 depth depth' shift si so
    simp only [paramError, Bool.not_eq_true', convTypeOK_eq_false_iff, Bool.or_eq_true, decide_eq_true_eq, convSi,
      convSo, orDefault_lt_iff (Nat.le_refl _)]
    rfl
  case reorder =>
    intro irq w c src n dst p0
    refine ⟨fun ⟨k, hk, hbad⟩ => if_pos ?_, fun h => if_neg ?_⟩
    · rw [Bool.not_eq_true', Bool.eq_false_iff, ne_eq, mapOK_iff]
      exact fun hall => absurd (hall k hk) (Nat.not_lt.mpr hbad)
    · rw [Bool.not_eq_true', Bool.not_eq_false, mapOK_iff]
      exact h
  case planes =>
    intro irq w c src n dst pp e
    simp only [paramError, orDefault_lt_iff (Nat.le_refl _)]
    exact ⟨rfl, rfl⟩
  case rowflip =>
    intro irq base rows len pitch
    simp only [paramError, orDefault_lt_iff (Nat.le_refl _)]
  case subByte =>
    intro irq bc lsbf src n dst rows ps pd rowBytes flags
    obtain ⟨hunpack, hpack⟩ := subWord_toNat irq lsbf
    simp only [paramError, orDefault_lt_iff (packedRow_le_packedPitch _ _), orDefault_lt_iff (Nat.le_refl _)]
    by_cases hbc : bc = 3#2
    · subst hbc
      exact ⟨by rw [if_pos rfl, if_pos rfl, hunpack], by rw [if_pos rfl, if_pos rfl, hpack]⟩
    · simp only [if_neg hbc]
      exact ⟨rfl, rfl⟩
  case none =>
    intro irq a x1 x2 x3 x4 value b g y z i hi
    simp only [List.mem_cons, List.not_mem_nil, or_false] at hi
    rcases hi with rfl | rfl | rfl | rfl | rfl | rfl | rfl | rfl | rfl | rfl | rfl <;> rfl

/-! ### The hulls in numbers (20_memory.md R83, 43_pack.md R237 to R242) -/

theorem hull_eq (a n s w : Nat) : hull a n s w = ⟨a, if n = 0 then 0 else (n - 1) * s + w⟩ := by
  unfold hull
  split <;> rfl

theorem planesSpan_eq (a n w c pp : Nat) :
    planesSpan a n w c pp = ⟨a, if n = 0 then 0 else (c - 1) * pp + n * w⟩ := by
  unfold planesSpan
  split <;> rfl

theorem rowsSpan_eq (a r pitch len : Nat) :
    rowsSpan a r pitch len = ⟨a, if r = 0 then 0 else (r - 1) * pitch + len⟩ := by
  unfold rowsSpan
  split <;> rfl

/-! ### Ranges in their order (60_exceptions.md R273) -/

/-- A descriptor with good parameters makes the common checks of its two ranges. -/
theorem exec_eq_checked {i : Instr} {src dst : Span} (s : State) (hp : paramError i = none)
    (hr : checkedRanges i = some (src, dst)) (hrun : runsInPlace i = false) :
    ∃ k, exec i s = s.checked src dst k := by
  cases i with
  | copy irq src len dst =>
    cases hr
    exact ⟨_, by rw [exec, execCopy]⟩
  | rleDec irq src slen dst len =>
    cases hr
    exact ⟨_, by rw [exec, execRleDec]⟩
  | rleDecp irq b dbe plsb src slen dst n =>
    cases hr
    exact ⟨_, by rw [exec, execRleDecp]⟩
  | hdrStore irq hdr hlen tbl k =>
    cases hr
    exact ⟨_, by rw [exec, execHdrStore]⟩
  | rleEnc irq fb src n dst cap p0 =>
    cases hr
    rcases he : encParams p0 with _ | ⟨lmax, r⟩
    · simp [paramError, he] at hp
    · exact ⟨_, by simp only [exec, execRleEnc, he]; rfl⟩
  | rleEncp irq b sbe plsb fb src n dst cap p0 =>
    cases hr
    rcases he : encParams p0 with _ | ⟨lmax, r⟩
    · simp [paramError, he] at hp
    · exact ⟨_, by simp only [exec, execRleEncp, he]; rfl⟩
  | bitconv irq wi wo sbe dbe rep inv src n dst p0 p1 =>
    cases hr
    simp only [paramError] at hp
    split_ifs at hp with htype hstride
    exact ⟨_, by rw [exec, execBitconv, if_neg htype, if_neg hstride]⟩
  | reorder irq w c src n dst p0 =>
    cases hr
    have hmap : mapOK p0 c = true := by simpa [paramError] using hp
    have hne : (src != dst) = true := by simpa [runsInPlace] using hrun
    exact ⟨fun s => _, by simp only [exec, execReorder, hmap, hne, Bool.not_true, Bool.false_eq_true, if_false, Bool.true_and]; rfl⟩
  | deinterleave irq w c src n dst pp =>
    cases hr
    simp only [paramError] at hp
    split_ifs at hp with hpitch
    exact ⟨_, by simp only [exec, execDeinterleave, hpitch, if_false]; rfl⟩
  | interleave irq w c src n dst pp =>
    cases hr
    simp only [paramError] at hp
    split_ifs at hp with hpitch
    exact ⟨_, by simp only [exec, execInterleave, hpitch, if_false]; rfl⟩
  | unpacksub irq bc lsbf src n dst rows ps pd =>
    cases hr
    simp only [paramError] at hp
    split_ifs at hp with hbc hps hpd
    exact ⟨_, by simp only [exec, execUnpacksub, hbc, hps, hpd, if_false]; rfl⟩
  | packsub irq bc lsbf src n dst rows ps pd =>
    cases hr
    simp only [paramError] at hp
    split_ifs at hp with hbc hps hpd
    exact ⟨_, by simp only [exec, execPacksub, hbc, hps, hpd, if_false]; rfl⟩
  | _ => cases hr

theorem runsInPlace_iff {i : Instr} :
    runsInPlace i = true ↔ ∃ irq w c src n p0, i = .reorder irq w c src n src p0 := by
  constructor
  · intro h
    cases i with
    | reorder irq w c src n dst p0 =>
      obtain rfl : src = dst := by simpa [runsInPlace] using h
      exact ⟨irq, w, c, src, n, p0, rfl⟩
    | _ => cases h
  · rintro ⟨irq, w, c, src, n, p0, rfl⟩
    simp [runsInPlace]

/-- A source outside `M` raises first, in place or not. -/
theorem exec_of_badSource {i : Instr} {src dst : Span} (s : State) (hp : paramError i = none)
    (hr : checkedRanges i = some (src, dst)) (h : s.spanOK src = false) :
    exec i s = .next (s.raise .eRange src.start) := by
  rcases hrun : runsInPlace i with _ | _
  · obtain ⟨k, hk⟩ := exec_eq_checked s hp hr hrun
    rw [hk, State.checked_of_source h]
  · obtain ⟨irq, w, c, a, n, p0, rfl⟩ := runsInPlace_iff.mp hrun
    cases hr
    have hmap : mapOK p0 c = true := by simpa [paramError] using hp
    simp [exec, execReorder, hmap, h, State.fail_eq]

/-- In place the two ranges are the same, so one of them fails only with the other. -/
theorem exec_of_badDestination {i : Instr} {src dst : Span} (s : State) (hp : paramError i = none)
    (hr : checkedRanges i = some (src, dst)) (h1 : s.spanOK src = true) (h2 : s.spanOK dst = false) :
    exec i s = .next (s.raise .eRange dst.start) := by
  rcases hrun : runsInPlace i with _ | _
  · obtain ⟨k, hk⟩ := exec_eq_checked s hp hr hrun
    rw [hk, State.checked_of_destination h1 h2]
  · obtain ⟨irq, w, c, a, n, p0, rfl⟩ := runsInPlace_iff.mp hrun
    cases hr
    exact absurd (h1.symm.trans h2) (by decide)

/-- Settles O45. -/
theorem badRangesRaiseInOrder : Obligations.BadRangesRaiseInOrder := by
  unfold Obligations.BadRangesRaiseInOrder
  refine ⟨fun s x y => ⟨State.spanOK_iff, overlap_iff⟩, fun i s src dst hp hr => ⟨fun h => ?source, fun h1 h2 => ?dest,
    fun h1 h2 hrun h3 h4 h5 h6 => ?overlap⟩, fun i => runsInPlace_iff, ?moves, ?bitconv, ?channels, ?subByte⟩
  case source => exact exec_of_badSource s hp hr (State.spanOK_eq_false.mpr h)
  case dest => exact exec_of_badDestination s hp hr (State.spanOK_iff.mpr h1) (State.spanOK_eq_false.mpr h2)
  case overlap =>
    obtain ⟨k, hk⟩ := exec_eq_checked s hp hr hrun
    rw [hk, State.checked_of_overlap (State.spanOK_iff.mpr h1) (State.spanOK_iff.mpr h2)
      (overlap_iff.mpr ⟨h3, h4, h5, h6⟩)]
  case moves => exact fun irq fb b y z src slen dst len p0 => ⟨rfl, rfl, rfl, rfl, rfl, rfl⟩
  case bitconv =>
    intro irq wi wo sbe dbe rep inv src n dst p0 p1 si so
    simp only [checkedRanges, hull_eq]
    rfl
  case channels =>
    intro irq w c src n dst p pitch planes
    exact ⟨rfl, congrArg (fun dst => some (_, dst)) (planesSpan_eq ..),
      congrArg (fun src => some (src, _)) (planesSpan_eq ..)⟩
  case subByte =>
    intro irq bc lsbf src n dst rows ps pd b padded pitch span
    simp only [checkedRanges, rowsSpan_eq]
    exact ⟨rfl, rfl⟩

/-! ### Raw moves (40_control_move.md R146, R147) -/

theorem checksPass_of_ranges {i : Instr} {s : State} {src dst : Span} (hp : paramError i = none)
    (hr : checkedRanges i = some (src, dst)) (h1 : s.spanOK src = true) (h2 : s.spanOK dst = true)
    (h3 : overlap src dst = false) : checksPass i s = true := by
  simp [checksPass, hp, hr, h1, h2, h3]

/-- A data descriptor that stores one byte sequence inside `M` and completes. -/
theorem store_bytes_finish {s : State} {a : Nat} {bs : List Byte} (irq : Bool) (r0 r1 r2 r3 : Nat)
    (hwf : s.mem.wf = true) (h : s.spanOK ⟨a, bs.length⟩ = true) :
    ∃ t, (s.store (cellsAt a bs)).finish irq r0 r1 r2 r3 = .next t ∧ completed s t irq r0 r1 r2 r3 ∧
      t.mem.readBytes a bs.length = bs ∧ sameOutside s.mem t.mem ⟨a, bs.length⟩ := by
  obtain ⟨t, ht, hc, hm⟩ := State.store_finish s (cellsAt a bs) irq r0 r1 r2 r3
  rw [State.spanOK_iff] at h
  exact ⟨t, ht, hc, hm ▸ readBytes_writeCells_cellsAt hwf h, hm ▸ sameOutside_cellsAt s.mem a bs⟩

/-- COPY completes, with the source's bytes in its destination and nothing else changed. -/
theorem exec_copy_completes {s : State} (irq : Bool) {src len dst : Word} (hwf : s.mem.wf = true)
    (h1 : s.spanOK ⟨src.toNat, len.toNat⟩ = true) (h2 : s.spanOK ⟨dst.toNat, len.toNat⟩ = true)
    (h3 : overlap ⟨src.toNat, len.toNat⟩ ⟨dst.toNat, len.toNat⟩ = false) :
    ∃ t, exec (.copy irq src len dst) s = .next t ∧ completed s t irq len.toNat 0 0 0 ∧
      t.mem.readBytes dst.toNat len.toNat = s.mem.readBytes src.toNat len.toNat ∧
      sameOutside s.mem t.mem ⟨dst.toNat, len.toNat⟩ := by
  rw [exec_copy_of_pass (checksPass_of_ranges rfl rfl h1 h2 h3)]
  have h := store_bytes_finish (a := dst.toNat) (bs := s.mem.readBytes src.toNat len.toNat) irq len.toNat 0 0 0 hwf
  rw [Memory.readBytes_length] at h
  exact h h2

/-- Settles O13. -/
theorem copyMovesBytes : Obligations.CopyMovesBytes := by
  unfold Obligations.CopyMovesBytes
  exact fun s irq src len dst => exec_copy_completes irq

/-- Settles O14. -/
theorem fillStoresOneValue : Obligations.FillStoresOneValue := by
  unfold Obligations.FillStoresOneValue
  intro s irq dst len value hwf
  refine ⟨fun h => ?_, fun h => ?_⟩
  · have hok : s.mem.rangeOK dst.toNat len.toNat = true := h
    have hstore := store_bytes_finish (a := dst.toNat) (bs := List.replicate len.toNat value) irq len.toNat 0 0 0 hwf
    rw [List.length_replicate] at hstore
    obtain ⟨t, ht, hc, hread, hsame⟩ := hstore h
    refine ⟨t, by simpa [exec, execFill, hok] using ht, hc, fun k hk => ?_, hsame⟩
    have hget := Memory.readBytes_getElem? (m := t.mem) (a := dst.toNat) hk
    rw [hread, List.getElem?_replicate_of_lt hk] at hget
    exact (Option.some.inj hget).symm
  · have hbad : s.mem.rangeOK dst.toNat len.toNat = false := h
    simp [exec, execFill, hbad, State.fail_eq]

/-! ### A chain that writes itself (20_memory.md R93, R97, 70_reset_and_hazards.md R307) -/

theorem State.turnTaken_of_nil {s : State} (h : s.turns = []) : s.turnTaken = s := by
  rw [State.turnTaken, h, List.tail_nil, ← h]

/-- With no turns left the busy ENGINE executes what it fetches. -/
theorem step_of_fetched {s : State} {i : Instr} (ht : s.turns = []) (hb : s.status.busy = true)
    (ha : s.pc.toNat % 32 = 0) (hm : s.pc.toNat + 32 ≤ s.mem.size)
    (hd : decodeBytes (s.mem.readBytes s.pc.toNat 32) = .ok i) : step s = exec i s := by
  have he : s.engineNext = true := by simp [State.engineNext, ht]
  rw [step_of_fetchDecode_ok he hb (fetchDecode_of_decodeBytes ha hm hd), State.turnTaken_of_nil ht]

theorem decodeBytes_encodeBytes {i : Instr} (h : i.wf = true) : decodeBytes (encodeBytes i) = .ok i :=
  (decodeBytes_bytesOfDesc _).trans (decode_encode i h)

/-- Settles O8: COPY's destination reads as its source, which is the encoding of `i`, and the fetch reads it there. -/
theorem chainRunsDescriptorsAsWritten : Obligations.ChainRunsDescriptorsAsWritten := by
  unfold Obligations.ChainRunsDescriptorsAsWritten
  intro s irq src i hinv hturns hb ha hpc hsrc hi hbytes
  have hwf := (State.inv_iff.mp hinv).1
  obtain ⟨-, hmax, -⟩ := sizeLegal_iff.mp (Memory.sizeLegal_of_wf hwf)
  have hlen : (32#32 : Word).toNat = 32 := rfl
  refine ⟨fun hd hov => ?next, fun hd hov => ?self⟩
  case next =>
    have hnext : (s.pc + 32#32).toNat = s.pc.toNat + 32 := by
      rw [BitVec.toNat_add, hlen]
      omega
    obtain ⟨t, ht, hc, hread, hsize, -⟩ := exec_copy_completes (src := src) (len := 32#32) (dst := s.pc + 32#32) irq hwf
      (State.spanOK_iff.mpr hsrc) (State.spanOK_iff.mpr (by simp only [hnext, hlen]; omega))
      (by rw [hnext]; exact hov)
    have htpc : t.pc = s.pc + 32#32 := by rw [hc]
    refine ⟨t, by rw [step_of_fetched hturns hb ha (by omega) hd, ht], htpc, ?_⟩
    refine step_of_fetched (by rw [hc]; exact hturns) (by rw [hc]; exact hb) ?_ ?_ ?_
    · rw [htpc, hnext]; omega
    · rw [htpc, hnext, hsize]; omega
    · rw [htpc]
      exact hread.symm ▸ hbytes ▸ decodeBytes_encodeBytes hi
  case self =>
    obtain ⟨t, ht, hc, hread, -⟩ := exec_copy_completes (src := src) (len := 32#32) (dst := s.pc) irq hwf
      (State.spanOK_iff.mpr hsrc) (State.spanOK_iff.mpr (by simp only [hlen]; omega)) hov
    exact ⟨t, by rw [step_of_fetched hturns hb ha (by omega) hd, ht], hc,
      hread.symm ▸ hbytes ▸ decodeBytes_encodeBytes hi⟩

end Sys2Proof.Machine

/-! Fields as numbers in both byte orders, the header descriptors entry by entry, and the chunk walk's three ends
(42_header.md R200 to R209, 00_scope.md R11). -/

namespace Sys2Proof

/-! ### Digits in both byte orders (00_scope.md R11) -/

/-- The place of byte `k` among the digits of a number of `w` bytes. -/
def digitPlace (w : Nat) (be : Bool) (k : Nat) : Nat := if be then w - 1 - k else k

theorem uintOfBytes_digit {be : Bool} {bs : List Byte} {k : Nat} (h : k < bs.length) :
    uintOfBytes be bs / 256 ^ digitPlace bs.length be k % 256 = bs[k].toNat := by
  cases be
  · exact leNat_digit h
  · have hk : bs.length - 1 - k < bs.reverse.length := by simp; omega
    rw [uintOfBytes, if_pos rfl, digitPlace, if_pos rfl, leNat_digit hk, List.getElem_reverse]
    congr 2
    omega

theorem uintBytes_getElem? {w v k : Nat} (be : Bool) (h : k < w) :
    (uintBytes w be v)[k]? = some (BitVec.ofNat 8 (v / 256 ^ digitPlace w be k)) := by
  cases be
  · exact leBytes_getElem? h
  · have hk : k < (leBytes w v).length := by simpa using h
    rw [uintBytes, if_pos rfl, List.getElem?_reverse hk, leBytes_length, leBytes_getElem? (by omega)]
    rfl

/-- WriteUInt stores the number modulo `256^w` (00_scope.md R11). -/
theorem uintBytes_mod (w : Nat) (be : Bool) (v : Nat) : uintBytes w be (v % 256 ^ w) = uintBytes w be v := by
  have h := uintBytes_uintOfBytes be (uintBytes w be v)
  rwa [uintBytes_length, uintOfBytes_uintBytes] at h

end Sys2Proof

namespace Sys2Proof.Machine

theorem Memory.readUInt_digit (m : Memory) (a : Nat) {w k : Nat} (be : Bool) (h : k < w) :
    m.readUInt a w be / 256 ^ digitPlace w be k % 256 = (m.read (a + k)).toNat := by
  have hk : k < (m.readBytes a w).length := by simpa using h
  have hd := uintOfBytes_digit (be := be) hk
  rwa [Memory.readBytes_getElem, Memory.readBytes_length] at hd

/-! ### What a field is loaded as (42_header.md R203) -/

/-- The widths EntryOK admits (R201, R202). -/
theorem Entry.width_of_ok {e : Entry} (h : e.ok = true) :
    (e.width = 1 ∨ e.width = 2 ∨ e.width = 4) ∧ (e.zmap = true → e.width ≤ 2) ∧
      (e.signed = true → e.zmap = false) := by
  obtain ⟨-, hwc, -, hsz, hz4, -⟩ := e.ok_iff.mp h
  have hlt : e.wc < 4 := Nat.mod_lt _ (by decide)
  have hwidth : e.width = 2 ^ e.wc := rfl
  refine ⟨?_, fun hz => ?_, fun hs => ?_⟩
  · interval_cases e.wc <;> simp_all
  · have : e.wc ≠ 2 := fun h2 => hz4 ⟨hz, h2⟩
    interval_cases e.wc <;> simp_all
  · exact Bool.eq_false_iff.mpr fun hz => hsz ⟨hs, hz⟩

theorem Entry.value_zmap {e : Entry} (hz : e.zmap = true) (hw : e.width ≤ 2) :
    (e.value 0).toNat = 256 ^ e.width := by
  rw [Entry.value, hz, if_pos (by decide), BitVec.toNat_ofNat, pow_mul]
  interval_cases e.width <;> rfl

theorem Entry.value_plain {e : Entry} {raw : Nat} (hs : e.signed = false) (hz : e.zmap = false ∨ raw ≠ 0)
    (hraw : raw < 2 ^ 32) : (e.value raw).toNat = raw := by
  have hno : (e.zmap && raw == 0) = false := by
    rcases hz with hz | hz <;> simp [hz]
  rw [Entry.value, hno, hs, if_neg (by decide), if_neg (by decide), BitVec.toNat_ofNat, Nat.mod_eq_of_lt hraw]

theorem Entry.value_signed {e : Entry} {raw : Nat} (hs : e.signed = true) (hz : e.zmap = false)
    (hw : e.width = 1 ∨ e.width = 2 ∨ e.width = 4) (hraw : raw < 256 ^ e.width) :
    (e.value raw).toInt = if raw < 256 ^ e.width / 2 then (raw : Int) else (raw : Int) - (256 ^ e.width : Nat) := by
  have hpow : 2 ^ (8 * e.width) = 256 ^ e.width := pow_mul 2 8 e.width
  have hhalf : 2 * raw < 256 ^ e.width ↔ raw < 256 ^ e.width / 2 := by
    rcases hw with hw | hw | hw <;> rw [hw] <;> omega
  rw [Entry.value, hz, hs, Bool.false_and, if_neg (by decide), if_pos rfl,
    BitVec.toInt_signExtend_of_le (by omega), BitVec.toInt_eq_toNat_cond, BitVec.toNat_ofNat, hpow,
    Nat.mod_eq_of_lt hraw]
  simp only [hhalf]

/-- The loaded value's low bytes are the raw field, whichever way it was loaded. -/
theorem Entry.value_mod {e : Entry} {raw : Nat} (h : e.ok = true) (hraw : raw < 256 ^ e.width) :
    (e.value raw).toNat % 256 ^ e.width = raw := by
  obtain ⟨hw, hzw, hsz⟩ := e.width_of_ok h
  have hword : 256 ^ e.width ≤ 2 ^ 32 := by rcases hw with hw | hw | hw <;> rw [hw] <;> decide
  rcases hs : e.signed with _ | _
  · by_cases hz : e.zmap = true ∧ raw = 0
    · obtain ⟨hz, rfl⟩ := hz
      rw [Entry.value_zmap hz (hzw hz), Nat.mod_self]
    · have hz' : e.zmap = false ∨ raw ≠ 0 := by
        rcases hz0 : e.zmap with _ | _
        · exact .inl rfl
        · exact .inr fun h0 => hz ⟨hz0, h0⟩
      rw [Entry.value_plain hs hz' (lt_of_lt_of_le hraw hword), Nat.mod_eq_of_lt hraw]
  · have hv := Entry.value_signed hs (hsz hs) hw hraw
    have hlt := (e.value raw).isLt
    rw [BitVec.toInt_eq_toNat_cond] at hv
    rcases hw with hw | hw | hw <;> rw [hw] at hraw hv ⊢ <;> norm_num at hraw hv hlt ⊢ <;> split_ifs at hv <;> omega

/-- Storing the loaded value again writes the bytes it was loaded from. -/
theorem uintBytes_loadValue (m : Memory) (hdr : Nat) {e : Entry} (h : e.ok = true) :
    uintBytes e.width e.be (loadValue m hdr e).toNat = m.readBytes (hdr + e.off) e.width := by
  have hback := uintBytes_uintOfBytes e.be (m.readBytes (hdr + e.off) e.width)
  rw [Memory.readBytes_length] at hback
  rw [← uintBytes_mod, loadValue, Entry.value_mod h (m.readUInt_lt _ _ _)]
  exact hback

/-- Settles O36. -/
theorem loadedFieldKeepsItsBytes : Obligations.LoadedFieldKeepsItsBytes := by
  unfold Obligations.LoadedFieldKeepsItsBytes
  refine ⟨fun m a w v be => ⟨m.readUInt_lt a w be, uintBytes_length w be v, fun k hk => ?digits⟩, ?field⟩
  case digits => exact ⟨m.readUInt_digit a be hk, _, uintBytes_getElem? be hk, BitVec.toNat_ofNat ..⟩
  case field =>
    intro m hdr e hok raw v
    obtain ⟨hw, hzw, hsz⟩ := e.width_of_ok hok
    have hraw : raw < 256 ^ e.width := m.readUInt_lt _ _ _
    have hword : 256 ^ e.width ≤ 2 ^ 32 := by rcases hw with hw | hw | hw <;> rw [hw] <;> decide
    refine ⟨fun hz h0 => ?_, fun hs => Entry.value_signed hs (hsz hs) hw hraw,
      fun hs hz => Entry.value_plain hs hz (lt_of_lt_of_le hraw hword), uintBytes_loadValue m hdr hok⟩
    have hv : v = e.value 0 := congrArg e.value h0
    rw [hv, Entry.value_zmap hz (hzw hz)]

/-! ### HDR_LOAD (42_header.md R205) -/

/-- A header whose entries fit and pass loads every field. -/
theorem exec_hdrLoad_completes {s : State} (irq : Bool) {hdr hlen tbl k : Word}
    (h1 : s.spanOK ⟨tbl.toNat, 16 * k.toNat⟩ = true) (h2 : s.spanOK ⟨hdr.toNat, hlen.toNat⟩ = true)
    (hfit : ∀ j < k.toNat, entryFits s.mem tbl.toNat hlen.toNat j = true)
    (hpass : ∀ j < k.toNat, entryPasses s.mem hdr.toNat tbl.toNat s.f j = true) :
    exec (.hdrLoad irq hdr hlen tbl k) s = .next { s with
      f := fieldsAfter s.mem hdr.toNat tbl.toNat s.f k.toNat
      res := #v[k, 0#32, 0#32, 0#32]
      pc := s.pc + 32#32
      irqStatus := s.irqAfter irq } := by
  rw [exec_hdrLoad_of_ok h1 h2, firstBadEntry_none fun j hj => hfit j (List.mem_range.mp hj)]
  simp only [loadEntries_all hpass]
  have hk : BitVec.ofNat 32 k.toNat = k := by simp
  simp only [State.finish, State.complete_eq, State.setRes, hk]
  rfl

/-- Settles O37. -/
theorem hdrLoadAcceptsHeader : Obligations.HdrLoadAcceptsHeader := by
  unfold Obligations.HdrLoadAcceptsHeader
  intro s irq hdr hlen tbl k h1 h2 hfit hpass
  exact ⟨_, exec_hdrLoad_completes irq h1 h2 hfit hpass, rfl, fun a ha => fieldReg_fieldsAfter_ne k.toNat ha⟩

/-- Settles O38: the ranges, then pass 1, then pass 2, each by its first failure. -/
theorem hdrLoadRejectsHeader : Obligations.HdrLoadRejectsHeader := by
  unfold Obligations.HdrLoadRejectsHeader
  intro s irq hdr hlen tbl k
  refine ⟨fun h1 => ?table, fun h1 h2 => ?header, fun h1 h2 j hj => ⟨fun hbefore => ⟨fun hok => ?param,
    fun hok hbad => ?short⟩, fun hfit hbefore hbad => ?check⟩⟩
  case table =>
    rw [State.spanOK] at h1
    simp [exec, execHdrLoad, h1, State.fail_eq]
  case header =>
    rw [State.spanOK] at h1 h2
    simp [exec, execHdrLoad, h1, h2, State.fail_eq]
  case param =>
    rw [exec_hdrLoad_of_ok h1 h2, firstBadEntry_range hj hbefore (by simp [entryFits, hok])]
    simp [hok]
  case short =>
    rw [exec_hdrLoad_of_ok h1 h2, firstBadEntry_range hj hbefore hbad]
    simp [hok]
  case check =>
    rw [exec_hdrLoad_of_ok h1 h2, firstBadEntry_none fun j hj => hfit j (List.mem_range.mp hj)]
    simp only [loadEntries_stops hj hbefore hbad]
    rfl

/-! ### HDR_STORE (42_header.md R207) -/

/-- The cells one entry stores. -/
def fieldCells (m : Memory) (f : Vector Word 32) (hdr tbl j : Nat) : List Host.Cell :=
  cellsAt (hdr + (entryAt m tbl j).off)
    (uintBytes (entryAt m tbl j).width (entryAt m tbl j).be (fieldReg f (entryAt m tbl j).idx).toNat)

theorem headerCells_eq (m : Memory) (f : Vector Word 32) (hdr tbl k : Nat) :
    headerCells m f hdr tbl k = (List.range k).flatMap (fieldCells m f hdr tbl) := rfl

theorem fieldCells_key {m : Memory} {f : Vector Word 32} {hdr tbl j : Nat} {c : Host.Cell}
    (h : c ∈ fieldCells m f hdr tbl j) :
    hdr + (entryAt m tbl j).off ≤ c.1 ∧ c.1 < hdr + (entryAt m tbl j).off + (entryAt m tbl j).width := by
  simpa using cellsAt_key h

/-- A field's byte that no later entry covers is the register's byte. -/
theorem read_headerCells {m : Memory} {f : Vector Word 32} {hdr tbl k j x : Nat} (hwf : m.wf = true) (hj : j < k)
    (hx : x < (entryAt m tbl j).width)
    (hsize : hdr + (entryAt m tbl j).off + (entryAt m tbl j).width ≤ m.size)
    (hlater : ∀ j' < k, j < j' →
      (Span.mk (entryAt m tbl j').off (entryAt m tbl j').width).has ((entryAt m tbl j).off + x) = false) :
    some ((m.writeCells (headerCells m f hdr tbl k)).read (hdr + (entryAt m tbl j).off + x)) =
      (uintBytes (entryAt m tbl j).width (entryAt m tbl j).be (fieldReg f (entryAt m tbl j).idx).toNat)[x]? := by
  obtain ⟨v, hv⟩ : ∃ v, (uintBytes (entryAt m tbl j).width (entryAt m tbl j).be
      (fieldReg f (entryAt m tbl j).idx).toNat)[x]? = some v :=
    ⟨_, List.getElem?_eq_getElem (by simpa using hx)⟩
  rw [hv, headerCells_eq, range_split hj, List.flatMap_append, List.flatMap_cons, Memory.writeCells_append,
    Memory.writeCells_append, Memory.read_writeCells_of_notMem, fieldCells,
    Memory.read_writeCells_cellsAt (Memory.writeCells_wf hwf _) hv (by simpa using hsize)]
  intro c hc he
  obtain ⟨j', hj', hmem⟩ := List.mem_flatMap.mp hc
  obtain ⟨y, hy, rfl⟩ := List.mem_map.mp hj'
  rw [List.mem_range] at hy
  have hkey := fieldCells_key hmem
  have hno := Span.has_eq_false.mp (hlater (j + 1 + y) (by omega) (by omega))
  simp only at hno
  omega

/-- Settles O40: the cells entry by entry; the first entry that does not fit ends pass 1 with E_PARAM. -/
theorem hdrStoreSerializesFields : Obligations.HdrStoreSerializesFields := by
  unfold Obligations.HdrStoreSerializesFields
  intro s irq hdr hlen tbl k hwf hpass
  obtain ⟨-, -, hdst, -⟩ := checksPass_ranges hpass rfl rfl
  rw [exec_hdrStore_of_pass hpass]
  refine ⟨fun hfit => ?_, fun j hj hbefore hbad => ?_⟩
  · rw [firstBadEntry_none fun j hj => hfit j (List.mem_range.mp hj)]
    obtain ⟨t, ht, hc, hm⟩ :=
      State.store_finish s (headerCells s.mem s.f hdr.toNat tbl.toNat k.toNat) irq k.toNat 0 0 0
    refine ⟨t, ht, hc, fun j hj x hx => ?_, ?_⟩
    · intro e hlater
      have hin := (entryFits_iff.mp (hfit j hj)).2
      have hsize := State.spanOK_iff.mp hdst
      simp only at hsize
      rw [hm]
      exact read_headerCells hwf hj hx (by omega) hlater
    · rw [hm]
      refine sameExcept_writeCells fun c hcell => ?_
      obtain ⟨j, hj, hmem⟩ := List.mem_flatMap.mp (headerCells_eq .. ▸ hcell)
      exact ⟨j, List.mem_range.mp hj, fieldCells_key hmem⟩
  · rw [firstBadEntry_range hj hbefore hbad]
    simp

/-- Settles O41: each header byte lies in one field, whose register holds what was loaded from it. -/
theorem hdrStoreReproducesLoadedHeader : Obligations.HdrStoreReproducesLoadedHeader := by
  unfold Obligations.HdrStoreReproducesLoadedHeader
  intro s irq irq' hdr hlen tbl k out hwf htbl hhdr hout hov hfit hpasses hdistinct htile
  obtain ⟨t, ht, htm, htf⟩ : ∃ t, exec (.hdrLoad irq hdr hlen tbl k) s = .next t ∧ t.mem = s.mem ∧
      t.f = fieldsAfter s.mem hdr.toNat tbl.toNat s.f k.toNat :=
    ⟨_, exec_hdrLoad_completes irq htbl hhdr hfit hpasses, rfl, rfl⟩
  have hchecks : checksPass (.hdrStore irq' out hlen tbl k) t = true :=
    checksPass_of_ranges rfl rfl (by rw [State.spanOK, htm]; exact htbl) (by rw [State.spanOK, htm]; exact hout) hov
  obtain ⟨u, hu, -, hum⟩ := State.store_finish t (headerCells t.mem t.f out.toNat tbl.toNat k.toNat) irq' k.toNat 0 0 0
  refine ⟨t, u, ht, ?_, ?_⟩
  · rw [exec_hdrStore_of_pass hchecks, htm, firstBadEntry_none fun j hj => hfit j (List.mem_range.mp hj), ← htm]
    exact hu
  refine readBytes_congr fun x hx => ?_
  obtain ⟨j, hj, hin, honly⟩ := htile x hx
  obtain ⟨hlo, hhi⟩ := Span.has_iff.mp hin
  obtain ⟨hok, hend⟩ := entryFits_iff.mp (hfit j hj)
  have hsize := State.spanOK_iff.mp hout
  simp only at hlo hhi hsize
  obtain ⟨y, rfl⟩ : ∃ y, x = (entryAt s.mem tbl.toNat j).off + y := ⟨_, (Nat.add_sub_cancel' hlo).symm⟩
  have hy : y < (entryAt s.mem tbl.toNat j).width := by omega
  have hread := read_headerCells (f := t.f) (hdr := out.toNat) hwf hj hy (by omega) fun j' hj' hlt =>
    Bool.eq_false_iff.mpr fun hcover => absurd (honly j' hj' hcover) (by omega)
  have hreg : fieldReg t.f (entryAt s.mem tbl.toNat j).idx =
      loadValue s.mem hdr.toNat (entryAt s.mem tbl.toNat j) := by
    rw [htf]
    exact fieldReg_fieldsAfter_last k.toNat hj fun x hx hlt he => absurd (hdistinct x hx j hj he) (by omega)
  rw [htm] at hum
  rw [← hum, hreg, uintBytes_loadValue s.mem hdr.toNat hok, Memory.readBytes_getElem? hy] at hread
  simpa [Nat.add_assoc] using hread

/-! ### The chunk walk's ends (42_header.md R208, R209) -/

/-- Where a chunk header still fits, the walk has fuel left for it. -/
theorem chunk_fuel_pos {m : Memory} {al region rlen want i : Nat}
    (hskip : chunksSkipped m al region (region + rlen) want i)
    (h : 8 ≤ region + rlen - chunkAddr m al region (region + rlen) i) : ∃ fuel, rlen / 8 - i = fuel + 1 := by
  have hle := le_chunkAddr i hskip
  exact ⟨rlen / 8 - i - 1, by omega⟩

theorem chunkFind_found {m : Memory} {al region rlen want i c : Nat}
    (hskip : chunksSkipped m al region (region + rlen) want i)
    (hc : c = chunkAddr m al region (region + rlen) i) (hfit : chunkFits m (region + rlen) c)
    (hwant : want = 0 ∨ chunkTag m c = want) :
    chunkFind m al region rlen want =
      .found (c + 8) (chunkLen m c) (nextChunk c (chunkLen m c) al (region + rlen)) (chunkTag m c) := by
  obtain ⟨h8, hlen⟩ := hfit
  obtain ⟨fuel, hfuel⟩ := chunk_fuel_pos hskip (hc ▸ h8)
  rw [chunkFind_after_skips i hskip, hfuel, ← hc]
  simp only [chunkTag] at hwant
  simp only [chunkLen] at hlen
  simp only [chunkLoop, Nat.not_lt.mpr h8, Nat.not_lt.mpr hlen, hwant, if_true, if_false]
  rfl

theorem chunkFind_missing {m : Memory} {al region rlen want i : Nat}
    (hskip : chunksSkipped m al region (region + rlen) want i)
    (h : region + rlen - chunkAddr m al region (region + rlen) i < 8) :
    chunkFind m al region rlen want = .missing := by
  rw [chunkFind_after_skips i hskip]
  cases rlen / 8 - i with
  | zero => rfl
  | succ fuel => rw [chunkLoop, if_pos h]

theorem chunkFind_overrun {m : Memory} {al region rlen want i c : Nat}
    (hskip : chunksSkipped m al region (region + rlen) want i)
    (hc : c = chunkAddr m al region (region + rlen) i) (h8 : 8 ≤ region + rlen - c)
    (hlen : region + rlen - c - 8 < chunkLen m c) : chunkFind m al region rlen want = .overrun c := by
  obtain ⟨fuel, hfuel⟩ := chunk_fuel_pos hskip (hc ▸ h8)
  rw [chunkFind_after_skips i hskip, hfuel, ← hc]
  simp only [chunkLen] at hlen
  simp only [chunkLoop, Nat.not_lt.mpr h8, hlen, if_true, if_false]

theorem completed_resultReg {s t : State} {irq : Bool} {r0 r1 r2 r3 : Nat} (h : completed s t irq r0 r1 r2 r3) :
    resultReg t.res 0#2 = BitVec.ofNat 32 r0 ∧ resultReg t.res 1#2 = BitVec.ofNat 32 r1 ∧
      resultReg t.res 2#2 = BitVec.ofNat 32 r2 ∧ resultReg t.res 3#2 = BitVec.ofNat 32 r3 := by
  rw [h]
  exact ⟨rfl, rfl, rfl, rfl⟩

/-- Settles O42. -/
theorem chunkFindFindsFirst : Obligations.ChunkFindFindsFirst := by
  unfold Obligations.ChunkFindFindsFirst
  intro s irq g opt region rlen tag i hwf hspan stop c hskip hfit hwant
  obtain ⟨t, ht, hcomp, hm⟩ := State.finish_next s irq (c + 8) (chunkLen s.mem c)
    (nextChunk c (chunkLen s.mem c) (2 ^ g.toNat) stop) (chunkTag s.mem c)
  refine ⟨t, ?_, hm, hcomp, ?_⟩
  · rw [exec_chunkFind_of_ok hspan, chunkFind_found hskip rfl hfit hwant]
    exact ht
  obtain ⟨h8, hlen⟩ := hfit
  obtain ⟨-, hmax, -⟩ := sizeLegal_iff.mp (Memory.sizeLegal_of_wf hwf)
  have hstop : stop ≤ s.mem.size := State.spanOK_iff.mp hspan
  obtain ⟨hres0, hres1, -, -⟩ := completed_resultReg hcomp
  rw [hres0, hres1, BitVec.toNat_ofNat, BitVec.toNat_ofNat]
  omega

/-- Settles O43. -/
theorem chunkFindEndsWithoutMatch : Obligations.ChunkFindEndsWithoutMatch := by
  unfold Obligations.ChunkFindEndsWithoutMatch
  intro s irq g opt region rlen tag stop at_
  refine ⟨fun hspan => ?_, fun hspan i hskip => ⟨fun hend => ?_, fun h8 hlen => ?_⟩⟩
  · rw [State.spanOK] at hspan
    simp [exec, execChunkFind, hspan, State.fail_eq]
  · rw [exec_chunkFind_of_ok hspan, chunkFind_missing hskip hend]
    refine ⟨fun hopt => ?_, fun hopt => by simp [hopt]⟩
    obtain ⟨t, ht, hcomp, hm⟩ := State.finish_next s irq 0 0 stop 0
    exact ⟨t, by simpa [hopt] using ht, hm, hcomp⟩
  · rw [exec_chunkFind_of_ok hspan, chunkFind_overrun hskip rfl h8 hlen]

end Sys2Proof.Machine

/-! The RLE functions: what Dec accepts, that it inverts Enc, and Enc's greedy packets with their bounds (41_rle.md
R170 to R172, R180). -/

namespace Sys2Proof.Machine

/-! ### What Dec accepts (41_rle.md R171) -/

theorem dec_of_decodesTo {inp : List Byte} {l : Nat} {ps : List Packet} (h : decodesTo inp l ps) :
    dec inp l = .ok (expandAll ps) (packetBytes ps).length ps.length := by
  obtain ⟨hlegal, ⟨tail, rfl⟩, rfl⟩ := h
  exact dec_packets hlegal

theorem dec_of_breaksAfter {inp : List Byte} {l : Nat} {ps : List Packet} (h : breaksAfter inp l ps) :
    dec inp l = .fail (packetBytes ps).length := by
  obtain ⟨hlegal, ⟨rest, rfl⟩, hlt, hbreak⟩ := h
  have hcount := length_le_expandAll hlegal
  obtain ⟨fuel, hfuel⟩ : ∃ k, l - ps.length = k + 1 := ⟨l - ps.length - 1, by omega⟩
  obtain ⟨need, hneed⟩ : ∃ k, l - (expandAll ps).length = k + 1 := ⟨l - (expandAll ps).length - 1, by omega⟩
  rw [dec, decLoop_packets hlegal hlt.le (by omega), hfuel, hneed]
  cases rest with
  | nil => simp [decLoop]
  | cons c rest =>
    rw [List.getElem?_append_right (Nat.le_refl _), Nat.sub_self, List.getElem?_cons_zero] at hbreak
    simp only [List.length_append, List.length_cons] at hbreak
    rw [decLoop_succ, Nat.zero_add]
    by_cases hrun : need + 1 < c.toNat % 128 + 1
    · rw [if_pos hrun]
    · rw [if_neg hrun]
      have hc := c.isLt
      by_cases hrep : c.toNat / 128 = 1
      · have hempty : rest = [] := List.eq_nil_of_length_eq_zero (by omega)
        rw [if_pos hrep, hempty]
      · rw [if_neg hrep, if_pos (by rw [List.length_take]; omega)]

/-- A count byte whose packet lies in the input is a legal packet's. -/
theorem exists_head_packet {c : Byte} {rest : List Byte}
    (h : if 128 ≤ c.toNat then 1 ≤ rest.length else c.toNat % 128 + 1 ≤ rest.length) :
    ∃ p rest', c :: rest = Packet.bytes p ++ rest' ∧ p.legal = true ∧ p.run = c.toNat % 128 + 1 := by
  have hc := c.isLt
  have hmod : c.toNat % 128 < 128 := Nat.mod_lt _ (by decide)
  by_cases hrep : 128 ≤ c.toNat
  · rw [if_pos hrep] at h
    obtain ⟨b, rest', rfl⟩ := List.exists_cons_of_length_pos h
    refine ⟨.repeated (c.toNat % 128 + 1) b, rest', ?_, Packet.legal_iff.mpr ?_, rfl⟩
    · have hcount : BitVec.ofNat 8 (0x80 + (c.toNat % 128 + 1 - 1)) = c := by
        apply BitVec.eq_of_toNat_eq
        rw [BitVec.toNat_ofNat]
        omega
      rw [Packet.bytes, hcount]
      rfl
    · simp only [Packet.run]
      omega
  · rw [if_neg hrep] at h
    have hlen : (rest.take (c.toNat % 128 + 1)).length = c.toNat % 128 + 1 := by
      rw [List.length_take, Nat.min_eq_left h]
    refine ⟨.verbatim (rest.take (c.toNat % 128 + 1)), rest.drop (c.toNat % 128 + 1), ?_, Packet.legal_iff.mpr ?_, hlen⟩
    · have hcount : BitVec.ofNat 8 (c.toNat % 128 + 1 - 1) = c := by
        apply BitVec.eq_of_toNat_eq
        rw [BitVec.toNat_ofNat]
        omega
      rw [Packet.bytes, hlen, hcount, List.cons_append, List.take_append_drop]
    · simp only [Packet.run, hlen]
      omega

theorem decodesTo_cons {p : Packet} {rest : List Byte} {l : Nat} {ps : List Packet} (hp : p.legal = true)
    (hl : p.run ≤ l) (h : decodesTo rest (l - p.run) ps) : decodesTo (p.bytes ++ rest) l (p :: ps) := by
  obtain ⟨hlegal, hpre, hlen⟩ := h
  refine ⟨List.forall_mem_cons.mpr ⟨hp, hlegal⟩, ?_, ?_⟩
  · rw [packetBytes_cons]
    exact (List.prefix_append_right_inj _).mpr hpre
  · rw [expandAll_cons, List.length_append, Packet.expand_length, hlen]
    omega

theorem breaksAfter_cons {p : Packet} {rest : List Byte} {l : Nat} {ps : List Packet} (hp : p.legal = true)
    (hl : p.run ≤ l) (h : breaksAfter rest (l - p.run) ps) : breaksAfter (p.bytes ++ rest) l (p :: ps) := by
  obtain ⟨hlegal, hpre, hlt, hbreak⟩ := h
  have hget : (p.bytes ++ rest)[(packetBytes (p :: ps)).length]? = rest[(packetBytes ps).length]? := by
    rw [packetBytes_cons, List.length_append, List.getElem?_append_right (by omega), Nat.add_sub_cancel_left]
  refine ⟨List.forall_mem_cons.mpr ⟨hp, hlegal⟩, ?_, ?_, ?_⟩
  · rw [packetBytes_cons]
    exact (List.prefix_append_right_inj _).mpr hpre
  · rw [expandAll_cons, List.length_append, Packet.expand_length]
    omega
  · rw [hget]
    split
    · trivial
    · next c hc =>
      rw [hc] at hbreak
      simp only [packetBytes_cons, expandAll_cons, List.length_append, Packet.expand_length] at hbreak ⊢
      omega

/-- Every input either begins with packets that give `l` bytes, or breaks after some that give fewer. -/
theorem decodesTo_or_breaksAfter (inp : List Byte) (l : Nat) :
    (∃ ps, decodesTo inp l ps) ∨ ∃ ps, breaksAfter inp l ps := by
  induction l using Nat.strong_induction_on generalizing inp with
  | _ l ih =>
    rcases Nat.eq_zero_or_pos l with rfl | hpos
    · exact .inl ⟨[], by simp [decodesTo]⟩
    cases inp with
    | nil => exact .inr ⟨[], by simp [breaksAfter, hpos]⟩
    | cons c rest =>
      have hc := c.isLt
      by_cases hfits : c.toNat % 128 + 1 ≤ l ∧
          (if 128 ≤ c.toNat then 1 ≤ rest.length else c.toNat % 128 + 1 ≤ rest.length)
      · obtain ⟨hrun, hin⟩ := hfits
        obtain ⟨p, rest', he, hp, hpr⟩ := exists_head_packet hin
        rw [he]
        rw [← hpr] at hrun
        rcases ih (l - p.run) (by omega) rest' with ⟨ps, h⟩ | ⟨ps, h⟩
        · exact .inl ⟨p :: ps, decodesTo_cons hp hrun h⟩
        · exact .inr ⟨p :: ps, breaksAfter_cons hp hrun h⟩
      · refine .inr ⟨[], by simp, List.nil_prefix, hpos, ?_⟩
        simp only [packetBytes_nil, expandAll_nil, List.length_nil, List.getElem?_cons_zero, List.length_cons]
        split_ifs at hfits <;> omega

/-- Settles O15: packets' bytes by their count bytes; Dec answers on either kind of input, and every input is of one. -/
theorem decAcceptsPacketStreams : Obligations.DecAcceptsPacketStreams := by
  unfold Obligations.DecAcceptsPacketStreams
  refine ⟨⟨rfl, fun ps => ⟨fun bs h1 h2 => ?verbatim, fun n b h1 h2 => ?repeated⟩⟩, fun inp l =>
    ⟨fun out p np => ⟨fun h => ?accepts, ?ofAccepts⟩, fun q => ⟨fun h => ?fails, ?ofFails⟩⟩⟩
  case verbatim =>
    refine ⟨BitVec.ofNat 8 (bs.length - 1), ?_, rfl⟩
    rw [BitVec.toNat_ofNat]
    omega
  case repeated =>
    refine ⟨BitVec.ofNat 8 (0x80 + (n - 1)), ?_, rfl⟩
    rw [BitVec.toNat_ofNat]
    omega
  case accepts =>
    rcases decodesTo_or_breaksAfter inp l with ⟨ps, hps⟩ | ⟨ps, hps⟩
    · cases h.symm.trans (dec_of_decodesTo hps)
      exact ⟨ps, hps, rfl, rfl, rfl⟩
    · cases h.symm.trans (dec_of_breaksAfter hps)
  case ofAccepts =>
    rintro ⟨ps, hps, rfl, rfl, rfl⟩
    exact dec_of_decodesTo hps
  case fails =>
    rcases decodesTo_or_breaksAfter inp l with ⟨ps, hps⟩ | ⟨ps, hps⟩
    · cases h.symm.trans (dec_of_decodesTo hps)
    · cases h.symm.trans (dec_of_breaksAfter hps)
      exact ⟨ps, hps, rfl⟩
  case ofFails =>
    rintro ⟨ps, hps, rfl⟩
    exact dec_of_breaksAfter hps

/-! ### The encoder's turns as an induction (41_rle.md R172) -/

/-- Whatever holds at the end of the source, and is kept by a turn that finds a run, by one that fills a packet and by
one that adds a literal, holds of everything the encoder makes. -/
theorem encLoop_induction {lmax r : Nat} {P : List Byte → List Byte → List Packet → Prop}
    (nil : ∀ lit, P [] lit (flushLit lit))
    (run : ∀ b rest lit, r ≤ leading b (lmax - 1) rest + 1 →
      P (rest.drop (leading b (lmax - 1) rest)) [] (enc (rest.drop (leading b (lmax - 1) rest)) lmax r) →
      P (b :: rest) lit (flushLit lit ++ .repeated (leading b (lmax - 1) rest + 1) b ::
        enc (rest.drop (leading b (lmax - 1) rest)) lmax r))
    (full : ∀ b rest lit, ¬ r ≤ leading b (lmax - 1) rest + 1 → (lit ++ [b]).length = lmax →
      P rest [] (enc rest lmax r) → P (b :: rest) lit (.verbatim (lit ++ [b]) :: enc rest lmax r))
    (literal : ∀ b rest lit, ¬ r ≤ leading b (lmax - 1) rest + 1 → (lit ++ [b]).length ≠ lmax →
      P rest (lit ++ [b]) (encLoop lmax r rest.length rest (lit ++ [b])) →
      P (b :: rest) lit (encLoop lmax r rest.length rest (lit ++ [b])))
    (xs lit : List Byte) : P xs lit (encLoop lmax r xs.length xs lit) := by
  induction hn : xs.length using Nat.strong_induction_on generalizing xs lit with
  | _ n ih =>
    subst hn
    cases xs with
    | nil => exact nil lit
    | cons b rest =>
      rw [List.length_cons]
      by_cases hrun : r ≤ leading b (lmax - 1) rest + 1
      · rw [encLoop_run hrun]
        exact run b rest lit hrun (ih _ (by simp) _ _ rfl)
      · by_cases hlen : (lit ++ [b]).length = lmax
        · rw [encLoop_full hrun hlen]
          exact full b rest lit hrun hlen (ih _ (by simp) _ _ rfl)
        · rw [encLoop_literal hrun hlen]
          exact literal b rest lit hrun hlen (ih _ (by simp) _ _ rfl)

@[simp] theorem expandAll_flushLit (lit : List Byte) : expandAll (flushLit lit) = lit := by
  unfold flushLit
  split
  · next h => simp [h]
  · simp [Packet.expand]

theorem mem_flushLit {p : Packet} {lit : List Byte} : p ∈ flushLit lit ↔ lit ≠ [] ∧ p = .verbatim lit := by
  unfold flushLit
  split
  · next h => simp [h]
  · next h => simp [h]

theorem packetBytes_flushLit_length (lit : List Byte) :
    (packetBytes (flushLit lit)).length = if lit.length = 0 then 0 else lit.length + 1 := by
  unfold flushLit
  split
  · next h => simp [h]
  · next h => simp [h]

/-- What the encoder makes describes the source. -/
theorem expandAll_enc (bs : List Byte) (lmax r : Nat) : expandAll (enc bs lmax r) = bs := by
  refine encLoop_induction (P := fun xs lit ps => expandAll ps = lit ++ xs) ?_ ?_ ?_ ?_ bs []
  · intro lit
    simp
  · intro b rest lit _ ih
    rw [List.nil_append] at ih
    rw [expandAll_append, expandAll_cons, expandAll_flushLit, ih, Packet.expand, replicate_leading_append]
  · intro b rest lit _ _ ih
    simp [ih, Packet.expand]
  · intro b rest lit _ _ ih
    simp [ih]

/-- Every packet's length is in its bounds. -/
theorem enc_packet_bounds {lmax r : Nat} (h1 : 1 ≤ lmax) (bs : List Byte) {p : Packet} (hp : p ∈ enc bs lmax r) :
    1 ≤ p.run ∧ p.run ≤ lmax ∧ ∀ n b, p = .repeated n b → r ≤ n := by
  refine encLoop_induction (P := fun _ lit ps => lit.length < lmax → ∀ p ∈ ps,
    1 ≤ p.run ∧ p.run ≤ lmax ∧ ∀ n b, p = .repeated n b → r ≤ n) ?_ ?_ ?_ ?_ bs [] h1 p hp
  · intro lit hlit p hp
    obtain ⟨hne, rfl⟩ := mem_flushLit.mp hp
    exact ⟨List.length_pos_iff.mpr hne, hlit.le, nofun⟩
  · intro b rest lit hrun ih hlit p hp
    rcases List.mem_append.mp hp with hp | hp
    · obtain ⟨hne, rfl⟩ := mem_flushLit.mp hp
      exact ⟨List.length_pos_iff.mpr hne, hlit.le, nofun⟩
    rcases List.mem_cons.mp hp with rfl | hp
    · have hle := leading_le b (lmax - 1) rest
      refine ⟨Nat.succ_pos _, by simp only [Packet.run]; omega, fun n c he => ?_⟩
      cases he
      exact hrun
    · exact ih h1 p hp
  · intro b rest lit _ hlen ih hlit p hp
    rcases List.mem_cons.mp hp with rfl | hp
    · exact ⟨by simp [Packet.run], hlen.le, nofun⟩
    · exact ih h1 p hp
  · intro b rest lit _ hlen ih hlit p hp
    refine ih ?_ p hp
    rw [List.length_append, List.length_singleton] at hlen ⊢
    omega

theorem enc_legal {lmax r : Nat} (h1 : 1 ≤ lmax) (h2 : lmax ≤ 128) (bs : List Byte) :
    ∀ p ∈ enc bs lmax r, p.legal = true := fun p hp => by
  obtain ⟨hlo, hhi, -⟩ := enc_packet_bounds h1 bs hp
  exact Packet.legal_iff.mpr ⟨hlo, hhi.trans h2⟩

/-- Settles O16: what Enc makes are legal packets that describe the source. -/
theorem decInvertsEnc : Obligations.DecInvertsEnc := by
  unfold Obligations.DecInvertsEnc
  refine ⟨fun bs tail lmax r h1 h2 _ => ?_, fun _ _ => rfl, fun inp => decLoop_zero 0 inp 0 0 []⟩
  have h := dec_packets (tail := tail) (enc_legal (r := r) h1 h2 bs)
  rwa [expandAll_enc] at h

/-! ### Length bounds (41_rle.md R180) -/

/-- A source with no two equal neighbours has no run. -/
theorem leading_of_isChain {b : Byte} {rest : List Byte} (h : (b :: rest).IsChain (· ≠ ·)) (lim : Nat) :
    leading b lim rest = 0 := by
  cases lim with
  | zero => rfl
  | succ lim =>
    cases rest with
    | nil => rfl
    | cons x xs =>
      rw [List.isChain_cons_cons] at h
      rw [leading, if_neg fun e => h.1 e.symm]

theorem enc_of_isChain {lmax r : Nat} (hr : 2 ≤ r) {bs : List Byte} (h : bs.IsChain (· ≠ ·)) :
    ∀ p ∈ enc bs lmax r, ∃ lit, p = .verbatim lit := by
  refine encLoop_induction (P := fun xs _ ps => xs.IsChain (· ≠ ·) → ∀ p ∈ ps, ∃ lit, p = .verbatim lit)
    ?_ ?_ ?_ ?_ bs [] h
  · intro lit _ p hp
    exact ⟨lit, (mem_flushLit.mp hp).2⟩
  · intro b rest lit hrun _ hchain
    rw [leading_of_isChain hchain] at hrun
    omega
  · intro b rest lit _ _ ih hchain p hp
    rcases List.mem_cons.mp hp with rfl | hp
    · exact ⟨_, rfl⟩
    · exact ih hchain.tail p hp
  · intro b rest lit _ _ ih hchain
    exact ih hchain.tail

theorem packetBytes_enc_length_le (bs : List Byte) (lmax r : Nat) :
    (packetBytes (enc bs lmax r)).length ≤ 2 * bs.length := by
  have h := encLoop_induction (lmax := lmax) (r := r)
    (P := fun xs lit ps => (packetBytes ps).length ≤ 2 * (lit.length + xs.length)) ?_ ?_ ?_ ?_ bs []
  · simpa [enc] using h
  · intro lit
    rw [packetBytes_flushLit_length]
    split <;> omega
  · intro b rest lit _ ih
    have hle := leading_le_length b (lmax - 1) rest
    simp only [packetBytes_append, packetBytes_cons, List.length_append, packetBytes_flushLit_length,
      Packet.repeated_bytes_length, List.length_drop, List.length_cons, List.length_nil] at ih ⊢
    split <;> omega
  · intro b rest lit _ _ ih
    simp only [packetBytes_cons, List.length_append, Packet.verbatim_bytes_length, List.length_cons,
      List.length_nil] at ih ⊢
    omega
  · intro b rest lit _ _ ih
    simp only [List.length_append, List.length_cons, List.length_nil] at ih ⊢
    omega

/-- With R = 3 a repeat packet pays for the verbatim packet before it, so only full packets and the last one cost a
byte. -/
theorem packetBytes_enc_length_le_of_three {lmax : Nat} (h1 : 1 ≤ lmax) (bs : List Byte) :
    (packetBytes (enc bs lmax 3)).length ≤ bs.length + (bs.length + lmax - 1) / lmax := by
  have hmono {a b : Nat} (h : a ≤ b) : (a + lmax - 1) / lmax ≤ (b + lmax - 1) / lmax :=
    Nat.div_le_div_right (by omega)
  have h := encLoop_induction (lmax := lmax) (r := 3)
    (P := fun xs lit ps => (packetBytes ps).length ≤
      lit.length + xs.length + (lit.length + xs.length + lmax - 1) / lmax) ?_ ?_ ?_ ?_ bs []
  · simpa [enc] using h
  · intro lit
    simp only [packetBytes_flushLit_length, List.length_nil, Nat.add_zero]
    split
    · exact Nat.zero_le _
    · have hone : 1 ≤ (lit.length + lmax - 1) / lmax := Nat.div_pos (by omega) h1
      omega
  · intro b rest lit hrun ih
    have hle := leading_le_length b (lmax - 1) rest
    simp only [packetBytes_append, packetBytes_cons, List.length_append, packetBytes_flushLit_length,
      Packet.repeated_bytes_length, List.length_drop, List.length_cons, List.length_nil, Nat.zero_add] at ih ⊢
    have hceil := hmono (show rest.length - leading b (lmax - 1) rest ≤ lit.length + (rest.length + 1) by omega)
    split <;> omega
  · intro b rest lit _ hlen ih
    simp only [packetBytes_cons, List.length_append, Packet.verbatim_bytes_length, List.length_cons,
      List.length_nil, Nat.zero_add] at hlen ih ⊢
    have hceil : (lit.length + (rest.length + 1) + lmax - 1) / lmax = (rest.length + lmax - 1) / lmax + 1 := by
      rw [← Nat.add_div_right _ h1]
      congr 1
      omega
    omega
  · intro b rest lit _ _ ih
    have hcount : (lit ++ [b]).length + rest.length = lit.length + (b :: rest).length := by
      simp only [List.length_append, List.length_cons, List.length_nil]
      omega
    rwa [hcount] at ih

/-! ### The greedy choices (41_rle.md R172) -/

/-- The run found is at least `k` long exactly when the limit allows it and `k` equal bytes stand there. -/
theorem le_leading_iff {b : Byte} {k lim : Nat} {xs : List Byte} :
    k ≤ leading b lim xs ↔ k ≤ lim ∧ List.replicate k b <+: xs := by
  induction lim generalizing k xs with
  | zero =>
    cases k with
    | zero => simp
    | succ k => cases xs <;> simp [leading]
  | succ lim ih =>
    cases k with
    | zero => simp
    | succ k =>
      cases xs with
      | nil => simp [leading, List.replicate_succ]
      | cons x xs =>
        rw [leading, List.replicate_succ, List.cons_prefix_cons]
        split
        · next h => simp [h, ih]
        · next h => simp [Ne.symm h]

theorem run_at_iff {b : Byte} {r lmax : Nat} {rest : List Byte} (hr : 1 ≤ r) (h1 : 1 ≤ lmax) :
    r ≤ leading b (lmax - 1) rest + 1 ↔ r ≤ lmax ∧ List.replicate r b <+: b :: rest := by
  obtain ⟨k, rfl⟩ : ∃ k, r = k + 1 := ⟨r - 1, by omega⟩
  rw [Nat.add_le_add_iff_right, le_leading_iff, List.replicate_succ, List.cons_prefix_cons]
  constructor
  · rintro ⟨hk, hpre⟩
    exact ⟨by omega, rfl, hpre⟩
  · rintro ⟨hk, -, hpre⟩
    exact ⟨by omega, hpre⟩

/-- A run that is ended, or as long as the limit allows, is found whole. -/
theorem leading_replicate_append {b : Byte} {k lim : Nat} {bs : List Byte} (hk : k ≤ lim)
    (hend : k = lim ∨ bs.head? ≠ some b) : leading b lim (List.replicate k b ++ bs) = k := by
  refine Nat.le_antisymm ?_ (le_leading_iff.mpr ⟨hk, List.prefix_append _ _⟩)
  by_contra hgt
  obtain ⟨hle, hpre⟩ := le_leading_iff.mp (show k + 1 ≤ leading b lim (List.replicate k b ++ bs) by omega)
  rcases hend with rfl | hend
  · omega
  · rw [List.replicate_succ', List.prefix_append_right_inj] at hpre
    obtain ⟨tail, rfl⟩ := hpre
    exact hend rfl

theorem enc_run {lmax r k : Nat} (b : Byte) (bs : List Byte) (hr : 1 ≤ r) (hk : r ≤ k) (hmax : k ≤ lmax)
    (hend : k = lmax ∨ bs.head? ≠ some b) :
    enc (List.replicate k b ++ bs) lmax r = .repeated k b :: enc bs lmax r := by
  obtain ⟨k, rfl⟩ : ∃ j, k = j + 1 := ⟨k - 1, by omega⟩
  have hlead : leading b (lmax - 1) (List.replicate k b ++ bs) = k :=
    leading_replicate_append (by omega) (hend.imp_left fun h => by omega)
  rw [List.replicate_succ, List.cons_append, enc, List.length_cons, encLoop_run (by omega), hlead,
    List.drop_left' List.length_replicate]
  rfl

/-- Where a run begins, the pending literals become a packet of their own. -/
theorem encLoop_at_run {lmax r : Nat} {b : Byte} {bs : List Byte} (hr : 1 ≤ r) (hmax : r ≤ lmax)
    (h : List.replicate r b <+: bs) (lit : List Byte) :
    encLoop lmax r bs.length bs lit = flushLit lit ++ enc bs lmax r := by
  obtain ⟨rest, rfl⟩ : ∃ rest, bs = b :: rest := by
    obtain ⟨k, rfl⟩ : ∃ k, r = k + 1 := ⟨r - 1, by omega⟩
    obtain ⟨tail, rfl⟩ := h
    exact ⟨_, rfl⟩
  have hrun := (run_at_iff hr (hr.trans hmax)).mpr ⟨hmax, h⟩
  rw [enc, List.length_cons, encLoop_run hrun, encLoop_run hrun]
  rfl

/-- Literals at none of which a run begins join the pending ones, up to where their packet ends. -/
theorem encLoop_literals {lmax r : Nat} {bs : List Byte} (hr : 1 ≤ r) (xs lit : List Byte) (hne : xs ≠ [])
    (hlen : lit.length + xs.length ≤ lmax)
    (hno : ∀ i < xs.length, lmax < r ∨ ∀ b, ¬ List.replicate r b <+: (xs ++ bs).drop i)
    (hend : lit.length + xs.length = lmax ∨ bs = [] ∨ (r ≤ lmax ∧ ∃ b, List.replicate r b <+: bs)) :
    encLoop lmax r (xs ++ bs).length (xs ++ bs) lit = .verbatim (lit ++ xs) :: enc bs lmax r := by
  induction xs generalizing lit with
  | nil => exact absurd rfl hne
  | cons b rest ih =>
    rw [List.length_cons] at hlen hend
    have hrun : ¬ r ≤ leading b (lmax - 1) (rest ++ bs) + 1 := by
      rw [run_at_iff hr (by omega)]
      rintro ⟨hmax, hpre⟩
      rcases hno 0 (Nat.succ_pos _) with h | h
      · omega
      · exact h b hpre
    rw [List.cons_append, List.length_cons]
    cases rest with
    | nil =>
      rw [List.nil_append] at hrun ⊢
      by_cases hfull : (lit ++ [b]).length = lmax
      · rw [encLoop_full hrun hfull]
      · rw [encLoop_literal hrun hfull]
        have hflush : flushLit (lit ++ [b]) = [.verbatim (lit ++ [b])] := by simp [flushLit]
        rcases hend with hend | rfl | ⟨hmax, c, hpre⟩
        · exact absurd (by simpa using hend) hfull
        · exact hflush
        · rw [encLoop_at_run hr hmax hpre, hflush]
          rfl
    | cons c rest =>
      have hroom : (lit ++ [b]).length ≠ lmax := by
        simp only [List.length_append, List.length_cons, List.length_nil] at hlen ⊢
        omega
      rw [encLoop_literal hrun hroom, ih (lit ++ [b]) (List.cons_ne_nil _ _)]
      · rw [List.append_assoc, List.singleton_append]
      · simp only [List.length_append, List.length_cons, List.length_nil] at hlen ⊢
        omega
      · exact fun i hi => hno (i + 1) (by simpa using hi)
      · refine hend.imp_left fun h => ?_
        simp only [List.length_append, List.length_cons, List.length_nil] at h ⊢
        omega

/-- Settles O17. -/
theorem encPacketAndLengthBounds : Obligations.EncPacketAndLengthBounds := by
  unfold Obligations.EncPacketAndLengthBounds
  intro bs lmax r h1 h2 hr
  have hr2 : 2 ≤ r := by omega
  refine ⟨fun p hp => enc_packet_bounds h1 bs hp, enc_of_isChain hr2, packetBytes_enc_length_le bs lmax r, ?_,
    fun b k hk hmax hend => enc_run b bs (by omega) hk hmax hend, fun lit hpos hlen hno hend => ?_⟩
  · rintro rfl
    exact packetBytes_enc_length_le_of_three h1 bs
  · exact encLoop_literals (by omega) lit [] (List.length_pos_iff.mp hpos) (by simpa using hlen) hno
      (by simpa using hend)

end Sys2Proof.Machine

/-! The RLE descriptors: what they decode and store, where they break, and that decoding restores what was encoded
(41_rle.md R173 to R180). -/

namespace Sys2Proof.Machine

/-- An execution keeps the memory canonical, whatever it stores. -/
theorem exec_keeps_mem_wf {i : Instr} {s t : State} (hwf : s.mem.wf = true) (h : exec i s = .next t) :
    t.mem.wf = true := by
  rcases effect_of_exec h with ⟨-, ⟨irq, -, ht⟩ | ⟨ht, -⟩⟩ | ⟨-, cs, f, r0, r1, r2, r3, ht, -⟩ |
    ⟨cs, f, n, code, info, -, ht, -⟩
  · rw [ht]; exact hwf
  · rw [ht]; exact hwf
  · rw [ht]; exact Memory.writeCells_wf hwf cs
  · rw [ht]; exact Memory.writeCells_wf hwf cs

/-! ### RLE_DEC (41_rle.md R175) -/

theorem exec_rleDec_completes {s : State} {irq : Bool} {src slen dst len : Word} {ps : List Packet}
    (hwf : s.mem.wf = true) (hpass : checksPass (.rleDec irq src slen dst len) s = true)
    (hdec : decodesTo (s.mem.readBytes src.toNat slen.toNat) len.toNat ps) :
    ∃ t, exec (.rleDec irq src slen dst len) s = .next t ∧
      completed s t irq (packetBytes ps).length len.toNat ps.length 0 ∧
      t.mem.readBytes dst.toNat len.toNat = expandAll ps ∧
      sameOutside s.mem t.mem ⟨dst.toNat, len.toNat⟩ := by
  obtain ⟨-, -, hdst, -⟩ := checksPass_ranges hpass rfl rfl
  have hlen : (expandAll ps).length = len.toNat := hdec.2.2
  rw [exec_rleDec_of_pass hpass, dec_of_decodesTo hdec]
  rw [← hlen] at hdst ⊢
  exact store_bytes_finish irq _ _ _ _ hwf hdst

/-- Settles O18. -/
theorem rleDecDecodes : Obligations.RleDecDecodes := by
  unfold Obligations.RleDecDecodes
  exact fun s irq src slen dst len ps => exec_rleDec_completes

/-! ### Planes one after the other (41_rle.md R177, R178) -/

/-- The first plane's packets and the planes after it. -/
theorem planesDecode_cons {inp : List Byte} {n : Nat} {ps : List Packet} {pss : List (List Packet)}
    (h : planesDecode inp n (ps :: pss)) :
    decodesTo inp n ps ∧ planesDecode (inp.drop (packetBytes ps).length) n pss := by
  obtain ⟨hplanes, tail, rfl⟩ := h
  obtain ⟨⟨hlegal, hlen⟩, hrest⟩ := List.forall_mem_cons.mp hplanes
  rw [List.flatten_cons, packetBytes_append, List.append_assoc]
  refine ⟨⟨hlegal, List.prefix_append _ _, hlen⟩, hrest, ?_⟩
  rw [List.drop_left]
  exact List.prefix_append _ _

theorem decPlanes_of_planesDecode {n : Nat} {pss : List (List Packet)} {inp : List Byte} {p np : Nat}
    (h : planesDecode inp n pss) :
    decPlanes n pss.length inp p np =
      .ok (pss.map expandAll) (p + (packetBytes pss.flatten).length) (np + pss.flatten.length) := by
  induction pss generalizing inp p np with
  | nil => rfl
  | cons ps pss ih =>
    obtain ⟨hfirst, hrest⟩ := planesDecode_cons h
    rw [List.length_cons, decPlanes, dec_of_decodesTo hfirst]
    simp only [ih hrest, List.map_cons, List.flatten_cons, packetBytes_append, List.length_append, Nat.add_assoc]

/-- A plane that breaks ends the decoding at its offset after the planes before it. -/
theorem decPlanes_of_breaksAfter {n b : Nat} {pss : List (List Packet)} {ps : List Packet} {inp : List Byte}
    {p np : Nat} (hb : pss.length < b) (h : planesDecode inp n pss)
    (hbreak : breaksAfter (inp.drop (packetBytes pss.flatten).length) n ps) :
    decPlanes n b inp p np = .fail (p + ((packetBytes pss.flatten).length + (packetBytes ps).length)) := by
  induction pss generalizing b inp p np with
  | nil =>
    obtain ⟨b, rfl⟩ : ∃ k, b = k + 1 := ⟨b - 1, by simp at hb; omega⟩
    rw [decPlanes, dec_of_breaksAfter (by simpa using hbreak)]
    simp
  | cons qs pss ih =>
    obtain ⟨b, rfl⟩ : ∃ k, b = k + 1 := ⟨b - 1, by simp at hb; omega⟩
    obtain ⟨hfirst, hrest⟩ := planesDecode_cons h
    rw [List.flatten_cons, packetBytes_append, List.length_append] at hbreak ⊢
    rw [decPlanes, dec_of_decodesTo hfirst]
    simp only [ih (by simpa using hb) hrest (by simpa [List.drop_drop] using hbreak), Nat.add_assoc]

/-! ### Samples (41_rle.md R177) -/

/-- A sample and a place in it give one byte of the samples, and no other sample and place give that byte. -/
theorem sample_byte_lt {n b i x : Nat} (hi : i < n) (hx : x < b) : i * b + x < n * b :=
  calc i * b + x < i * b + b := Nat.add_lt_add_left hx _
    _ = (i + 1) * b := (Nat.succ_mul i b).symm
    _ ≤ n * b := Nat.mul_le_mul_right b hi

theorem sample_byte_injective {b i k x y : Nat} (hx : x < b) (hy : y < b) (h : i * b + x = k * b + y) :
    i = k ∧ x = y := by
  have hdiv := congrArg (· / b) h
  have hmod := congrArg (· % b) h
  simp only [Nat.mul_comm _ b, Nat.mul_add_div (Nat.zero_lt_of_lt hx), Nat.div_eq_of_lt hx, Nat.div_eq_of_lt hy,
    Nat.mul_add_mod, Nat.mod_eq_of_lt hx, Nat.mod_eq_of_lt hy, Nat.add_zero] at hdiv hmod
  exact ⟨hdiv, hmod⟩

theorem mem_sampleCells {dst n b a : Nat} {be plsb : Bool} {planes : List (List Byte)} {v : Byte} :
    (a, v) ∈ sampleCells dst n b be plsb planes ↔ ∃ i < n, ∃ j < b,
      a = dst + i * b + samplePos b be (planeSig b plsb j) ∧ v = (planes.getD j []).getD i 0#8 := by
  simp only [sampleCells, List.mem_flatMap, List.mem_range, List.mem_map, Prod.mk.injEq, eq_comm]

/-- Byte `pos(sig(j))` of sample `i` is byte `i` of plane `j`. -/
theorem read_sampleCells {m : Memory} {dst n b i j : Nat} {be plsb : Bool} {planes : List (List Byte)}
    (hwf : m.wf = true) (hsize : dst + n * b ≤ m.size) (hi : i < n) (hj : j < b) :
    (m.writeCells (sampleCells dst n b be plsb planes)).read (dst + i * b + samplePos b be (planeSig b plsb j)) =
      (planes.getD j []).getD i 0#8 := by
  have hpos := samplePos_planeSig_lt be plsb hj
  have hlt := sample_byte_lt hi hpos
  refine Memory.read_writeCells_of_mem hwf (by omega) (mem_sampleCells.mpr ⟨i, hi, j, hj, rfl, rfl⟩) fun w hw => ?_
  obtain ⟨i', -, j', hj', ha, rfl⟩ := mem_sampleCells.mp hw
  rw [Nat.add_assoc, Nat.add_assoc] at ha
  obtain ⟨rfl, hsame⟩ := sample_byte_injective hpos (samplePos_planeSig_lt be plsb hj') (Nat.add_left_cancel ha)
  rw [samplePos_planeSig_injective be plsb hj hj' hsame]

theorem sameOutside_sampleCells (m : Memory) (dst n b : Nat) (be plsb : Bool) (planes : List (List Byte)) :
    sameOutside m (m.writeCells (sampleCells dst n b be plsb planes)) ⟨dst, n * b⟩ :=
  sameOutside_writeCells fun c hc => by
    obtain ⟨i, hi, j, hj, ha, -⟩ := mem_sampleCells.mp (show (c.1, c.2) ∈ _ from hc)
    have hlt := sample_byte_lt hi (samplePos_planeSig_lt be plsb hj)
    rw [Span.has_iff]
    simp only
    omega

/-- RLE_DECP completes, each sample's bytes from the planes. -/
theorem exec_rleDecp_completes {s : State} {irq : Bool} {b : Nat} {dbe plsb : Bool} {src slen dst n : Word}
    {pss : List (List Packet)} (hwf : s.mem.wf = true)
    (hpass : checksPass (.rleDecp irq b dbe plsb src slen dst n) s = true) (hb : pss.length = b)
    (hdec : planesDecode (s.mem.readBytes src.toNat slen.toNat) n.toNat pss) :
    ∃ t, exec (.rleDecp irq b dbe plsb src slen dst n) s = .next t ∧
      completed s t irq (packetBytes pss.flatten).length (n.toNat * b) pss.flatten.length 0 ∧
      (∀ i < n.toNat, ∀ j < b, (pss.map expandAll)[j]?.bind (·[i]?) =
        some (t.mem.read (dst.toNat + i * b + samplePos b dbe (planeSig b plsb j)))) ∧
      sameOutside s.mem t.mem ⟨dst.toNat, n.toNat * b⟩ := by
  obtain ⟨-, -, hdst, -⟩ := checksPass_ranges hpass rfl rfl
  subst hb
  rw [exec_rleDecp_of_pass hpass, decPlanes_of_planesDecode hdec, Nat.zero_add, Nat.zero_add]
  obtain ⟨t, ht, hc, hm⟩ := State.store_finish s
    (sampleCells dst.toNat n.toNat pss.length dbe plsb (pss.map expandAll)) irq (packetBytes pss.flatten).length
    (n.toNat * pss.length) pss.flatten.length 0
  refine ⟨t, ht, hc, fun i hi j hj => ?_, hm ▸ sameOutside_sampleCells ..⟩
  have hlen : (expandAll pss[j]).length = n.toNat := (hdec.1 _ (List.getElem_mem hj)).2
  rw [hm, read_sampleCells hwf (State.spanOK_iff.mp hdst) hi hj]
  simp [hj, hlen, hi]

/-- Settles O19. -/
theorem rleDecpDecodes : Obligations.RleDecpDecodes := by
  unfold Obligations.RleDecpDecodes
  exact fun s irq b dbe plsb src slen dst n pss hwf _ => exec_rleDecp_completes hwf

/-! ### Streams that break (60_exceptions.md R275) -/

theorem sameOutside_clobber (s : State) (dst len : Nat) : sameOutside s.mem (s.clobber dst len).mem ⟨dst, len⟩ := by
  have h := sameOutside_cellsAt s.mem dst ((List.range len).map (Config.unspecByte s.freeCount))
  rwa [List.length_map, List.length_range] at h

/-- Settles O20: either decoder clobbers its destination range at most and then takes the error. -/
theorem brokenStreamsRaiseCorrupt : Obligations.BrokenStreamsRaiseCorrupt := by
  unfold Obligations.BrokenStreamsRaiseCorrupt
  refine ⟨fun s irq src slen dst len ps hpass hbreak => ?_,
    fun s irq b dbe plsb src slen dst n pss ps hpass hb hdec hbreak => ?_⟩
  · rw [exec_rleDec_of_pass hpass, dec_of_breaksAfter hbreak]
    exact ⟨_, rfl, rfl, rfl, sameOutside_clobber s _ _⟩
  · rw [exec_rleDecp_of_pass hpass, decPlanes_of_breaksAfter hb hdec hbreak, Nat.zero_add]
    exact ⟨_, rfl, rfl, rfl, sameOutside_clobber s _ _⟩

/-! ### The encoders' common end (41_rle.md R174, R176) -/

theorem storeFit_completes {s : State} {dst cap : Nat} {out : List Byte} (irq : Bool) (raw e packets : Nat)
    (hwf : s.mem.wf = true) (hdst : s.spanOK ⟨dst, cap⟩ = true) (h : out.length ≤ cap) :
    ∃ t, storeFit irq dst cap out raw e packets s = .next t ∧ completed s t irq out.length raw e packets ∧
      t.mem.readBytes dst out.length = out ∧ sameOutside s.mem t.mem ⟨dst, out.length⟩ := by
  rw [storeFit_of_le h]
  have hsize := State.spanOK_iff.mp hdst
  exact store_bytes_finish irq _ _ _ _ hwf (State.spanOK_iff.mpr (by simp only at hsize ⊢; omega))

/-- What is stored is the raw source or the packets; it is stored whole, or nothing is. -/
theorem storeEncoded_outcome {s : State} {dst cap : Nat} (irq fb : Bool) (source : List Byte) (ps : List Packet)
    (hwf : s.mem.wf = true) (hdst : s.spanOK ⟨dst, cap⟩ = true) :
    let raw := fb = true ∧ source.length ≤ (packetBytes ps).length
    let out := if raw then source else packetBytes ps
    (out.length ≤ cap → ∃ t, storeEncoded irq fb dst cap source ps s = .next t ∧
      completed s t irq out.length (if raw then 1 else 0) (packetBytes ps).length ps.length ∧
      t.mem.readBytes dst out.length = out ∧ sameOutside s.mem t.mem ⟨dst, out.length⟩) ∧
    (cap < out.length → storeEncoded irq fb dst cap source ps s = .next (s.raise .eCapacity out.length)) := by
  intro raw out
  rw [storeEncoded_eq]
  by_cases hraw : raw
  · simp only [out, if_pos hraw, raw] at hraw ⊢
    exact ⟨storeFit_completes irq _ _ _ hwf hdst, storeFit_of_lt⟩
  · simp only [out, if_neg hraw, raw] at hraw ⊢
    exact ⟨storeFit_completes irq _ _ _ hwf hdst, storeFit_of_lt⟩

/-- Settles O21. -/
theorem rleEncEncodes : Obligations.RleEncEncodes := by
  unfold Obligations.RleEncEncodes
  intro s irq fb src n dst cap p0 lmax r hwf hp hpass source e
  obtain ⟨-, -, hdst, -⟩ := checksPass_ranges hpass rfl rfl
  rw [exec_rleEnc_of_pass hp hpass]
  have h := storeEncoded_outcome irq fb source e hwf hdst
  rwa [show source.length = n.toNat from Memory.readBytes_length ..] at h

/-- Settles O22. -/
theorem rleEncpEncodesPlanes : Obligations.RleEncpEncodesPlanes := by
  unfold Obligations.RleEncpEncodesPlanes
  intro s irq b sbe plsb fb src n dst cap p0 lmax r hwf _ hp hpass source plane e
  obtain ⟨-, -, hdst, -⟩ := checksPass_ranges hpass rfl rfl
  rw [exec_rleEncp_of_pass hp hpass]
  have h := storeEncoded_outcome irq fb source e hwf hdst
  rwa [show source.length = n.toNat * b from Memory.readBytes_length ..] at h

/-! ### Round trips (41_rle.md R180) -/

/-- Shorter ranges overlap less. -/
theorem overlap_eq_false_of_le {a l l' : Nat} {y : Span} (h : overlap ⟨a, l⟩ y = false) (hl : l' ≤ l) :
    overlap ⟨a, l'⟩ y = false := by
  rw [Bool.eq_false_iff, ne_eq, overlap_iff] at h ⊢
  simp only at h ⊢
  omega

/-- The result registers hold what is written modulo 2^32 (10_state.md R45). -/
theorem completed_ofNat_toNat {s t : State} {irq : Bool} {r0 r1 r2 r3 : Nat} :
    completed s t irq r0 r1 (BitVec.ofNat 32 r2).toNat r3 ↔ completed s t irq r0 r1 r2 r3 := by
  simp only [completed, BitVec.ofNat_toNat, BitVec.setWidth_eq]

theorem toNat_ofNat_of_le_word {n : Nat} {w : Word} (h : n ≤ w.toNat) : (BitVec.ofNat 32 n).toNat = n :=
  Nat.mod_eq_of_lt (lt_of_le_of_lt h w.isLt)

/-- Without the fallback the packets are stored, and RES0 is their length. -/
theorem storeEncoded_packets {s : State} {irq : Bool} {dst cap : Nat} {source : List Byte} {ps : List Packet}
    (hwf : s.mem.wf = true) (hdst : s.spanOK ⟨dst, cap⟩ = true) (hcap : (packetBytes ps).length ≤ cap) :
    ∃ t, storeEncoded irq false dst cap source ps s = .next t ∧
      completed s t irq (packetBytes ps).length 0 (packetBytes ps).length ps.length ∧
      t.mem.readBytes dst (packetBytes ps).length = packetBytes ps ∧
      sameOutside s.mem t.mem ⟨dst, (packetBytes ps).length⟩ := by
  rw [storeEncoded_eq, if_neg (by simp)]
  exact storeFit_completes irq _ _ _ hwf hdst hcap

/-- Settles O23. -/
theorem rleDecRestoresWhatRleEncStored : Obligations.RleDecRestoresWhatRleEncStored := by
  unfold Obligations.RleDecRestoresWhatRleEncStored
  intro s irq irq' src n dst cap p0 out lmax r hinv hp hpass hcap hout hov
  have hwf := (State.inv_iff.mp hinv).1
  obtain ⟨hl1, hl2, -⟩ := encParams_some hp
  obtain ⟨-, -, hdst, -⟩ := checksPass_ranges hpass rfl rfl
  generalize hsrc : s.mem.readBytes src.toNat n.toNat = source at hcap ⊢
  have hsrclen : source.length = n.toNat := hsrc ▸ Memory.readBytes_length ..
  have hlegal := enc_legal (r := r) hl1 hl2 source
  obtain ⟨t, ht, hc, hread, hsize, -⟩ :=
    storeEncoded_packets (irq := irq) (source := source) (ps := enc source lmax r) hwf hdst hcap
  have hexec : exec (.rleEnc irq false src n dst cap p0) s = .next t := by
    rw [exec_rleEnc_of_pass hp hpass, hsrc, ht]
  obtain ⟨hres0, -, -, hres3⟩ := completed_resultReg hc
  have h0 : (resultReg t.res 0#2).toNat = (packetBytes (enc source lmax r)).length := by
    rw [hres0, toNat_ofNat_of_le_word hcap]
  have hsize1 := State.spanOK_iff.mp hdst
  have hsize2 := State.spanOK_iff.mp hout
  simp only at hsize1 hsize2
  have hpass' : checksPass (.rleDec irq' dst (resultReg t.res 0#2) out n) t = true := by
    refine checksPass_of_ranges rfl rfl (State.spanOK_iff.mpr ?_) (State.spanOK_iff.mpr ?_) ?_
    · simp only [h0, hsize]; omega
    · simp only [hsize]; omega
    · exact h0 ▸ overlap_eq_false_of_le hov hcap
  obtain ⟨u, hu, hcu, hback, -⟩ := exec_rleDec_completes (ps := enc source lmax r) (exec_keeps_mem_wf hwf hexec) hpass'
    ⟨hlegal, by rw [h0, hread], by rw [expandAll_enc, hsrclen]⟩
  exact ⟨t, u, hexec, hu, by rwa [h0, hres3, completed_ofNat_toNat], by rw [hback, expandAll_enc]⟩

/-- The planes of samples as packet sequences, plane 0 first. -/
def planePackets (m : Memory) (src n b : Nat) (be plsb : Bool) (lmax r : Nat) : List (List Packet) :=
  (List.range b).map fun j => enc (planeBytes m src n b be plsb j) lmax r

theorem encPlanes_eq_flatten (m : Memory) (src n b : Nat) (be plsb : Bool) (lmax r : Nat) :
    encPlanes m src n b be plsb lmax r = (planePackets m src n b be plsb lmax r).flatten := rfl

theorem planePackets_expand (m : Memory) (src n b : Nat) (be plsb : Bool) (lmax r : Nat) :
    (planePackets m src n b be plsb lmax r).map expandAll =
      (List.range b).map (planeBytes m src n b be plsb) := by
  simp [planePackets, expandAll_enc, Function.comp_def]

theorem planePackets_decode {m : Memory} {src n b : Nat} {be plsb : Bool} {lmax r : Nat} (h1 : 1 ≤ lmax)
    (h2 : lmax ≤ 128) :
    planesDecode (packetBytes (encPlanes m src n b be plsb lmax r)) n (planePackets m src n b be plsb lmax r) := by
  refine ⟨fun ps hps => ?_, by rw [encPlanes_eq_flatten]⟩
  obtain ⟨j, -, rfl⟩ := List.mem_map.mp hps
  exact ⟨enc_legal h1 h2 _, by rw [expandAll_enc]; simp [planeBytes]⟩

/-- Settles O24: each byte of a sample is the byte of the plane it was sliced to. -/
theorem rleDecpRestoresWhatRleEncpStored : Obligations.RleDecpRestoresWhatRleEncpStored := by
  unfold Obligations.RleDecpRestoresWhatRleEncpStored
  intro s irq irq' b be plsb src n dst cap p0 out lmax r hinv _ hp hpass hcap hout hov
  have hwf := (State.inv_iff.mp hinv).1
  obtain ⟨hl1, hl2, -⟩ := encParams_some hp
  obtain ⟨-, -, hdst, -⟩ := checksPass_ranges hpass rfl rfl
  have hplanes := planePackets_decode (m := s.mem) (src := src.toNat) (n := n.toNat) (b := b) (be := be) (plsb := plsb)
    (r := r) hl1 hl2
  obtain ⟨t, ht, hc, hread, hsize, -⟩ := storeEncoded_packets (irq := irq)
    (source := s.mem.readBytes src.toNat (n.toNat * b)) hwf hdst hcap
  have hexec : exec (.rleEncp irq b be plsb false src n dst cap p0) s = .next t := by
    rw [exec_rleEncp_of_pass hp hpass, ht]
  obtain ⟨hres0, -, -, hres3⟩ := completed_resultReg hc
  have h0 : (resultReg t.res 0#2).toNat =
      (packetBytes (encPlanes s.mem src.toNat n.toNat b be plsb lmax r)).length := by
    rw [hres0, toNat_ofNat_of_le_word hcap]
  have hsize1 := State.spanOK_iff.mp hdst
  have hsize2 := State.spanOK_iff.mp hout
  simp only at hsize1 hsize2
  have hpass' : checksPass (.rleDecp irq' b be plsb dst (resultReg t.res 0#2) out n) t = true := by
    refine checksPass_of_ranges rfl rfl (State.spanOK_iff.mpr ?_) (State.spanOK_iff.mpr ?_) ?_
    · simp only [h0, hsize]; omega
    · simp only [hsize]; omega
    · exact h0 ▸ overlap_eq_false_of_le hov hcap
  obtain ⟨u, hu, hcu, hback, -⟩ := exec_rleDecp_completes (pss := planePackets s.mem src.toNat n.toNat b be plsb lmax r)
    (exec_keeps_mem_wf hwf hexec) hpass' (by simp [planePackets]) (by rw [h0, hread]; exact hplanes)
  refine ⟨t, u, hexec, hu, ?_, readBytes_congr fun x hx => ?_⟩
  · rwa [h0, hres3, completed_ofNat_toNat]
  · have hb : 0 < b := Nat.pos_of_mul_pos_left (Nat.zero_lt_of_lt hx)
    have hi : x / b < n.toNat := Nat.div_lt_of_lt_mul (by rwa [Nat.mul_comm])
    obtain ⟨j, hj, hpos⟩ := samplePos_planeSig_surjective be plsb (Nat.mod_lt x hb)
    have h := hback (x / b) hi j hj
    rw [planePackets_expand, hpos, Nat.add_assoc, Nat.div_add_mod'] at h
    simpa [hj, planeBytes, hi, hpos, Nat.add_assoc, Nat.div_add_mod'] using h.symm

end Sys2Proof.Machine

/-! Bit-depth conversion: Round as the nearest level, Rep as repeated bits, and BITCONV container by container
(43_pack.md R231 to R234); before it, memories after stores of byte blocks that share no address. -/

namespace Sys2Proof.Machine

/-! ### Round (43_pack.md R231) -/

theorem two_pow_sub_one_pos {n : Nat} (h : 1 ≤ n) : 0 < 2 ^ n - 1 :=
  Nat.sub_pos_of_lt (Nat.one_lt_two_pow (by omega))

/-- Half a step is rounded away: `(2 k d + d) / 2 d` is `k`. -/
theorem half_step_div {d : Nat} (h : 0 < d) (k : Nat) : (2 * k * d + d) / (2 * d) = k := by
  rw [show 2 * k * d + d = d + 2 * d * k by ring, Nat.add_mul_div_left _ _ (by omega), Nat.div_eq_of_lt (by omega),
    Nat.zero_add]

theorem convRound_zero {n : Nat} (h : 1 ≤ n) (m : Nat) : convRound 0 n m = 0 := by
  have hd := two_pow_sub_one_pos h
  rw [convRound, Nat.mul_zero, Nat.zero_mul, Nat.zero_add]
  exact Nat.div_eq_of_lt (by omega)

theorem convRound_top {n : Nat} (h : 1 ≤ n) (m : Nat) : convRound (2 ^ n - 1) n m = 2 ^ m - 1 := by
  rw [convRound, mul_right_comm]
  exact half_step_div (two_pow_sub_one_pos h) _

theorem convRound_self {n : Nat} (h : 1 ≤ n) (v : Nat) : convRound v n n = v :=
  half_step_div (two_pow_sub_one_pos h) v

theorem convRound_mono {u v : Nat} (n m : Nat) (h : u ≤ v) : convRound u n m ≤ convRound v n m :=
  Nat.div_le_div_right (Nat.add_le_add_right (Nat.mul_le_mul_right _ (Nat.mul_le_mul_left 2 h)) _)

theorem convRound_lt {v n : Nat} (h : 1 ≤ n) (m : Nat) (hv : v < 2 ^ n) : convRound v n m < 2 ^ m := by
  have hle := convRound_mono n m (Nat.le_sub_one_of_lt hv)
  rw [convRound_top h] at hle
  have hpos : 0 < 2 ^ m := Nat.two_pow_pos m
  omega

/-- Settles O25. -/
theorem roundIsNearestLevel : Obligations.RoundIsNearestLevel := by
  unfold Obligations.RoundIsNearestLevel
  intro v n m hn _ _ _ hv
  have hd := two_pow_sub_one_pos hn
  have hcomm (r : Nat) : 2 * r * (2 ^ n - 1) = r * (2 * (2 ^ n - 1)) := by ring
  refine ⟨⟨?_, ?_⟩, convRound_zero hn m, convRound_top hn m, convRound_self hn v, fun u => convRound_mono n m,
    convRound_lt hn m hv, ?_⟩
  · rw [hcomm]
    exact Nat.div_mul_le_self _ _
  · rw [hcomm]
    exact Nat.lt_mul_of_div_lt (Nat.lt_succ_self _) (by omega)
  · rintro rfl rfl
    unfold convRound
    omega

/-! ### Rep (43_pack.md R232) -/

theorem testBit_of_ge {v n k : Nat} (hv : v < 2 ^ n) (hk : n ≤ k) : v.testBit k = false :=
  Nat.testBit_lt_two_pow (lt_of_lt_of_le hv (Nat.pow_le_pow_right (by decide) hk))

/-- Bit `k` of `v` repeated every `n` bits below `shift + n`. -/
def repBit (v n : Nat) (shift : Int) (k : Nat) : Bool :=
  decide ((k : Int) < shift + n) && v.testBit (((k : Int) - shift) % n).toNat

/-- The last turn, which drops the low bits of `v`. -/
theorem repBit_of_nonpos {v n : Nat} (hv : v < 2 ^ n) {shift : Int} (hs : shift ≤ 0) (k : Nat) :
    (v / 2 ^ (-shift).toNat).testBit k = repBit v n shift k := by
  rw [Nat.testBit_div_two_pow, repBit]
  by_cases hk : (k : Int) < shift + n
  · rw [decide_eq_true hk, Bool.true_and, Int.emod_eq_of_lt (by omega) (by omega)]
    congr 1
    omega
  · rw [decide_eq_false hk, Bool.false_and, testBit_of_ge hv (by omega)]

/-- One turn: a whole copy of `v` at `shift`, and the copies below it. -/
theorem repBit_of_pos {v n : Nat} (hv : v < 2 ^ n) {shift : Int} (hs : 0 < shift) (k : Nat) :
    ((v * 2 ^ shift.toNat).testBit k || repBit v n (shift - n) k) = repBit v n shift k := by
  have hmod : ((k : Int) - (shift - n)) % n = ((k : Int) - shift) % n := by
    rw [show (k : Int) - (shift - n) = (k : Int) - shift + n by ring, Int.add_emod_right]
  rw [Nat.testBit_mul_two_pow, repBit, repBit, hmod, Int.sub_add_cancel]
  by_cases hlow : (k : Int) < shift
  · rw [decide_eq_true hlow, decide_eq_false (show ¬ shift.toNat ≤ k by omega),
      decide_eq_true (show (k : Int) < shift + n by omega)]
    rfl
  · rw [decide_eq_false hlow, decide_eq_true (show shift.toNat ≤ k by omega), Bool.true_and, Bool.false_and,
      Bool.or_false]
    by_cases hk : (k : Int) < shift + n
    · rw [decide_eq_true hk, Bool.true_and, Int.emod_eq_of_lt (by omega) (by omega)]
      congr 1
      omega
    · rw [decide_eq_false hk, Bool.false_and, testBit_of_ge hv (by omega)]

theorem repLoop_testBit {v n : Nat} (hn : 1 ≤ n) (hv : v < 2 ^ n) (fuel : Nat) (shift : Int) (out k : Nat)
    (hfuel : shift ≤ fuel) : (repLoop v n fuel shift out).testBit k = (out.testBit k || repBit v n shift k) := by
  induction fuel generalizing shift out with
  | zero => rw [repLoop, Nat.testBit_or, repBit_of_nonpos hv (by omega)]
  | succ fuel ih =>
    rw [repLoop]
    split
    · next hs => rw [ih (shift - n) _ (by omega), Nat.testBit_or, Bool.or_assoc, repBit_of_pos hv hs]
    · next hs => rw [Nat.testBit_or, repBit_of_nonpos hv (by omega)]

/-- Counted from the top, `n` divides the bits of Rep into copies of `v`. -/
theorem convRep_testBit {v n m i : Nat} (hn : 1 ≤ n) (hv : v < 2 ^ n) (hi : i < m) :
    (convRep v n m).testBit (m - 1 - i) = v.testBit (n - 1 - i % n) := by
  have hbelow : ((m - 1 - i : Nat) : Int) < (m : Int) - n + n := by omega
  have hplace : ((m - 1 - i : Nat) : Int) - ((m : Int) - n) = ((n - 1 - i % n : Nat) : Int) + n * (-(i / n : Nat)) := by
    have hdiv := Nat.div_add_mod i n
    have hlt := Nat.mod_lt i hn
    zify at hdiv
    have h1 : ((m - 1 - i : Nat) : Int) = m - 1 - i := by omega
    have h2 : ((n - 1 - i % n : Nat) : Int) = n - 1 - (i % n : Nat) := by omega
    rw [h1, h2]
    push_cast
    linarith
  rw [convRep, Nat.testBit_mod_two_pow, repLoop_testBit hn hv m _ 0 _ (by omega), Nat.zero_testBit, Bool.false_or, repBit,
    decide_eq_true hbelow, decide_eq_true (show m - 1 - i < m by omega), Bool.true_and, Bool.true_and, hplace,
    Int.add_mul_emod_self_left, Int.emod_eq_of_lt (by omega) (by omega), Int.toNat_natCast]

theorem convRep_lt (v n m : Nat) : convRep v n m < 2 ^ m := Nat.mod_lt _ (Nat.two_pow_pos m)

/-- Rep is the number below `2^m` whose bits from the top are those of `v` repeated. -/
theorem convRep_eq_of_bits {v n m x : Nat} (hn : 1 ≤ n) (hv : v < 2 ^ n) (hx : x < 2 ^ m)
    (h : ∀ i < m, x.testBit (m - 1 - i) = v.testBit (n - 1 - i % n)) : convRep v n m = x := by
  refine Nat.eq_of_testBit_eq fun k => ?_
  by_cases hk : k < m
  · have hplace : k = m - 1 - (m - 1 - k) := by omega
    rw [hplace, convRep_testBit hn hv (by omega), h _ (by omega)]
  · rw [testBit_of_ge (convRep_lt v n m) (by omega), testBit_of_ge hx (by omega)]

/-- Settles O26: every property is an equation between bits. -/
theorem repReplicatesBits : Obligations.RepReplicatesBits := by
  unfold Obligations.RepReplicatesBits
  intro v n m hn _ _ _ hv
  have hpos : 0 < 2 ^ n := Nat.two_pow_pos n
  refine ⟨convRep_lt v n m, fun i => convRep_testBit hn hv, ?zero, ?ones, ?self, fun hmn => ?narrow⟩
  case zero => exact convRep_eq_of_bits hn hpos (Nat.two_pow_pos m) (by simp)
  case ones =>
    refine convRep_eq_of_bits hn (by omega) (Nat.sub_lt (Nat.two_pow_pos m) Nat.one_pos) fun i hi => ?_
    rw [Nat.testBit_two_pow_sub_one, Nat.testBit_two_pow_sub_one, decide_eq_true (by omega), decide_eq_true (by omega)]
  case self => exact convRep_eq_of_bits hn hv hv fun i hi => by rw [Nat.mod_eq_of_lt hi]
  case narrow =>
    have hlt : v / 2 ^ (n - m) < 2 ^ m := Nat.div_lt_of_lt_mul (by rwa [← pow_add, Nat.sub_add_cancel hmn.le])
    refine convRep_eq_of_bits hn hv hlt fun i hi => ?_
    rw [Nat.testBit_div_two_pow, Nat.mod_eq_of_lt (by omega)]
    congr 1
    omega

/-! ### Stores of byte blocks -/

/-- The cells are those of the blocks `S` picks, block `i` holding `bytes i` from `addr i` on, and no address lies in
two blocks. -/
def IsBlocks {ι : Type} (cells : List Host.Cell) (S : ι → Prop) (addr : ι → Nat) (bytes : ι → List Byte) : Prop :=
  (∀ c, c ∈ cells ↔ ∃ i, S i ∧ c ∈ cellsAt (addr i) (bytes i)) ∧
    ∀ i j k l, S i → S j → k < (bytes i).length → l < (bytes j).length → addr i + k = addr j + l → i = j

/-- Each block inside `M` reads as its bytes. -/
theorem IsBlocks.readBytes {ι : Type} {m : Memory} {cells : List Host.Cell} {S : ι → Prop} {addr : ι → Nat}
    {bytes : ι → List Byte} (h : IsBlocks cells S addr bytes) (hwf : m.wf = true) {i : ι} (hi : S i)
    (hsize : addr i + (bytes i).length ≤ m.size) :
    (m.writeCells cells).readBytes (addr i) (bytes i).length = bytes i := by
  obtain ⟨hmem, hdisj⟩ := h
  refine List.ext_getElem (by simp) fun k _ hk => ?_
  rw [Memory.readBytes_getElem]
  have hget : (bytes i)[k]? = some (bytes i)[k] := List.getElem?_eq_getElem hk
  refine Memory.read_writeCells_of_mem hwf (by omega) ((hmem _).mpr ⟨i, hi, mem_cellsAt.mpr ⟨k, rfl, hget⟩⟩)
    fun w hw => ?_
  obtain ⟨j, hj, hcell⟩ := (hmem _).mp hw
  obtain ⟨l, haddr, hl⟩ := mem_cellsAt.mp hcell
  obtain rfl := hdisj i j k l hi hj hk (List.getElem?_eq_some_iff.mp hl).1 haddr
  obtain rfl := Nat.add_left_cancel haddr
  exact Option.some.inj (hl.symm.trans hget)

/-- Outside the blocks nothing changes. -/
theorem IsBlocks.sameExcept {ι : Type} {cells : List Host.Cell} {S : ι → Prop} {addr : ι → Nat}
    {bytes : ι → List Byte} (h : IsBlocks cells S addr bytes) (m : Memory) :
    sameExcept m (m.writeCells cells) fun a => ∃ i, S i ∧ addr i ≤ a ∧ a < addr i + (bytes i).length :=
  sameExcept_writeCells fun c hc =>
    let ⟨i, hi, hcell⟩ := (h.1 c).mp hc
    ⟨i, hi, cellsAt_key hcell⟩

theorem sameExcept.mono {m m' : Memory} {p q : Nat → Prop} (h : sameExcept m m' p) (hpq : ∀ a, p a → q a) :
    sameExcept m m' q :=
  ⟨h.1, fun a ha => h.2 a fun hp => ha (hpq a hp)⟩

theorem sameExcept.outside {m m' : Memory} {p : Nat → Prop} {r : Span} (h : sameExcept m m' p)
    (hpr : ∀ a, p a → r.has a = true) : sameOutside m m' r :=
  ⟨h.1, fun a ha => h.2 a fun hp => by rw [hpr a hp] at ha; exact absurd ha (by decide)⟩

/-- Rows of one length at a pitch that holds it. -/
theorem rows_isBlocks {dst r pitch len : Nat} {row : Nat → List Byte} (hlen : ∀ y, (row y).length = len)
    (hpitch : len ≤ pitch) :
    IsBlocks ((List.range r).flatMap fun y => cellsAt (dst + y * pitch) (row y)) (· < r)
      (fun y => dst + y * pitch) row := by
  refine ⟨fun c => by simp only [List.mem_flatMap, List.mem_range], fun y z k l _ _ hk hl h => ?_⟩
  rw [hlen] at hk hl
  rw [Nat.add_assoc, Nat.add_assoc] at h
  exact (sample_byte_injective (hk.trans_le hpitch) (hl.trans_le hpitch) (Nat.add_left_cancel h)).1

/-- Every element of a strided sequence ends inside the sequence's hull (20_memory.md R83). -/
theorem hull_end {s : State} {a n stride w i : Nat} (h : s.spanOK (hull a n stride w) = true) (hi : i < n) :
    a + i * stride + w ≤ s.mem.size := by
  rw [hull, if_neg (by omega), State.spanOK_iff] at h
  have hle : i * stride ≤ (n - 1) * stride := Nat.mul_le_mul_right _ (by omega)
  simp only at h
  omega

/-! ### BITCONV (43_pack.md R233, R234) -/

theorem convTypeOK_iff {wi wo : Nat} {p0 : Word} :
    convTypeOK wi wo p0 = true ↔ 1 ≤ convN p0 ∧ convN p0 ≤ 32 ∧ 1 ≤ convM p0 ∧ convM p0 ≤ 32 ∧
      convS p0 + convN p0 ≤ 8 * wi ∧ convM p0 ≤ 8 * wo := by
  simp only [convTypeOK, Bool.and_eq_true, decide_eq_true_eq, and_assoc]

theorem convValue_lt {n : Nat} (hn : 1 ≤ n) (rep inv : Bool) (m sh container : Nat) :
    convValue rep inv n m sh container < 2 ^ m := by
  have hpos : 0 < 2 ^ m := Nat.two_pow_pos m
  have hv : container / 2 ^ sh % 2 ^ n < 2 ^ n := Nat.mod_lt _ (Nat.two_pow_pos n)
  have hrep := convRep_lt (container / 2 ^ sh % 2 ^ n) n m
  have hround := convRound_lt hn m hv
  unfold convValue
  cases inv <;> cases rep <;> simp only [Bool.false_eq_true, if_true, if_false] <;> omega

/-- The value made of source container `i`. -/
def convAt (mem : Memory) (wi : Nat) (sbe rep inv : Bool) (src : Nat) (p0 p1 : Word) (i : Nat) : Nat :=
  convValue rep inv (convN p0) (convM p0) (convS p0) (mem.readUInt (src + i * convSi p1 wi) wi sbe)

theorem convCells_isBlocks (mem : Memory) {wi wo : Nat} (sbe dbe rep inv : Bool) (src n dst : Nat) (p0 p1 : Word)
    (hso : wo ≤ convSo p1 wo) :
    IsBlocks (convCells mem wi wo sbe dbe rep inv src n dst p0 p1) (· < n) (fun i => dst + i * convSo p1 wo)
      (fun i => uintBytes wo dbe (convAt mem wi sbe rep inv src p0 p1 i)) :=
  rows_isBlocks (fun _ => uintBytes_length ..) hso

/-- Settles O27: each container's bytes are a block, and the value in it fits the container. -/
theorem bitconvConverts : Obligations.BitconvConverts := by
  unfold Obligations.BitconvConverts
  intro s irq wi wo sbe dbe rep inv src n dst p0 p1 hwf _ _ hpass si so depth depth'
  obtain ⟨hparam, -, hdst, -⟩ := checksPass_ranges hpass rfl rfl
  obtain ⟨htype, -, hso⟩ := paramError_bitconv hparam
  obtain ⟨hn, -, -, -, -, hfit⟩ := convTypeOK_iff.mp htype
  rw [exec_bitconv_of_pass hpass]
  obtain ⟨t, ht, hc, hm⟩ := State.store_finish s
    (convCells s.mem wi wo sbe dbe rep inv src.toNat n.toNat dst.toNat p0 p1) irq n.toNat 0 0 0
  have hblocks := convCells_isBlocks s.mem (wi := wi) sbe dbe rep inv src.toNat n.toNat dst.toNat p0 p1 hso
  refine ⟨t, ht, hc, fun i hi => ?_, ?_⟩
  · have hread := hblocks.readBytes hwf hi (by rw [uintBytes_length]; exact hull_end hdst hi)
    have hlt : convAt s.mem wi sbe rep inv src.toNat p0 p1 i < 256 ^ wo := by
      have hpow : (256 : Nat) ^ wo = 2 ^ (8 * wo) := (pow_mul 2 8 wo).symm
      exact hpow ▸ (convValue_lt hn ..).trans_le (Nat.pow_le_pow_right (by decide) hfit)
    rw [uintBytes_length, ← hm] at hread
    exact (congrArg (uintOfBytes dbe) hread).trans ((uintOfBytes_uintBytes ..).trans (Nat.mod_eq_of_lt hlt))
  · rw [hm]
    refine (hblocks.sameExcept s.mem).mono fun a ⟨i, hi, hlo, hhi⟩ => ⟨i, hi, hlo, ?_⟩
    rwa [uintBytes_length] at hhi

end Sys2Proof.Machine

/-! Channels, planes and rows: REORDER, DEINTERLEAVE, INTERLEAVE, ROWFLIP (43_pack.md R235 to R239). -/

namespace Sys2Proof.Machine

/-! ### Elements by two indices -/

theorem mem_flatMap_range {n c : Nat} {cells : Nat → Nat → List Host.Cell} {x : Host.Cell} :
    (x ∈ (List.range n).flatMap fun i => (List.range c).flatMap fun k => cells i k) ↔
      ∃ p : Nat × Nat, (p.1 < n ∧ p.2 < c) ∧ x ∈ cells p.1 p.2 := by
  simp only [List.mem_flatMap, List.mem_range, Prod.exists]
  constructor
  · rintro ⟨i, hi, k, hk, hx⟩
    exact ⟨i, k, ⟨hi, hk⟩, hx⟩
  · rintro ⟨i, k, ⟨hi, hk⟩, hx⟩
    exact ⟨i, hi, k, hk, hx⟩

/-- The cells copy the `w` bytes at `src i k` to `dst i k`, for `i < n` and `k < c`, and no address lies in two of
the copies. -/
def IsElements (m : Memory) (cells : List Host.Cell) (n c w : Nat) (src dst : Nat → Nat → Nat) : Prop :=
  IsBlocks cells (fun p : Nat × Nat => p.1 < n ∧ p.2 < c) (fun p => dst p.1 p.2)
    (fun p => m.readBytes (src p.1 p.2) w)

theorem elements_isElements {n c w : Nat} {m : Memory} {src dst : Nat → Nat → Nat}
    (hdisj : ∀ i k i' k' x x', i < n → k < c → i' < n → k' < c → x < w → x' < w →
      dst i k + x = dst i' k' + x' → i = i' ∧ k = k') :
    IsElements m ((List.range n).flatMap fun i => (List.range c).flatMap fun k => moveElement m (src i k) (dst i k) w)
      n c w src dst := by
  refine ⟨fun x => mem_flatMap_range, ?_⟩
  rintro ⟨i, k⟩ ⟨i', k'⟩ x x' ⟨hi, hk⟩ ⟨hi', hk'⟩ hx hx' h
  rw [Memory.readBytes_length] at hx hx'
  obtain ⟨rfl, rfl⟩ := hdisj i k i' k' x x' hi hk hi' hk' hx hx' h
  rfl

section
variable {m : Memory} {cells : List Host.Cell} {n c w : Nat} {src dst : Nat → Nat → Nat}

/-- A stored element reads as its source did. -/
theorem IsElements.readBytes (h : IsElements m cells n c w src dst) (hwf : m.wf = true) {i k : Nat} (hi : i < n)
    (hk : k < c) (hsize : dst i k + w ≤ m.size) :
    (m.writeCells cells).readBytes (dst i k) w = m.readBytes (src i k) w := by
  have hread := IsBlocks.readBytes h hwf (i := (i, k)) ⟨hi, hk⟩ (by simpa using hsize)
  rwa [Memory.readBytes_length] at hread

/-- Outside the elements nothing changes. -/
theorem IsElements.changesOnly (h : IsElements m cells n c w src dst) :
    sameExcept m (m.writeCells cells) fun a => ∃ i < n, ∃ k < c, dst i k ≤ a ∧ a < dst i k + w :=
  (IsBlocks.sameExcept h m).mono fun a ⟨p, ⟨hi, hk⟩, hlo, hhi⟩ =>
    ⟨p.1, hi, p.2, hk, hlo, by rwa [Memory.readBytes_length] at hhi⟩

end

/-- Element `k` of pixel `i` and the byte in it, of `n` pixels of `c` elements. -/
theorem pixel_byte_lt {n c w i k x : Nat} (hi : i < n) (hk : k < c) (hx : x < w) :
    (i * c + k) * w + x < n * c * w :=
  sample_byte_lt (sample_byte_lt hi hk) hx

theorem pixel_byte_injective {c w i k x i' k' x' : Nat} (hk : k < c) (hk' : k' < c) (hx : x < w) (hx' : x' < w)
    (h : (i * c + k) * w + x = (i' * c + k') * w + x') : i = i' ∧ k = k' :=
  sample_byte_injective hk hk' (sample_byte_injective hx hx' h).1

/-- Element `i` of plane `k` and the byte in it, of `c` planes of `n` elements at a pitch. -/
theorem plane_byte_injective {n w pitch i k x i' k' x' : Nat} (hpitch : n * w ≤ pitch) (hi : i < n) (hi' : i' < n)
    (hx : x < w) (hx' : x' < w) (h : k * pitch + (i * w + x) = k' * pitch + (i' * w + x')) : i = i' ∧ k = k' := by
  obtain ⟨hkk, hrest⟩ := sample_byte_injective ((sample_byte_lt hi hx).trans_le hpitch)
    ((sample_byte_lt hi' hx').trans_le hpitch) h
  exact ⟨(sample_byte_injective hx hx' hrest).1, hkk⟩

/-- A whole element of the pixels lies inside their range. -/
theorem pixel_end {n c w i k : Nat} (hi : i < n) (hk : k < c) : (i * c + k) * w + w ≤ n * c * w :=
  calc (i * c + k) * w + w = (i * c + k + 1) * w := (Nat.succ_mul _ _).symm
    _ ≤ n * c * w := Nat.mul_le_mul_right _ (sample_byte_lt hi hk)

/-- A whole plane lies inside the hull of the planes (43_pack.md R237). -/
theorem plane_end {s : State} {a n w c pitch k : Nat} (h : s.spanOK (planesSpan a n w c pitch) = true) (hn : 0 < n)
    (hk : k < c) : a + k * pitch + n * w ≤ s.mem.size := by
  rw [planesSpan, if_neg (by omega), State.spanOK_iff] at h
  have hle : k * pitch ≤ (c - 1) * pitch := Nat.mul_le_mul_right _ (by omega)
  simp only at h
  omega

theorem element_end {n w i : Nat} (hi : i < n) : i * w + w ≤ n * w :=
  (Nat.succ_mul i w).symm.trans_le (Nat.mul_le_mul_right w hi)

/-! ### REORDER (43_pack.md R235, R236) -/

theorem reorderCells_isElements (mem : Memory) (w c src n dst : Nat) (p0 : Word) :
    IsElements mem (reorderCells mem w c src n dst p0) n c w (fun i k => src + i * c * w + mapEntry p0 k * w)
      (fun i k => dst + i * c * w + k * w) := by
  refine elements_isElements fun i k i' k' x x' _ hk _ hk' hx hx' h => ?_
  refine pixel_byte_injective hk hk' hx hx' ?_
  rw [Nat.add_mul, Nat.add_mul]
  omega

/-- Settles O28: the elements are read before any is stored, so source and destination may be the same. -/
theorem reorderPermutesChannels : Obligations.ReorderPermutesChannels := by
  unfold Obligations.ReorderPermutesChannels
  intro s irq w c src n dst p0 hwf hpass
  have hdst : s.spanOK ⟨dst.toNat, n.toNat * c * w⟩ = true := by
    simp only [checksPass, checkedRanges, Bool.and_eq_true] at hpass
    exact hpass.2.1.2
  have hsize := State.spanOK_iff.mp hdst
  simp only at hsize
  have hblocks := reorderCells_isElements s.mem w c src.toNat n.toNat dst.toNat p0
  rw [exec_reorder_of_pass hpass]
  obtain ⟨t, ht, hc, hm⟩ :=
    State.store_finish s (reorderCells s.mem w c src.toNat n.toNat dst.toNat p0) irq n.toNat 0 0 0
  refine ⟨t, ht, hc, fun i hi k hk => ?_, ?_⟩
  · have hend := pixel_end (w := w) hi hk
    rw [Nat.add_mul] at hend
    rw [hm]
    exact hblocks.readBytes hwf hi hk (by omega)
  · rw [hm]
    refine hblocks.changesOnly.outside fun a ⟨i, hi, k, hk, hlo, hhi⟩ => Span.has_iff.mpr ?_
    have hend := pixel_end (w := w) hi hk
    rw [Nat.add_mul] at hend
    simp only
    omega

/-! ### DEINTERLEAVE and INTERLEAVE (43_pack.md R237, R238) -/

theorem planarCells_isElements (mem : Memory) {w c src n dst pitch : Nat} (hpitch : n * w ≤ pitch) :
    IsElements mem (planarCells mem w c src n dst pitch) c n w (fun k i => src + (i * c + k) * w)
      (fun k i => dst + k * pitch + i * w) := by
  refine elements_isElements fun k i k' i' x x' _ hi _ hi' hx hx' h => ?_
  exact (plane_byte_injective hpitch hi hi' hx hx' (by omega)).symm

theorem interleavedCells_isElements (mem : Memory) (w c src n dst pitch : Nat) :
    IsElements mem (interleavedCells mem w c src n dst pitch) n c w (fun i k => src + k * pitch + i * w)
      (fun i k => dst + (i * c + k) * w) :=
  elements_isElements fun i k i' k' x x' _ hk _ hk' hx hx' h => pixel_byte_injective hk hk' hx hx' (by omega)

theorem exec_deinterleave_completes {s : State} {irq : Bool} {w c : Nat} {src n dst pp : Word}
    (hwf : s.mem.wf = true) (hpass : checksPass (.deinterleave irq w c src n dst pp) s = true) :
    ∃ t, exec (.deinterleave irq w c src n dst pp) s = .next t ∧
      completed s t irq n.toNat (orDefault pp.toNat (n.toNat * w)) 0 0 ∧
      (∀ k < c, ∀ i < n.toNat,
        t.mem.readBytes (dst.toNat + k * orDefault pp.toNat (n.toNat * w) + i * w) w =
          s.mem.readBytes (src.toNat + (i * c + k) * w) w) ∧
      sameExcept s.mem t.mem fun a => ∃ k < c, dst.toNat + k * orDefault pp.toNat (n.toNat * w) ≤ a ∧
        a < dst.toNat + k * orDefault pp.toNat (n.toNat * w) + n.toNat * w := by
  obtain ⟨hparam, -, hdst, -⟩ := checksPass_ranges hpass rfl rfl
  have hpitch : n.toNat * w ≤ orDefault pp.toNat (n.toNat * w) := by simpa [paramError] using hparam
  rw [exec_deinterleave_of_pass hpass]
  generalize orDefault pp.toNat (n.toNat * w) = pitch at hpitch hdst ⊢
  have hblocks := planarCells_isElements s.mem (c := c) (src := src.toNat) (dst := dst.toNat) hpitch
  obtain ⟨t, ht, hc, hm⟩ :=
    State.store_finish s (planarCells s.mem w c src.toNat n.toNat dst.toNat pitch) irq n.toNat pitch 0 0
  refine ⟨t, ht, hc, fun k hk i hi => ?_, ?_⟩
  · have hplane := plane_end hdst (Nat.zero_lt_of_lt hi) hk
    have helement := element_end (w := w) hi
    rw [hm]
    exact hblocks.readBytes hwf hk hi (by omega)
  · rw [hm]
    refine hblocks.changesOnly.mono fun a ⟨k, hk, i, hi, hlo, hhi⟩ => ⟨k, hk, by omega, ?_⟩
    have helement := element_end (w := w) hi
    omega

/-- Settles O29. -/
theorem deinterleaveMakesPlanes : Obligations.DeinterleaveMakesPlanes := by
  unfold Obligations.DeinterleaveMakesPlanes
  exact fun s irq w c src n dst pp => exec_deinterleave_completes

theorem exec_interleave_completes {s : State} {irq : Bool} {w c : Nat} {src n dst pp : Word}
    (hwf : s.mem.wf = true) (hpass : checksPass (.interleave irq w c src n dst pp) s = true) :
    ∃ t, exec (.interleave irq w c src n dst pp) s = .next t ∧
      completed s t irq n.toNat (orDefault pp.toNat (n.toNat * w)) 0 0 ∧
      (∀ k < c, ∀ i < n.toNat, t.mem.readBytes (dst.toNat + (i * c + k) * w) w =
        s.mem.readBytes (src.toNat + k * orDefault pp.toNat (n.toNat * w) + i * w) w) ∧
      sameOutside s.mem t.mem ⟨dst.toNat, n.toNat * c * w⟩ := by
  obtain ⟨-, -, hdst, -⟩ := checksPass_ranges hpass rfl rfl
  have hsize := State.spanOK_iff.mp hdst
  simp only at hsize
  rw [exec_interleave_of_pass hpass]
  generalize orDefault pp.toNat (n.toNat * w) = pitch
  have hblocks := interleavedCells_isElements s.mem w c src.toNat n.toNat dst.toNat pitch
  obtain ⟨t, ht, hc, hm⟩ :=
    State.store_finish s (interleavedCells s.mem w c src.toNat n.toNat dst.toNat pitch) irq n.toNat pitch 0 0
  refine ⟨t, ht, hc, fun k hk i hi => ?_, ?_⟩
  · have hend := pixel_end (w := w) hi hk
    rw [hm]
    exact hblocks.readBytes hwf hi hk (by omega)
  · rw [hm]
    refine hblocks.changesOnly.outside fun a ⟨i, hi, k, hk, hlo, hhi⟩ => Span.has_iff.mpr ?_
    have hend := pixel_end (w := w) hi hk
    simp only
    omega

/-- Settles O30. -/
theorem interleaveMakesPixels : Obligations.InterleaveMakesPixels := by
  unfold Obligations.InterleaveMakesPixels
  exact fun s irq w c src n dst pp => exec_interleave_completes

/-- The checks look at the memory's size alone. -/
theorem checksPass_of_size {i : Instr} {s t : State} (h : checksPass i s = true) (hsize : t.mem.size = s.mem.size) :
    checksPass i t = true := by
  have hspan (r : Span) : t.spanOK r = s.spanOK r := by simp [State.spanOK, Memory.rangeOK, hsize]
  simpa only [checksPass, hspan] using h

/-- Pixels are equal when their elements are. -/
theorem readBytes_pixels {m m' : Memory} {a b n c w : Nat}
    (h : ∀ i < n, ∀ k < c, m.readBytes (a + (i * c + k) * w) w = m'.readBytes (b + (i * c + k) * w) w) :
    m.readBytes a (n * c * w) = m'.readBytes b (n * c * w) := by
  refine readBytes_congr fun x hx => ?_
  have hw : 0 < w := Nat.pos_of_mul_pos_left (Nat.zero_lt_of_lt hx)
  have he : x / w < n * c := Nat.div_lt_of_lt_mul (by rwa [Nat.mul_comm])
  have hc : 0 < c := Nat.pos_of_mul_pos_left (Nat.zero_lt_of_lt he)
  have hi : x / w / c < n := Nat.div_lt_of_lt_mul (by rwa [Nat.mul_comm])
  have hbyte := read_of_readBytes (h _ hi _ (Nat.mod_lt (x / w) hc)) (Nat.mod_lt x hw)
  rwa [Nat.div_add_mod', Nat.add_assoc, Nat.add_assoc, Nat.div_add_mod'] at hbyte

/-- Settles O31: each element goes to its plane and comes back. -/
theorem interleaveRestoresDeinterleaved : Obligations.InterleaveRestoresDeinterleaved := by
  unfold Obligations.InterleaveRestoresDeinterleaved
  intro s irq irq' w c src n dst pp out hwf hpass hpass'
  obtain ⟨t, ht, -, hplanes, hsize, -⟩ := exec_deinterleave_completes hwf hpass
  obtain ⟨u, hu, -, hpixels, -⟩ :=
    exec_interleave_completes (exec_keeps_mem_wf hwf ht) (checksPass_of_size hpass' hsize)
  exact ⟨t, u, ht, hu, readBytes_pixels fun i hi k hk => (hpixels k hk i hi).trans (hplanes k hk i hi)⟩

/-! ### ROWFLIP (43_pack.md R239) -/

/-- The rows that move: all but the middle one of an odd number. -/
def rowMoves (r y : Nat) : Prop := y < r ∧ r - 1 - y ≠ y

theorem flipCells_isBlocks (mem : Memory) {base r len pitch : Nat} (hpitch : len ≤ pitch) :
    IsBlocks (flipCells mem base r len pitch) (rowMoves r) (fun y => base + y * pitch)
      (fun y => mem.readBytes (base + (r - 1 - y) * pitch) len) := by
  refine ⟨fun c => ?_, fun y z k l _ _ hk hl h => ?_⟩
  · simp only [flipCells, List.mem_flatMap, List.mem_range, List.mem_append]
    constructor
    · rintro ⟨y, hy, hc | hc⟩
      · exact ⟨y, ⟨by omega, by omega⟩, hc⟩
      · refine ⟨r - 1 - y, ⟨by omega, by omega⟩, ?_⟩
        rwa [show r - 1 - (r - 1 - y) = y by omega]
    · rintro ⟨y, ⟨hy, hne⟩, hc⟩
      rcases Nat.lt_or_ge y (r / 2) with hlow | hhigh
      · exact ⟨y, hlow, .inl hc⟩
      · refine ⟨r - 1 - y, by omega, .inr ?_⟩
        rwa [show r - 1 - (r - 1 - y) = y by omega]
  · rw [Memory.readBytes_length] at hk hl
    rw [Nat.add_assoc, Nat.add_assoc] at h
    exact (sample_byte_injective (hk.trans_le hpitch) (hl.trans_le hpitch) (Nat.add_left_cancel h)).1

/-- After a flip each row reads as its mirror row did. -/
theorem readBytes_flipped {m : Memory} {base r len pitch y : Nat} (hwf : m.wf = true) (hpitch : len ≤ pitch)
    (hy : y < r) (hsize : base + y * pitch + len ≤ m.size) :
    (m.writeCells (flipCells m base r len pitch)).readBytes (base + y * pitch) len =
      m.readBytes (base + (r - 1 - y) * pitch) len := by
  have hblocks := flipCells_isBlocks m (base := base) (r := r) hpitch
  by_cases hmid : r - 1 - y = y
  · rw [hmid]
    refine readBytes_congr fun k hk => (hblocks.sameExcept m).2 _ ?_
    rintro ⟨z, ⟨-, hne⟩, hlo, hhi⟩
    rw [Memory.readBytes_length] at hhi
    obtain ⟨l, hl⟩ : ∃ l, base + y * pitch + k = base + z * pitch + l :=
      Nat.exists_eq_add_of_le hlo
    have hend : base + y * pitch + k < base + z * pitch + len := hhi
    have hsame := (sample_byte_injective (b := pitch) (i := y) (k := z) (x := k) (y := l) (by omega) (by omega)
      (by omega)).1
    exact hne (hsame ▸ hmid)
  · have hread := hblocks.readBytes hwf (i := y) ⟨hy, hmid⟩ (by simpa using hsize)
    rwa [Memory.readBytes_length] at hread

theorem sameExcept_flipped (m : Memory) {base r len pitch : Nat} (hpitch : len ≤ pitch) :
    sameExcept m (m.writeCells (flipCells m base r len pitch)) fun a =>
      ∃ y < r, base + y * pitch ≤ a ∧ a < base + y * pitch + len :=
  ((flipCells_isBlocks m hpitch).sameExcept m).mono fun a ⟨y, ⟨hy, _⟩, hlo, hhi⟩ =>
    ⟨y, hy, hlo, by rwa [Memory.readBytes_length] at hhi⟩

/-- Flipping twice gives the memory back: a row's mirror's mirror is the row. -/
theorem flipped_twice {m : Memory} {base r len pitch : Nat} (hwf : m.wf = true) (hpitch : len ≤ pitch)
    (hsize : ∀ y < r, base + y * pitch + len ≤ m.size) :
    let m' := m.writeCells (flipCells m base r len pitch)
    m'.writeCells (flipCells m' base r len pitch) = m := by
  intro m'
  have hwf' : m'.wf = true := Memory.writeCells_wf hwf _
  have hsize' : m'.size = m.size := Memory.writeCells_size _ _
  refine Memory.ext_of_read (Memory.writeCells_wf hwf' _) hwf (by rw [Memory.writeCells_size, hsize']) fun a _ => ?_
  by_cases hrow : ∃ y < r, base + y * pitch ≤ a ∧ a < base + y * pitch + len
  · obtain ⟨y, hy, hlo, hhi⟩ := hrow
    obtain ⟨k, rfl⟩ := Nat.exists_eq_add_of_le hlo
    have hk : k < len := by omega
    have hmirror : r - 1 - y < r := by omega
    have hsecond := read_of_readBytes (readBytes_flipped hwf' hpitch hy (hsize'.symm ▸ hsize y hy)) hk
    have hfirst := read_of_readBytes (readBytes_flipped hwf hpitch hmirror (hsize _ hmirror)) hk
    rw [show r - 1 - (r - 1 - y) = y by omega] at hfirst
    exact hsecond.trans hfirst
  · exact ((sameExcept_flipped m' hpitch).2 a hrow).trans ((sameExcept_flipped m hpitch).2 a hrow)

/-- Settles O32. -/
theorem rowflipReversesRows : Obligations.RowflipReversesRows := by
  unfold Obligations.RowflipReversesRows
  intro s irq base rows len pitch hwf p hullLen hp
  have hspan : rowsSpan base.toNat rows.toNat p len.toNat = ⟨base.toNat, hullLen⟩ := rowsSpan_eq ..
  refine ⟨fun hfits => ?_, fun hout => ?_⟩
  · have hok : s.spanOK (rowsSpan base.toNat rows.toNat p len.toNat) = true := by
      rw [hspan]
      exact State.spanOK_iff.mpr hfits
    have hsize : ∀ y < rows.toNat, base.toNat + y * p + len.toNat ≤ s.mem.size := fun y hy => hull_end hok hy
    obtain ⟨t, ht, hc, hm⟩ :=
      State.store_finish s (flipCells s.mem base.toNat rows.toNat len.toNat p) irq (rows.toNat / 2) 0 0 0
    have hsizet : t.mem.size = s.mem.size := by rw [hm, Memory.writeCells_size]
    have hokt : t.spanOK (rowsSpan base.toNat rows.toNat p len.toNat) = true := by
      rwa [State.spanOK, Memory.rangeOK, hsizet]
    obtain ⟨u, hu, -, hmu⟩ :=
      State.store_finish t (flipCells t.mem base.toNat rows.toNat len.toNat p) irq (rows.toNat / 2) 0 0 0
    refine ⟨t, u, (exec_rowflip_of_ok hp hok).trans ht, hc, fun y hy => ?_, ?_, (exec_rowflip_of_ok hp hokt).trans hu, ?_⟩
    · rw [hm]
      exact readBytes_flipped hwf hp hy (hsize y hy)
    · rw [hm]
      exact sameExcept_flipped s.mem hp
    · rw [hmu, hm]
      exact flipped_twice hwf hp hsize
  · have hbad : s.spanOK (rowsSpan base.toNat rows.toNat p len.toNat) = false := by
      rw [hspan]
      exact State.spanOK_eq_false.mpr hout
    have hbad' : s.spanOK (rowsSpan base.toNat rows.toNat (orDefault pitch.toNat len.toNat) len.toNat) = false := hbad
    have hp' : ¬ orDefault pitch.toNat len.toNat < len.toNat := Nat.not_lt.mpr hp
    simp [exec, execRowflip, hp', hbad', State.fail_eq]

end Sys2Proof.Machine

/-! Sub-byte packing: UNPACKSUB and PACKSUB (43_pack.md R240 to R242). A packed byte is a number in base `2^b`; the
digits are its elements. -/

namespace Sys2Proof.Machine

/-! ### Numbers by their digits -/

theorem digitSum_lt {base : Nat} {d : Nat → Nat} (n : Nat) (hd : ∀ p, d p < base) :
    ∑ p ∈ Finset.range n, d p * base ^ p < base ^ n := by
  induction n with
  | zero => simp
  | succ n ih =>
    rw [Finset.sum_range_succ, pow_succ']
    have hle : d n * base ^ n + base ^ n ≤ base * base ^ n := by
      rw [← Nat.succ_mul]
      exact Nat.mul_le_mul_right _ (hd n)
    omega

/-- The digit at a place is the one the sum has there. -/
theorem digitSum_digit {base : Nat} {d : Nat → Nat} {n p : Nat} (hd : ∀ p, d p < base) (hp : p < n) :
    (∑ q ∈ Finset.range n, d q * base ^ q) / base ^ p % base = d p := by
  induction n with
  | zero => exact absurd hp (Nat.not_lt_zero p)
  | succ n ih =>
    have hpos : 0 < base ^ p := Nat.pow_pos (Nat.zero_lt_of_lt (hd p))
    rw [Finset.sum_range_succ]
    rcases Nat.lt_or_ge p n with hlow | hhigh
    · obtain ⟨k, rfl⟩ := Nat.exists_eq_add_of_le hlow
      have hsplit : d (p + 1 + k) * base ^ (p + 1 + k) = base ^ p * (base * (base ^ k * d (p + 1 + k))) := by ring
      rw [hsplit, Nat.add_mul_div_left _ _ hpos, Nat.add_mul_mod_self_left, ih hlow]
    · obtain rfl : p = n := by omega
      rw [Nat.add_mul_div_right _ _ hpos, Nat.div_eq_of_lt (digitSum_lt p hd), Nat.zero_add, Nat.mod_eq_of_lt (hd p)]

/-! ### Elements in their bytes (43_pack.md R240) -/

theorem subBits_mul {bc : BitVec 2} (h : bc ≠ 3#2) : 8 / subBits bc * subBits bc = 8 := by
  revert bc
  decide

/-- The place in its byte of element `q` of `n`, counted from the low bits. -/
def elementPlace (n : Nat) (lsbf : Bool) (q : Nat) : Nat := if lsbf then q else n - 1 - q

theorem elementPlace_lt {n q : Nat} (lsbf : Bool) (hq : q < n) : elementPlace n lsbf q < n := by
  unfold elementPlace
  split <;> omega

theorem elementPlace_elementPlace {n q : Nat} (lsbf : Bool) (hq : q < n) :
    elementPlace n lsbf (elementPlace n lsbf q) = q := by
  unfold elementPlace
  split <;> omega

/-- Counted from the low bits or from the high bits, the places are the same. -/
theorem sum_elementPlace (n : Nat) (lsbf : Bool) (f : Nat → Nat → Nat) :
    ∑ q ∈ Finset.range n, f q (elementPlace n lsbf q) = ∑ p ∈ Finset.range n, f (elementPlace n lsbf p) p :=
  Finset.sum_nbij' (elementPlace n lsbf) (elementPlace n lsbf)
    (fun _ hq => Finset.mem_range.mpr (elementPlace_lt lsbf (Finset.mem_range.mp hq)))
    (fun _ hq => Finset.mem_range.mpr (elementPlace_lt lsbf (Finset.mem_range.mp hq)))
    (fun _ hq => elementPlace_elementPlace lsbf (Finset.mem_range.mp hq))
    (fun _ hq => elementPlace_elementPlace lsbf (Finset.mem_range.mp hq))
    (fun _ hq => by rw [elementPlace_elementPlace lsbf (Finset.mem_range.mp hq)])

/-- The byte that holds element `q` of byte `t`. -/
theorem element_byte {b n q : Nat} (hb : n * b = 8) (hq : q < n) (t : Nat) : (t * n + q) * b / 8 = t := by
  have hend := element_end (w := b) hq
  have hpos : 0 < b := Nat.pos_of_ne_zero fun h => by simp [h] at hb
  rw [Nat.add_mul, Nat.mul_assoc, hb]
  omega

theorem subShift_element {b n q : Nat} (hb : n * b = 8) (hq : q < n) (lsbf : Bool) (t : Nat) :
    subShift b lsbf (t * n + q) = elementPlace n lsbf q * b := by
  have hend := element_end (w := b) hq
  have hpos : 0 < b := Nat.pos_of_ne_zero fun h => by simp [h] at hb
  have hmod : (t * n + q) * b % 8 = q * b := by
    rw [Nat.add_mul, Nat.mul_assoc, hb]
    omega
  unfold subShift elementPlace
  rw [hmod]
  split
  · rfl
  · rw [Nat.sub_mul, Nat.sub_mul]
    omega

/-! ### UNPACKSUB (43_pack.md R241) -/

theorem unpackElement_toNat (mem : Memory) (row : Nat) {b : Nat} (hb : b ≤ 8) (lsbf : Bool) (j : Nat) :
    (unpackElement mem row b lsbf j).toNat = (mem.read (row + j * b / 8)).toNat / 2 ^ subShift b lsbf j % 2 ^ b := by
  rw [unpackElement, BitVec.toNat_ofNat]
  exact Nat.mod_eq_of_lt ((Nat.mod_lt _ (Nat.two_pow_pos b)).trans_le (Nat.pow_le_pow_right (by decide) hb))

/-- A byte of a stored row. -/
theorem read_row {m : Memory} {cells : List Host.Cell} {dst r pitch len : Nat} {byte : Nat → Nat → Byte}
    (h : IsBlocks cells (· < r) (fun y => dst + y * pitch) fun y => (List.range len).map (byte y)) (hwf : m.wf = true)
    {y x : Nat} (hy : y < r) (hx : x < len) (hsize : dst + y * pitch + len ≤ m.size) :
    (m.writeCells cells).read (dst + y * pitch + x) = byte y x := by
  have hread := h.readBytes hwf hy (by simpa using hsize)
  have hbyte := congrArg (·[x]?) hread
  simpa [Memory.readBytes_getElem, hx] using hbyte

theorem exec_unpacksub_completes {s : State} {irq : Bool} {bc : BitVec 2} {lsbf : Bool} {src n dst rows ps pd : Word}
    (hwf : s.mem.wf = true) (hpass : checksPass (.unpacksub irq bc lsbf src n dst rows ps pd) s = true) :
    let sp := orDefault ps.toNat (packedPitch n.toNat (subBits bc))
    let dp := orDefault pd.toNat n.toNat
    ∃ t, exec (.unpacksub irq bc lsbf src n dst rows ps pd) s = .next t ∧
      completed s t irq (rows.toNat * n.toNat) sp dp 0 ∧
      (∀ y < rows.toNat, ∀ j < n.toNat,
        (t.mem.read (dst.toNat + y * dp + j)).toNat =
          (s.mem.read (src.toNat + y * sp + j * subBits bc / 8)).toNat / 2 ^ subShift (subBits bc) lsbf j %
            2 ^ subBits bc) ∧
      sameExcept s.mem t.mem fun a =>
        ∃ y < rows.toNat, dst.toNat + y * dp ≤ a ∧ a < dst.toNat + y * dp + n.toNat := by
  intro sp dp
  obtain ⟨hparam, -, hdst, -⟩ := checksPass_ranges hpass rfl rfl
  obtain ⟨hbc, -, hpitch⟩ := paramError_unpacksub hparam
  have hb : subBits bc ≤ 8 := Nat.le_of_dvd (by decide) ⟨_, (Nat.mul_comm .. ▸ subBits_mul hbc).symm⟩
  have hblocks : IsBlocks (unpackCells s.mem (subBits bc) lsbf src.toNat n.toNat dst.toNat rows.toNat sp dp)
      (· < rows.toNat) (fun y => dst.toNat + y * dp) fun y =>
        (List.range n.toNat).map (unpackElement s.mem (src.toNat + y * sp) (subBits bc) lsbf) :=
    rows_isBlocks (fun y => by simp) hpitch
  rw [exec_unpacksub_of_pass hpass]
  obtain ⟨t, ht, hc, hm⟩ := State.store_finish s
    (unpackCells s.mem (subBits bc) lsbf src.toNat n.toNat dst.toNat rows.toNat sp dp) irq (rows.toNat * n.toNat) sp dp 0
  refine ⟨t, ht, hc, fun y hy j hj => ?_, ?_⟩
  · rw [hm, read_row hblocks hwf hy hj (hull_end hdst hy), unpackElement_toNat _ _ hb]
  · rw [hm]
    exact (hblocks.sameExcept s.mem).mono fun a ⟨y, hy, hlo, hhi⟩ => ⟨y, hy, hlo, by simpa using hhi⟩

/-- Settles O33. -/
theorem unpacksubExpandsElements : Obligations.UnpacksubExpandsElements := by
  unfold Obligations.UnpacksubExpandsElements
  exact fun s irq bc lsbf src n dst rows ps pd => exec_unpacksub_completes

/-! ### PACKSUB (43_pack.md R242) -/

/-- What a packed byte holds at place `p`: an element's low bits, or 0 past the row's elements. -/
def packDigit (mem : Memory) (row n b : Nat) (lsbf : Bool) (t p : Nat) : Nat :=
  if t * (8 / b) + elementPlace (8 / b) lsbf p < n then
    (mem.read (row + (t * (8 / b) + elementPlace (8 / b) lsbf p))).toNat % 2 ^ b
  else 0

section
variable {b : Nat} (hb : 8 / b * b = 8) (mem : Memory) (row n : Nat) (lsbf : Bool) (t : Nat)

theorem packDigit_lt (p : Nat) : packDigit mem row n b lsbf t p < 2 ^ b := by
  unfold packDigit
  split
  · exact Nat.mod_lt _ (Nat.two_pow_pos b)
  · exact Nat.two_pow_pos b

include hb

theorem packByte_toNat : (packByte mem row n b lsbf t).toNat =
    ∑ p ∈ Finset.range (8 / b), packDigit mem row n b lsbf t p * (2 ^ b) ^ p := by
  have hlt := digitSum_lt (8 / b) (packDigit_lt (b := b) mem row n lsbf t)
  rw [← pow_mul, Nat.mul_comm b, hb] at hlt
  refine (congrArg (· % 2 ^ 8) ?_).trans (Nat.mod_eq_of_lt hlt)
  refine Eq.trans ?_ (sum_elementPlace (8 / b) lsbf fun q p =>
    (if t * (8 / b) + q < n then (mem.read (row + (t * (8 / b) + q))).toNat % 2 ^ b else 0) * (2 ^ b) ^ p)
  refine Finset.sum_congr (s₁ := Finset.range (8 / b)) rfl fun q hq => ?_
  dsimp only
  rw [subShift_element hb (Finset.mem_range.mp hq), Nat.mul_comm _ b, pow_mul, ite_mul, Nat.zero_mul]

/-- The `b` bits at place `p`. -/
theorem packByte_digit {p : Nat} (hp : p < 8 / b) :
    (packByte mem row n b lsbf t).toNat / 2 ^ (p * b) % 2 ^ b = packDigit mem row n b lsbf t p := by
  rw [packByte_toNat hb, Nat.mul_comm p, pow_mul]
  exact digitSum_digit (packDigit_lt mem row n lsbf t) hp

/-- The bits of element `j` in its byte. -/
theorem packByte_element {j : Nat} (hj : j < n) :
    (packByte mem row n b lsbf (j * b / 8)).toNat / 2 ^ subShift b lsbf j % 2 ^ b =
      (mem.read (row + j)).toNat % 2 ^ b := by
  have hpos : 0 < 8 / b := Nat.pos_of_ne_zero fun h => by simp [h] at hb
  have hq := Nat.mod_lt j hpos
  have hbyte := element_byte hb hq (j / (8 / b))
  have hshift := subShift_element hb hq lsbf (j / (8 / b))
  rw [Nat.div_add_mod'] at hbyte hshift
  rw [hbyte, hshift, packByte_digit hb _ _ _ _ _ (elementPlace_lt lsbf hq), packDigit,
    elementPlace_elementPlace lsbf hq, Nat.div_add_mod', if_pos hj]

/-- A bit that no element holds is 0. -/
theorem packByte_testBit_of_free {u : Nat} (hu : u < 8)
    (hfree : ∀ j < n, j * b / 8 = t → u < subShift b lsbf j ∨ subShift b lsbf j + b ≤ u) :
    (packByte mem row n b lsbf t).toNat.testBit u = false := by
  have hpos : 0 < b := Nat.pos_of_ne_zero fun h => by simp [h] at hb
  have hp : u / b < 8 / b := Nat.div_lt_of_lt_mul (by rwa [Nat.mul_comm, hb])
  have hq := elementPlace_lt lsbf hp
  have hshift := subShift_element hb hq lsbf t
  rw [elementPlace_elementPlace lsbf hp] at hshift
  have hzero : packDigit mem row n b lsbf t (u / b) = 0 := by
    refine if_neg fun hj => ?_
    have hdiv := Nat.div_add_mod' u b
    have hmod := Nat.mod_lt u hpos
    have := hfree _ hj (element_byte hb hq t)
    rw [hshift] at this
    omega
  have hdigit := packByte_digit hb mem row n lsbf t hp
  have hbit := Nat.testBit_mod_two_pow ((packByte mem row n b lsbf t).toNat / 2 ^ (u / b * b)) b (u % b)
  rw [hdigit, hzero, Nat.zero_testBit, decide_eq_true (Nat.mod_lt u hpos), Bool.true_and, Nat.testBit_div_two_pow,
    Nat.mod_add_div'] at hbit
  exact hbit.symm

end

/-- The byte of element `j` lies inside the packed row. -/
theorem element_lt_packedRow {n b j : Nat} (hb : 8 / b * b = 8) (hj : j < n) : j * b / 8 < packedRow n b := by
  have hend := element_end (w := b) hj
  have hpos : 0 < b := Nat.pos_of_ne_zero fun h => by simp [h] at hb
  unfold packedRow
  omega

theorem exec_packsub_completes {s : State} {irq : Bool} {bc : BitVec 2} {lsbf : Bool} {src n dst rows ps pd : Word}
    (hwf : s.mem.wf = true) (hpass : checksPass (.packsub irq bc lsbf src n dst rows ps pd) s = true) :
    let sp := orDefault ps.toNat n.toNat
    let dp := orDefault pd.toNat (packedPitch n.toNat (subBits bc))
    ∃ t, exec (.packsub irq bc lsbf src n dst rows ps pd) s = .next t ∧
      completed s t irq (rows.toNat * n.toNat) sp dp 0 ∧
      (∀ y < rows.toNat, ∀ j < n.toNat,
        (t.mem.read (dst.toNat + y * dp + j * subBits bc / 8)).toNat / 2 ^ subShift (subBits bc) lsbf j %
            2 ^ subBits bc =
          (s.mem.read (src.toNat + y * sp + j)).toNat % 2 ^ subBits bc) ∧
      (∀ y < rows.toNat, ∀ x < dp, ∀ u < 8,
        (∀ j < n.toNat, j * subBits bc / 8 = x →
          u < subShift (subBits bc) lsbf j ∨ subShift (subBits bc) lsbf j + subBits bc ≤ u) →
        (t.mem.read (dst.toNat + y * dp + x)).toNat.testBit u = false) ∧
      sameOutside s.mem t.mem ⟨dst.toNat, rows.toNat * dp⟩ := by
  intro sp dp
  obtain ⟨hparam, -, hdst, -⟩ := checksPass_ranges hpass rfl rfl
  obtain ⟨hbc, -, hrow⟩ := paramError_packsub hparam
  have hb := subBits_mul hbc
  have hsize : dst.toNat + rows.toNat * dp ≤ s.mem.size := State.spanOK_iff.mp hdst
  have hblocks : IsBlocks (packCells s.mem (subBits bc) lsbf src.toNat n.toNat dst.toNat rows.toNat sp dp)
      (· < rows.toNat) (fun y => dst.toNat + y * dp) fun y =>
        (List.range dp).map (packByte s.mem (src.toNat + y * sp) n.toNat (subBits bc) lsbf) :=
    rows_isBlocks (fun y => by simp) (Nat.le_refl dp)
  rw [exec_packsub_of_pass hpass]
  obtain ⟨t, ht, hc, hm⟩ := State.store_finish s
    (packCells s.mem (subBits bc) lsbf src.toNat n.toNat dst.toNat rows.toNat sp dp) irq (rows.toNat * n.toNat) sp dp 0
  have hbyte : ∀ y < rows.toNat, ∀ x < dp, t.mem.read (dst.toNat + y * dp + x) =
      packByte s.mem (src.toNat + y * sp) n.toNat (subBits bc) lsbf x := fun y hy x hx => by
    have hend : y * dp + dp ≤ rows.toNat * dp := element_end hy
    rw [hm, read_row hblocks hwf hy hx (by omega)]
  refine ⟨t, ht, hc, fun y hy j hj => ?_, fun y hy x hx u hu hfree => ?_, ?_⟩
  · rw [hbyte y hy _ ((element_lt_packedRow hb hj).trans_le hrow), packByte_element hb _ _ _ _ hj]
  · rw [hbyte y hy x hx, packByte_testBit_of_free hb _ _ _ _ _ hu hfree]
  · rw [hm]
    refine (hblocks.sameExcept s.mem).outside fun a ⟨y, hy, hlo, hhi⟩ => Span.has_iff.mpr ?_
    have hend : y * dp + dp ≤ rows.toNat * dp := element_end hy
    simp only [List.length_map, List.length_range] at hlo hhi ⊢
    omega

/-- Settles O34. -/
theorem packsubPacksElements : Obligations.PacksubPacksElements := by
  unfold Obligations.PacksubPacksElements
  exact fun s irq bc lsbf src n dst rows ps pd => exec_packsub_completes

/-- Settles O35: UNPACKSUB reads the bits where PACKSUB put them. -/
theorem unpacksubRestoresPacked : Obligations.UnpacksubRestoresPacked := by
  unfold Obligations.UnpacksubRestoresPacked
  intro s irq irq' bc lsbf src n dst rows ps pd out hwf hpass hpass' sp
  obtain ⟨t, ht, -, hpacked, -, hsize, -⟩ := exec_packsub_completes hwf hpass
  obtain ⟨u, hu, -, hunpacked, -⟩ :=
    exec_unpacksub_completes (exec_keeps_mem_wf hwf ht) (checksPass_of_size hpass' hsize)
  exact ⟨t, u, ht, hu, fun y hy j hj => (hunpacked y hy j hj).trans (hpacked y hy j hj)⟩

end Sys2Proof.Machine
